-- ==== Sys2Proof/Word.lean ====
section
/-! DEFINITION. The machine's words and the type of an element-indexed memory space. -/

namespace Sys2Proof

/-- A byte: an element of `PW`, `DIN`, `DOUT` (R61). -/
abbrev Byte := BitVec 8

/-- A register, and a word of SHA-256 (R17, R20). -/
abbrev Word := BitVec 32

/-- An element of `SIN` or `SOUT`: the IEEE 754 pattern of one sample (R67). With `FLEN = 32`
only the low 32 bits are used. -/
abbrev Sample := BitVec 64

/-- One buffer space (R40): the elements that are not 0, as (index, element) pairs with strictly
rising indices. `Memory 8` is a list of `Host.Cell`. -/
abbrev Memory (w : Nat) := List (Nat × BitVec w)

end Sys2Proof
end

