-- ==== Sys2Proof/Config.lean ====
section
/-! DEFINITION. What an instance of LPC fixes (R8 to R11), the shape of an entropy answer and of the
hidden state, and the free values of the model. -/

namespace Sys2Proof

/-- `FLEN` (R11): the width of a sample, selecting binary32 or binary64. -/
inductive Flen where
  | f32
  | f64
deriving DecidableEq, Repr, Inhabited

/-- `FLEN` as a number of bits, as register `FLENR` reads it (R38). -/
def Flen.bits : Flen → Nat
  | .f32 => 32
  | .f64 => 64

/-- The implementation parameters `PW_CAP`, `D_CAP`, `S_CAP`, `FLEN` (R8 to R11). -/
structure Params where
  pwCap : Nat
  dCap : Nat
  sCap : Nat
  flen : Flen
deriving DecidableEq, Repr

/-- The reference instance (R8 to R11). -/
def Params.reference : Params := ⟨256, 4096, 32768, .f64⟩

/-- An answer of the entropy port to one `draw()` (R47). -/
structure Draw where
  ok : Bool
  iv : Vector Byte 16
deriving DecidableEq, Repr, Inhabited

/-- The hidden state of R49. -/
structure Hidden where
  key : Vector Byte 16
  rk : Vector (Vector Byte 16) 11
  chain : Vector Byte 16
  hash : Vector Word 8
  w : Vector Word 64
  stg : Memory 8
  q : Memory 16
  counters : List Nat
deriving DecidableEq, Repr, Inhabited

/-- Every item of R49 zero, as R50 has it whenever the core is idle. -/
def Hidden.zero : Hidden where
  key := .replicate 16 0
  rk := .replicate 11 (.replicate 16 0)
  chain := .replicate 16 0
  hash := .replicate 8 0
  w := .replicate 64 0
  stg := []
  q := []
  counters := []

/-- FREE VALUE (R47, U3): what the entropy port answers to the `n`-th draw when the input side of
the state has announced no answer. Nothing constrains it. -/
opaque Config.entropy : Nat → Draw

/-- FREE VALUE (R63, U1): what a host read of a buffer element returns while a command runs,
drawn afresh at each read. -/
opaque Config.busyRead : Nat → BitVec 64

/-- FREE VALUE (R49, U8): what the hidden state holds while a command runs. -/
opaque Config.working : Nat → Hidden

end Sys2Proof
end

