-- ==== Sys2Proof/Syntax.lean ====
section
/-! DEFINITION. The eleven commands of LPC (R88): one constructor per row of the opcode table. -/

namespace Sys2Proof

/-- A command. No operand stands in the word but `MB` of `EXT` (R86, R87). -/
inductive Instr where
  /-- `derive_key(password)` (R119) -/
  | kdf
  /-- `encrypt(plaintext, password)` (R162) -/
  | enc
  /-- `decrypt(envelope, password)` (R166) -/
  | dec
  /-- `quantize(buffer)` (R188) -/
  | qnt
  /-- `embed(buffer, bits)` (R203) -/
  | emb
  /-- `extract(buffer, max_bits)` (R208): `mb` says whether `max_bits` is present -/
  | ext (mb : Bool)
  /-- extract until the delimiter (R219) -/
  | xtd
  /-- the embedding flow (R223) -/
  | hide
  /-- the extraction flow (R225) -/
  | reveal
  /-- `max_usable_bytes(total_samples)` (R236) -/
  | cap
  /-- `required_bits(message_byte_length)` (R239) -/
  | rqb
deriving DecidableEq, Repr

end Sys2Proof
end

