-- ==== Sys2Proof/WellFormed.lean ====
section
/-! DEFINITION. The checks of form: of a command word (R89) and of an instance's parameters
(R8 to R11, U5). -/

namespace Sys2Proof

/-- The eleven `OPC` values of R88. -/
def assignedOpcs : List (BitVec 8) :=
  [0x01#8, 0x02#8, 0x03#8, 0x10#8, 0x11#8, 0x12#8, 0x13#8, 0x20#8, 0x21#8, 0x30#8, 0x31#8]

/-- R89, first condition: bits 31:9 are zero. -/
def zeroFieldOk (w : Word) : Bool := w.extractLsb' 9 23 == 0#23

/-- R89, second condition: bits 7:0 are one of the eleven `OPC` values. -/
def opcOk (w : Word) : Bool := assignedOpcs.contains (w.extractLsb' 0 8)

/-- R89, third condition: bit 8 is 0, or the `OPC` is that of `EXT`. -/
def mbOk (w : Word) : Bool := !w.getLsbD 8 || w.extractLsb' 0 8 == 0x12#8

/-- A command word is legal exactly when all three conditions of R89 hold. -/
def legalWord (w : Word) : Bool := zeroFieldOk w && opcOk w && mbOk w

/-- Every term of `Instr` is well formed: the one field there is, `mb`, is a `Bool`, and both of its
values have a legal word (R88). -/
def Instr.wellFormed : Instr → Bool
  | .kdf | .enc | .dec | .qnt | .emb | .xtd | .hide | .reveal | .cap | .rqb => true
  | .ext _ => true

/-- R8. -/
def Params.pwCapOk (p : Params) : Bool := decide (1 ≤ p.pwCap ∧ p.pwCap < 2 ^ 32)

/-- R9. -/
def Params.dCapOk (p : Params) : Bool :=
  decide (p.dCap % 16 = 0 ∧ 64 ≤ p.dCap ∧ p.dCap < 2 ^ 28)

/-- R10. -/
def Params.sCapOk (p : Params) : Bool := decide (0 < p.sCap ∧ p.sCap ≤ 8 * p.dCap)

/-- The constraints on an instance, R8 to R10; R11 (`FLEN` is 32 or 64) is the type `Flen`. The
model refuses an instance outside them (U5). -/
def Params.ok (p : Params) : Bool := p.pwCapOk && p.dCapOk && p.sCapOk

end Sys2Proof
end

