-- ==== Sys2Proof/Decode.lean ====
section
/-! DEFINITION. Decoding a command word (R86 to R90), and the encoder after it. -/

namespace Sys2Proof

/-- Why a word is no command (R89, R90): which of the three conditions fails. -/
inductive DecodeError where
  /-- bits 31:9 are not zero -/
  | zeroField
  /-- bits 7:0 are no assigned `OPC` -/
  | unassignedOpc
  /-- `MB = 1` on a command other than `EXT` -/
  | mbNotExt
deriving DecidableEq, Repr

/-- Field `OPC`, bits 7:0 (R86). -/
def opcField (w : Word) : BitVec 8 := w.extractLsb' 0 8

/-- Field `MB`, bit 8 (R86). -/
def mbField (w : Word) : Bool := w.getLsbD 8

/-- Field `ZERO`, bits 31:9 (R86). -/
def zeroField (w : Word) : BitVec 23 := w.extractLsb' 9 23

/-- The command an `OPC` selects (R88); `mb` is passed to `EXT`, the only command it means
something for (R86). -/
def instrOfOpc (opc : BitVec 8) (mb : Bool) : Option Instr :=
  if opc = 0x01#8 then some .kdf
  else if opc = 0x02#8 then some .enc
  else if opc = 0x03#8 then some .dec
  else if opc = 0x10#8 then some .qnt
  else if opc = 0x11#8 then some .emb
  else if opc = 0x12#8 then some (.ext mb)
  else if opc = 0x13#8 then some .xtd
  else if opc = 0x20#8 then some .hide
  else if opc = 0x21#8 then some .reveal
  else if opc = 0x30#8 then some .cap
  else if opc = 0x31#8 then some .rqb
  else none

/-- Decoding reads nothing but the word (R89); a word that is not legal is rejected by name. -/
def decode (w : Word) : Except DecodeError Instr :=
  if zeroField w ≠ 0 then .error .zeroField
  else
    match instrOfOpc (opcField w) (mbField w) with
    | none => .error .unassignedOpc
    | some i => if mbField w && opcField w != 0x12#8 then .error .mbNotExt else .ok i

/-- The command word of a command: the `word` column of R88. -/
def encode : Instr → Word
  | .kdf => 0x00000001#32
  | .enc => 0x00000002#32
  | .dec => 0x00000003#32
  | .qnt => 0x00000010#32
  | .emb => 0x00000011#32
  | .ext false => 0x00000012#32
  | .ext true => 0x00000112#32
  | .xtd => 0x00000013#32
  | .hide => 0x00000020#32
  | .reveal => 0x00000021#32
  | .cap => 0x00000030#32
  | .rqb => 0x00000031#32

/-- The command word whose low `nbits` bits are those of `w`, every bit above them 0. A command is
one 32-bit register value, so no byte order enters (R85). -/
def commandWord (nbits w : Nat) : Word := BitVec.ofNat 32 (w % 2 ^ nbits)

/-- The command the decoder reads from the opcode table's word `w` of `nbits` bits. -/
def decodeTableWord (nbits w : Nat) : Option Instr :=
  match decode (commandWord nbits w) with
  | .ok i => some i
  | .error _ => none

end Sys2Proof
end

