-- ==== Sys2Proof/Machine/State.lean ====
section
/-! DEFINITION. The state of LPC as plain data, the inputs of a step, and the state after reset. -/

namespace Sys2Proof.Machine

/-- The seven address spaces (R60). -/
inductive Space where
  | reg
  | pw
  | din
  | dout
  | sin
  | sout
  | qout
deriving DecidableEq, Repr

/-- What the outside world can do to the block, one entry a step. -/
inductive Input where
  /-- `HostRead(S, i)` (R62) -/
  | hostRead (sp : Space) (i : Nat)
  /-- `HostWrite(S, i, v)` (R62); the element takes the low bits of `v` -/
  | hostWrite (sp : Space) (i : Nat) (v : BitVec 64)
  /-- the reset input is asserted (R280) -/
  | hardReset
  /-- the entropy port will give this answer, after those announced before it (R47, R100) -/
  | announce (d : Draw)
  /-- the core's turn: a running command completes (R98) -/
  | coreTurn
deriving DecidableEq, Repr

/-- The fields of `STATUS` (R22); the reserved bits have no storage. -/
structure Status where
  busy : Bool
  done : Bool
  err : Bool
  ecode : BitVec 4
deriving DecidableEq, Repr

/-- The operand registers, numbers 3 to 9 (R20, R24 to R30). -/
structure OperandRegs where
  pwlen : Word
  dlen : Word
  nbits : Word
  maxbits : Word
  nchan : Word
  nfrm : Word
  arg : Word
deriving DecidableEq, Repr

/-- What a command produces: the result registers, numbers 10 to 16 (R31 to R35), and the
core-written buffers (R43, R45, R46). -/
structure Outputs where
  olen : Word
  obits : Word
  ons : Word
  resl : Word
  resh : Word
  einfo0 : Word
  einfo1 : Word
  dout : Memory 8
  sout : Memory 64
  qout : Memory 16
deriving DecidableEq, Repr

/-- The host-written buffers (R41, R42, R44). -/
structure InputBufs where
  pw : Memory 8
  din : Memory 8
  sin : Memory 64
deriving DecidableEq, Repr

/-- The arguments of the step that are not machine state (R55): the instance's parameters, what
the host and the platform do next, the entropy answers announced, how many free values of each
kind were used, and the element the last host read returned. -/
structure Env where
  par : Params
  inputs : List Input
  answers : List Draw
  drawn : Nat
  fresh : Nat
  rdata : BitVec 64
deriving DecidableEq, Repr

/-- The state of LPC (R20 to R50), and beside it the arguments of the step. -/
structure State where
  /-- `CMD`, register 0 (R21) -/
  cmd : Word
  /-- `STATUS`, register 1 (R22) -/
  status : Status
  /-- `CTRL.IE`, bit 0 of register 2 (R23) -/
  ie : Bool
  opnd : OperandRegs
  out : Outputs
  bufs : InputBufs
  /-- the hidden state (R49) -/
  hidden : Hidden
  env : Env
deriving DecidableEq, Repr

/-- No step faults: "None of the nine kinds is a fault of the model" (R270), and an access out of
range reads 0 or writes nothing (R61). The type has no constructor. -/
inductive Fault where
deriving DecidableEq, Repr

/-- Why the model gives a step no meaning. -/
inductive Refusal where
  /-- Raised by `exec` alone, in an arm whose command has no meaning yet. Safe: nothing is claimed
  of such a step. -/
  | notModelled (mnemonic : String)
  /-- Raised by `step` alone: the instance's parameters break a constraint of R8 to R10, and "a
  configuration outside them the model refuses" (U5). Safe: no rule covers such an instance. -/
  | badParameters
deriving DecidableEq, Repr

/-- Every output cleared (R257). -/
def Outputs.zero : Outputs := ⟨0, 0, 0, 0, 0, 0, 0, [], [], []⟩

/-- The machine right after reset (R52, R281): the reference instance, with nothing to come from
outside. -/
def State.reset : State where
  cmd := 0
  status := ⟨false, false, false, 0⟩
  ie := false
  opnd := ⟨0, 0, 0, 0, 0, 0, 0⟩
  out := Outputs.zero
  bufs := ⟨[], [], []⟩
  hidden := Hidden.zero
  env := ⟨Params.reference, [], [], 0, 0, 0⟩

end Sys2Proof.Machine
end

