-- ==== Sys2Proof/Machine/Flags.lean ====
section
/-! DEFINITION. The error kinds and their codes, the words `STATUS` and `CTRL` read as, and the
interrupt line. LPC has no arithmetic flags (R37). -/

namespace Sys2Proof.Machine

/-- The nine error kinds (R246). -/
inductive ErrKind where
  | insufficientCapacity
  | delimiterNotFound
  | malformedEnvelope
  | invalidPadding
  | invalidEncoding
  | sampleOverflow
  | encryptionError
  | illegalCommand
  | operandRange
deriving DecidableEq, Repr

/-- The code of an error kind in `STATUS.ECODE` (R246). -/
def ErrKind.code : ErrKind → BitVec 4
  | .insufficientCapacity => 1
  | .delimiterNotFound => 2
  | .malformedEnvelope => 3
  | .invalidPadding => 4
  | .invalidEncoding => 5
  | .sampleOverflow => 6
  | .encryptionError => 7
  | .illegalCommand => 8
  | .operandRange => 9

/-- `raise K(i0, i1)` as the pseudocode writes it (R16): a kind and its two context numbers. -/
structure CmdErr where
  kind : ErrKind
  info0 : Nat
  info1 : Nat
deriving DecidableEq, Repr

/-- What a command's pseudocode ends with: an error kind, or the outputs it writes (R51). -/
abbrev CmdResult := Except CmdErr Outputs

/-- A context number as its 32-bit register holds it, saturated at `2^32 - 1` (R246, R255; C11). -/
def satWord (n : Nat) : Word := BitVec.ofNat 32 (min n (2 ^ 32 - 1))

/-- The value register `STATUS` reads as (R22): `BUSY` bit 0, `DONE` bit 1, `ERR` bit 2, `ECODE`
bits 11:8, every other bit 0. -/
def Status.word (st : Status) : Word :=
  (BitVec.ofBool st.busy).setWidth 32 ||| (BitVec.ofBool st.done).setWidth 32 <<< 1 |||
    (BitVec.ofBool st.err).setWidth 32 <<< 2 ||| st.ecode.setWidth 32 <<< 8

/-- The value register `CTRL` reads as (R23): `IE` bit 0; `SRST` and the reserved bits read 0. -/
def ctrlWord (ie : Bool) : Word := (BitVec.ofBool ie).setWidth 32

/-- `STATUS` at issue: running, everything else cleared (R96). -/
def Status.running : Status := ⟨true, false, false, 0⟩

/-- `STATUS` at a completion without error (R98). -/
def Status.completed : Status := ⟨false, true, false, 0⟩

/-- `STATUS` at a completion with an error of this kind (R256). -/
def Status.failed (k : ErrKind) : Status := ⟨false, true, true, k.code⟩

/-- The interrupt output (R48, R263): `irq = CTRL.IE & STATUS.DONE`. -/
def State.irq (s : State) : Bool := s.ie && s.status.done

end Sys2Proof.Machine
end

