-- ==== Sys2Proof/Machine/Ops.lean ====
section
/-! DEFINITION. The named operations over memory and the command life cycle: issue, completion,
error entry, acknowledgement, reset, and the draw. -/

namespace Sys2Proof

/-! ### Memory -/

/-- What an element that no pair lists reads as: 0, the reset contents of every buffer (R52). -/
def Memory.blank {w : Nat} : BitVec w := 0#w

/-- The canonical form: indices strictly rising, and no element listed that an unlisted one
reads as. -/
abbrev Memory.wf {w : Nat} (m : Memory w) : Prop :=
  m.Pairwise (fun c d => c.1 < d.1) ∧ ∀ c ∈ m, c.2 ≠ Memory.blank

/-- Every listed index is inside a space of `n` elements (R61). -/
abbrev Memory.within {w : Nat} (n : Nat) (m : Memory w) : Prop := ∀ c ∈ m, c.1 < n

/-- The element at index `i`. -/
def Memory.read {w : Nat} : Memory w → Nat → BitVec w
  | [], _ => Memory.blank
  | (a, v) :: m, i => if i = a then v else Memory.read m i

/-- Store `v` at index `i`. -/
def Memory.write {w : Nat} : Memory w → Nat → BitVec w → Memory w
  | [], i, v => if v = Memory.blank then [] else [(i, v)]
  | (a, u) :: m, i, v =>
    if i < a then
      if v = Memory.blank then (a, u) :: m else (i, v) :: (a, u) :: m
    else if i = a then
      if v = Memory.blank then m else (i, v) :: m
    else (a, u) :: Memory.write m i v

/-- `MemRead(S:i, n)` (R16): the `n` consecutive elements from index `i`. -/
def Memory.readRun {w : Nat} (m : Memory w) (i n : Nat) : List (BitVec w) :=
  (List.range n).map fun k => Memory.read m (i + k)

/-- The cells of a run of elements stored from index `i`. -/
def Memory.cells {w : Nat} : Nat → List (BitVec w) → Memory w
  | _, [] => []
  | i, v :: vs =>
    if v = Memory.blank then Memory.cells (i + 1) vs else (i, v) :: Memory.cells (i + 1) vs

/-- `MemWrite(S:i, n, v)` (R16): the elements `vs` stored from index `i`. -/
def Memory.writeRun {w : Nat} (m : Memory w) (i : Nat) (vs : List (BitVec w)) : Memory w :=
  m.filter (fun c => c.1 < i) ++ Memory.cells i vs ++ m.filter (fun c => i + vs.length ≤ c.1)

/-- A buffer as the issue step clears it (R257). -/
def Memory.cleared {w : Nat} : Memory w := []

end Sys2Proof

namespace Sys2Proof.Machine

/-! ### The command life cycle -/

/-- Issue of the command word `w` (R96): `CMD` takes the word, `BUSY` rises, `DONE`, `ERR` and
`ECODE` fall, and every result register and core-written buffer is cleared (R257). What the hidden
state holds from here to completion is a free value. -/
def State.issue (w : Word) (s : State) : State :=
  { s with
    cmd := w
    status := .running
    out := .zero
    hidden := Config.working s.env.fresh
    env := { s.env with fresh := s.env.fresh + 1 } }

/-- The outputs of a command that ends with an error kind (R256, R257): `EINFO0` and `EINFO1` hold
the context, every other output is as the issue step cleared it. -/
def CmdErr.outputs (e : CmdErr) : Outputs :=
  { Outputs.zero with einfo0 := satWord e.info0, einfo1 := satWord e.info1 }

/-- `STATUS` at the completion of a command that ended so (R98, R256). -/
def resultStatus : CmdResult → Status
  | .ok _ => .completed
  | .error e => .failed e.kind

/-- The outputs at the completion of a command that ended so (R98, R256, R257). -/
def resultOutputs : CmdResult → Outputs
  | .ok o => o
  | .error e => e.outputs

/-- Completion (R98), one indivisible step: `STATUS` and the outputs are set from what the command's
pseudocode ended with, the hidden state is zeroed (R50), `BUSY` falls and `DONE` rises. -/
def State.complete (r : CmdResult) (s : State) : State :=
  { s with status := resultStatus r, out := resultOutputs r, hidden := .zero }

/-- TAKING AN ERROR, `raise K(i0, i1)` (R256): the completion in which `ERR` and `ECODE` report the
kind and `EINFO0`, `EINFO1` its context. Nothing is saved, no other state changes, and control goes
nowhere. -/
def State.raise (e : CmdErr) (s : State) : State := s.complete (.error e)

/-- THE RETURN (R260): there is no return command; the host acknowledges a completion by a write
of `STATUS` with bit 1 set, which clears `DONE` and nothing else (R22). -/
def State.acknowledge (s : State) : State := { s with status := { s.status with done := false } }

/-- Reset, hard or soft (R280 to R282): every piece of machine state takes its reset value (R52),
a running command is abandoned; what is not machine state stays (the parameters, R38, and what
comes from outside the core). -/
def State.resetCore (s : State) : State := { State.reset with env := s.env }

/-- The answer the entropy port gives to the next `draw()` (R47): the first announced answer, or
else a free value. -/
def State.nextDraw (s : State) : Draw :=
  match s.env.answers with
  | d :: _ => d
  | [] => Config.entropy s.env.drawn

/-- The state after one `draw()`: the answer is used up. -/
def State.afterDraw (s : State) : State :=
  { s with env := { s.env with answers := s.env.answers.tail, drawn := s.env.drawn + 1 } }

end Sys2Proof.Machine
end

