-- ==== Sys2Proof/Machine/Bus.lean ====
section
/-! DEFINITION. The host interface: register and buffer access (R20 to R46, R61 to R63), the effects
of host writes, and what each input does to the block. -/

namespace Sys2Proof.Machine

/-- The number of elements of a space (R61). -/
def Space.size (p : Params) : Space → Nat
  | .reg => 32
  | .pw => p.pwCap
  | .din => p.dCap
  | .dout => p.dCap
  | .sin => p.sCap
  | .sout => p.sCap
  | .qout => p.sCap

/-- The width of an element of a space (R61). -/
def Space.width (p : Params) : Space → Nat
  | .reg => 32
  | .pw | .din | .dout => 8
  | .sin | .sout => p.flen.bits
  | .qout => 16

/-- The identification word (R38). -/
def idWord : Word := 0x4C504301#32

/-- What register `n` reads as (R20 to R39); reserved numbers read 0. -/
def State.regRead (s : State) (n : Nat) : Word :=
  match n with
  | 0 => s.cmd
  | 1 => s.status.word
  | 2 => ctrlWord s.ie
  | 3 => s.opnd.pwlen
  | 4 => s.opnd.dlen
  | 5 => s.opnd.nbits
  | 6 => s.opnd.maxbits
  | 7 => s.opnd.nchan
  | 8 => s.opnd.nfrm
  | 9 => s.opnd.arg
  | 10 => s.out.olen
  | 11 => s.out.obits
  | 12 => s.out.ons
  | 13 => s.out.resl
  | 14 => s.out.resh
  | 15 => s.out.einfo0
  | 16 => s.out.einfo1
  | 17 => idWord
  | 18 => BitVec.ofNat 32 s.env.par.pwCap
  | 19 => BitVec.ofNat 32 s.env.par.dCap
  | 20 => BitVec.ofNat 32 s.env.par.sCap
  | 21 => BitVec.ofNat 32 s.env.par.flen.bits
  | _ => 0

/-- The element `i` of a space as it stands, zero-extended. -/
def State.element (s : State) (sp : Space) (i : Nat) : BitVec 64 :=
  match sp with
  | .reg => (s.regRead i).setWidth 64
  | .pw => (Memory.read s.bufs.pw i).setWidth 64
  | .din => (Memory.read s.bufs.din i).setWidth 64
  | .dout => (Memory.read s.out.dout i).setWidth 64
  | .sin => Memory.read s.bufs.sin i
  | .sout => Memory.read s.out.sout i
  | .qout => (Memory.read s.out.qout i).setWidth 64

/-- Whether a host read returns an unspecified element: a buffer, while a command runs (R63). -/
def State.readIsOpen (s : State) (sp : Space) : Bool := s.status.busy && sp != .reg

/-- The low `w` bits of a bus value (R62: `v` is of the element's width). -/
def lowBits (w : Nat) (v : BitVec 64) : BitVec 64 := BitVec.ofNat 64 (v.toNat % 2 ^ w)

/-- What `HostRead(S, i)` returns (R62): 0 out of range (R61); an unspecified element of a buffer
while a command runs (R63, U1); else the element. -/
def State.readValue (s : State) (sp : Space) (i : Nat) : BitVec 64 :=
  if i < sp.size s.env.par then
    if s.readIsOpen sp then lowBits (sp.width s.env.par) (Config.busyRead s.env.fresh)
    else s.element sp i
  else 0

/-- `HostRead(S, i)` (R62): the value goes to the host; nothing of the machine changes. -/
def State.hostRead (sp : Space) (i : Nat) (s : State) : State :=
  { s with
    env := { s.env with
      rdata := s.readValue sp i
      fresh := s.env.fresh + if s.readIsOpen sp then 1 else 0 } }

/-- A write of `CTRL` (R23), at any time: bit 1 is the soft reset and then nothing else counts; else
bit 0 is stored in `IE`. -/
def State.writeCtrl (v : Word) (s : State) : State :=
  if v.getLsbD 1 then s.resetCore else { s with ie := v.getLsbD 0 }

/-- A write of `STATUS` while idle (R22): bit 1 set acknowledges, nothing else counts. -/
def State.writeStatus (v : Word) (s : State) : State :=
  if v.getLsbD 1 then s.acknowledge else s

/-- A write of register `n` while idle (R20 to R39): read-only and reserved registers ignore it. -/
def State.regWrite (n : Nat) (v : Word) (s : State) : State :=
  match n with
  | 0 => s.issue v
  | 1 => s.writeStatus v
  | 2 => s.writeCtrl v
  | 3 => { s with opnd := { s.opnd with pwlen := v } }
  | 4 => { s with opnd := { s.opnd with dlen := v } }
  | 5 => { s with opnd := { s.opnd with nbits := v } }
  | 6 => { s with opnd := { s.opnd with maxbits := v } }
  | 7 => { s with opnd := { s.opnd with nchan := v } }
  | 8 => { s with opnd := { s.opnd with nfrm := v } }
  | 9 => { s with opnd := { s.opnd with arg := v } }
  | _ => s

/-- A write of an element in range while idle (R62): the core-written buffers ignore it. -/
def State.elementWrite (sp : Space) (i : Nat) (v : BitVec 64) (s : State) : State :=
  match sp with
  | .reg => s.regWrite i (v.setWidth 32)
  | .pw => { s with bufs := { s.bufs with pw := Memory.write s.bufs.pw i (v.setWidth 8) } }
  | .din => { s with bufs := { s.bufs with din := Memory.write s.bufs.din i (v.setWidth 8) } }
  | .sin =>
    { s with
      bufs := { s.bufs with sin := Memory.write s.bufs.sin i (lowBits s.env.par.flen.bits v) } }
  | .dout | .sout | .qout => s

/-- `HostWrite(S, i, v)` (R62): out of range writes nothing (R61); while a command runs every write
but one to `CTRL` is ignored (R63, R97). -/
def State.hostWrite (sp : Space) (i : Nat) (v : BitVec 64) (s : State) : State :=
  if s.status.busy then
    if sp = .reg ∧ i = 2 then s.writeCtrl (v.setWidth 32) else s
  else if i < sp.size s.env.par then s.elementWrite sp i v
  else s

/-- The entropy port's next answers have one more at their end (R47, R100). -/
def State.announce (d : Draw) (s : State) : State :=
  { s with env := { s.env with answers := s.env.answers ++ [d] } }

end Sys2Proof.Machine
end

