-- ==== Sys2Proof/Machine/Operands.lean ====
section
/-! DEFINITION. The operands of the commands (R54), each read as its rule says, and the operand
range checks of R255. -/

namespace Sys2Proof.Machine

/-- The password bytes `PW[0..PWLEN)` (R24, R41). -/
def State.password (s : State) : List Byte := Memory.readRun s.bufs.pw 0 s.opnd.pwlen.toNat

/-- The data bytes `DIN[0..DLEN)` (R25, R42). -/
def State.data (s : State) : List Byte := Memory.readRun s.bufs.din 0 s.opnd.dlen.toNat

/-- `N = NCHAN * NFRM`, the exact product (R29, R72, R238). -/
def State.sampleCount (s : State) : Nat := s.opnd.nchan.toNat * s.opnd.nfrm.toNat

/-- The samples `SIN[0..N)`, flat order (R44). -/
def State.samples (s : State) : List Sample := Memory.readRun s.bufs.sin 0 s.sampleCount

/-- The bytes of `DIN` that the bits `0 .. NBITS-1` stand in (R26, R196). -/
def State.bitBytes (s : State) : List Byte :=
  Memory.readRun s.bufs.din 0 ((s.opnd.nbits.toNat + 7) / 8)

/-- Operand id 1: `PWLEN > PW_CAP` (R255). -/
def State.checkPassword (s : State) : Except CmdErr Unit :=
  if s.opnd.pwlen.toNat > s.env.par.pwCap then .error ⟨.operandRange, 1, s.opnd.pwlen.toNat⟩
  else .ok ()

/-- Operand id 2: `DLEN > D_CAP` (R255). -/
def State.checkData (s : State) : Except CmdErr Unit :=
  if s.opnd.dlen.toNat > s.env.par.dCap then .error ⟨.operandRange, 2, s.opnd.dlen.toNat⟩
  else .ok ()

/-- Operand id 3: `NCHAN * NFRM > S_CAP`, the exact product, reported saturated (R255). -/
def State.checkSamples (s : State) : Except CmdErr Unit :=
  if s.sampleCount > s.env.par.sCap then .error ⟨.operandRange, 3, min s.sampleCount (2 ^ 32 - 1)⟩
  else .ok ()

/-- Operand id 5: an output of `size` bytes does not fit `DOUT` (R255). -/
def State.checkOutput (size : Nat) (s : State) : Except CmdErr Unit :=
  if size > s.env.par.dCap then .error ⟨.operandRange, 5, size⟩ else .ok ()

/-- Outputs of a command that delivers a byte string in `DOUT` with its length in `OLEN` (R43). -/
def bytesOut (b : List Byte) : Outputs :=
  { Outputs.zero with
    olen := BitVec.ofNat 32 b.length
    dout := Memory.writeRun Memory.cleared 0 b }

/-- Outputs of a command that delivers the scalar `RES` (R34): `RESL` its bits 31:0, `RESH` its
bits 63:32, two's complement. -/
def scalarOut (res : Int) : Outputs :=
  { Outputs.zero with
    resl := BitVec.ofInt 32 res
    resh := BitVec.ofInt 32 (res / 2 ^ 32) }

end Sys2Proof.Machine
end

