-- ==== Sys2Proof/Machine/Capacity.lean ====
section
/-! DEFINITION. The capacity calculator: `CAP` (R236) and `RQB` (R239). -/

namespace Sys2Proof.Machine

/-- `max_usable_bytes` (R236): the floor, signed and not clamped; 55 = 23 + 16 + 16. -/
def maxUsableBytes (totalSamples : Nat) : Int := ((totalSamples / 8 : Nat) : Int) - 55

/-- `required_bits` (R239). -/
def requiredBits (byteLength : Nat) : Int := ((8 * byteLength : Nat) : Int)

/-- `CAP` (R236). -/
def execCap (s : State) : Host.Outcome State Fault Refusal :=
  .next (s.complete (.ok (scalarOut (maxUsableBytes s.opnd.arg.toNat))))

/-- `RQB` (R239). -/
def execRqb (s : State) : Host.Outcome State Fault Refusal :=
  .next (s.complete (.ok (scalarOut (requiredBits s.opnd.arg.toNat))))

end Sys2Proof.Machine
end

