-- ==== Sys2Proof/Machine/Aes.lean ====
section
/-! DEFINITION. AES-128 (R125 to R142). A block is its 16 bytes in order; byte `k` is the state
element of row `k mod 4`, column `k / 4` (R129). -/

namespace Sys2Proof.Machine

/-- `xtime` (R126). -/
def xtime (a : Byte) : Byte := if a.getLsbD 7 then (a <<< 1) ^^^ 0x1b#8 else a <<< 1

/-- `xtime^i` (R126). -/
def xtimes : Nat → Byte → Byte
  | 0, a => a
  | i + 1, a => xtime (xtimes i a)

/-- `a (.) b` (R126): the XOR of `xtime^i(a)` over the bits `i` set in `b`. -/
def gmul (a b : Byte) : Byte :=
  (List.range 8).foldl (fun acc i => if b.getLsbD i then acc ^^^ xtimes i a else acc) 0#8

/-- The table of R127. -/
def sboxTable : List Byte :=
  [0x63, 0x7c, 0x77, 0x7b, 0xf2, 0x6b, 0x6f, 0xc5, 0x30, 0x01, 0x67, 0x2b, 0xfe, 0xd7, 0xab, 0x76] ++
  [0xca, 0x82, 0xc9, 0x7d, 0xfa, 0x59, 0x47, 0xf0, 0xad, 0xd4, 0xa2, 0xaf, 0x9c, 0xa4, 0x72, 0xc0] ++
  [0xb7, 0xfd, 0x93, 0x26, 0x36, 0x3f, 0xf7, 0xcc, 0x34, 0xa5, 0xe5, 0xf1, 0x71, 0xd8, 0x31, 0x15] ++
  [0x04, 0xc7, 0x23, 0xc3, 0x18, 0x96, 0x05, 0x9a, 0x07, 0x12, 0x80, 0xe2, 0xeb, 0x27, 0xb2, 0x75] ++
  [0x09, 0x83, 0x2c, 0x1a, 0x1b, 0x6e, 0x5a, 0xa0, 0x52, 0x3b, 0xd6, 0xb3, 0x29, 0xe3, 0x2f, 0x84] ++
  [0x53, 0xd1, 0x00, 0xed, 0x20, 0xfc, 0xb1, 0x5b, 0x6a, 0xcb, 0xbe, 0x39, 0x4a, 0x4c, 0x58, 0xcf] ++
  [0xd0, 0xef, 0xaa, 0xfb, 0x43, 0x4d, 0x33, 0x85, 0x45, 0xf9, 0x02, 0x7f, 0x50, 0x3c, 0x9f, 0xa8] ++
  [0x51, 0xa3, 0x40, 0x8f, 0x92, 0x9d, 0x38, 0xf5, 0xbc, 0xb6, 0xda, 0x21, 0x10, 0xff, 0xf3, 0xd2] ++
  [0xcd, 0x0c, 0x13, 0xec, 0x5f, 0x97, 0x44, 0x17, 0xc4, 0xa7, 0x7e, 0x3d, 0x64, 0x5d, 0x19, 0x73] ++
  [0x60, 0x81, 0x4f, 0xdc, 0x22, 0x2a, 0x90, 0x88, 0x46, 0xee, 0xb8, 0x14, 0xde, 0x5e, 0x0b, 0xdb] ++
  [0xe0, 0x32, 0x3a, 0x0a, 0x49, 0x06, 0x24, 0x5c, 0xc2, 0xd3, 0xac, 0x62, 0x91, 0x95, 0xe4, 0x79] ++
  [0xe7, 0xc8, 0x37, 0x6d, 0x8d, 0xd5, 0x4e, 0xa9, 0x6c, 0x56, 0xf4, 0xea, 0x65, 0x7a, 0xae, 0x08] ++
  [0xba, 0x78, 0x25, 0x2e, 0x1c, 0xa6, 0xb4, 0xc6, 0xe8, 0xdd, 0x74, 0x1f, 0x4b, 0xbd, 0x8b, 0x8a] ++
  [0x70, 0x3e, 0xb5, 0x66, 0x48, 0x03, 0xf6, 0x0e, 0x61, 0x35, 0x57, 0xb9, 0x86, 0xc1, 0x1d, 0x9e] ++
  [0xe1, 0xf8, 0x98, 0x11, 0x69, 0xd9, 0x8e, 0x94, 0x9b, 0x1e, 0x87, 0xe9, 0xce, 0x55, 0x28, 0xdf] ++
  [0x8c, 0xa1, 0x89, 0x0d, 0xbf, 0xe6, 0x42, 0x68, 0x41, 0x99, 0x2d, 0x0f, 0xb0, 0x54, 0xbb, 0x16]

/-- The table of R128. -/
def invSboxTable : List Byte :=
  [0x52, 0x09, 0x6a, 0xd5, 0x30, 0x36, 0xa5, 0x38, 0xbf, 0x40, 0xa3, 0x9e, 0x81, 0xf3, 0xd7, 0xfb] ++
  [0x7c, 0xe3, 0x39, 0x82, 0x9b, 0x2f, 0xff, 0x87, 0x34, 0x8e, 0x43, 0x44, 0xc4, 0xde, 0xe9, 0xcb] ++
  [0x54, 0x7b, 0x94, 0x32, 0xa6, 0xc2, 0x23, 0x3d, 0xee, 0x4c, 0x95, 0x0b, 0x42, 0xfa, 0xc3, 0x4e] ++
  [0x08, 0x2e, 0xa1, 0x66, 0x28, 0xd9, 0x24, 0xb2, 0x76, 0x5b, 0xa2, 0x49, 0x6d, 0x8b, 0xd1, 0x25] ++
  [0x72, 0xf8, 0xf6, 0x64, 0x86, 0x68, 0x98, 0x16, 0xd4, 0xa4, 0x5c, 0xcc, 0x5d, 0x65, 0xb6, 0x92] ++
  [0x6c, 0x70, 0x48, 0x50, 0xfd, 0xed, 0xb9, 0xda, 0x5e, 0x15, 0x46, 0x57, 0xa7, 0x8d, 0x9d, 0x84] ++
  [0x90, 0xd8, 0xab, 0x00, 0x8c, 0xbc, 0xd3, 0x0a, 0xf7, 0xe4, 0x58, 0x05, 0xb8, 0xb3, 0x45, 0x06] ++
  [0xd0, 0x2c, 0x1e, 0x8f, 0xca, 0x3f, 0x0f, 0x02, 0xc1, 0xaf, 0xbd, 0x03, 0x01, 0x13, 0x8a, 0x6b] ++
  [0x3a, 0x91, 0x11, 0x41, 0x4f, 0x67, 0xdc, 0xea, 0x97, 0xf2, 0xcf, 0xce, 0xf0, 0xb4, 0xe6, 0x73] ++
  [0x96, 0xac, 0x74, 0x22, 0xe7, 0xad, 0x35, 0x85, 0xe2, 0xf9, 0x37, 0xe8, 0x1c, 0x75, 0xdf, 0x6e] ++
  [0x47, 0xf1, 0x1a, 0x71, 0x1d, 0x29, 0xc5, 0x89, 0x6f, 0xb7, 0x62, 0x0e, 0xaa, 0x18, 0xbe, 0x1b] ++
  [0xfc, 0x56, 0x3e, 0x4b, 0xc6, 0xd2, 0x79, 0x20, 0x9a, 0xdb, 0xc0, 0xfe, 0x78, 0xcd, 0x5a, 0xf4] ++
  [0x1f, 0xdd, 0xa8, 0x33, 0x88, 0x07, 0xc7, 0x31, 0xb1, 0x12, 0x10, 0x59, 0x27, 0x80, 0xec, 0x5f] ++
  [0x60, 0x51, 0x7f, 0xa9, 0x19, 0xb5, 0x4a, 0x0d, 0x2d, 0xe5, 0x7a, 0x9f, 0x93, 0xc9, 0x9c, 0xef] ++
  [0xa0, 0xe0, 0x3b, 0x4d, 0xae, 0x2a, 0xf5, 0xb0, 0xc8, 0xeb, 0xbb, 0x3c, 0x83, 0x53, 0x99, 0x61] ++
  [0x17, 0x2b, 0x04, 0x7e, 0xba, 0x77, 0xd6, 0x26, 0xe1, 0x69, 0x14, 0x63, 0x55, 0x21, 0x0c, 0x7d]

/-- `SBOX[a]` (R127). -/
def sbox (a : Byte) : Byte := sboxTable.getD a.toNat 0#8

/-- `INVSBOX[a]` (R128). -/
def invSbox (a : Byte) : Byte := invSboxTable.getD a.toNat 0#8

/-- `RCON[j]`, `1 ≤ j ≤ 10` (R130). -/
def rcon (j : Nat) : Byte := xtimes (j - 1) 0x01#8

/-- Bytewise XOR of two byte strings, as long as the shorter. -/
def xorBytes (a b : List Byte) : List Byte := List.zipWith (· ^^^ ·) a b

/-- A byte string cut into `n` pieces of `k` bytes. -/
def pieces (k : Nat) : Nat → List Byte → List (List Byte)
  | 0, _ => []
  | n + 1, b => b.take k :: pieces k n (b.drop k)

/-- `RotWord` (R131). -/
def rotWord : List Byte → List Byte
  | t0 :: rest => rest ++ [t0]
  | [] => []

/-- The XOR of `RCON[j]` into the first byte of a word (R131). -/
def addRcon (j : Nat) : List Byte → List Byte
  | t0 :: rest => (t0 ^^^ rcon j) :: rest
  | [] => []

/-- The word `t` that is XORed into `w[i-4]` to give `w[i]` (R131), from `w[i-1]`. -/
def keyTemp (i : Nat) (prev : List Byte) : List Byte :=
  if i % 4 = 0 then addRcon (i / 4) ((rotWord prev).map sbox) else prev

/-- The 44 words `w[0..43]` (R131). -/
def keyWords (key : List Byte) : List (List Byte) :=
  (List.range' 4 40).foldl
    (fun w i => w ++ [xorBytes (w.getD (i - 4) []) (keyTemp i (w.getD (i - 1) []))])
    (pieces 4 4 key)

/-- `KeyExpansion(K)` (R131): the round keys `RK[0..10]`. -/
def keyExpansion (key : List Byte) : List (List Byte) :=
  pieces 16 11 (keyWords key).flatten

/-- `SubBytes` (R133). -/
def subBytes (s : List Byte) : List Byte := s.map sbox

/-- `InvSubBytes` (R138). -/
def invSubBytes (s : List Byte) : List Byte := s.map invSbox

/-- `ShiftRows` (R134): `S'[r + 4c] = S[r + 4((c + r) mod 4)]`. -/
def shiftRows (s : List Byte) : List Byte :=
  (List.range 16).map fun k => s.getD (k % 4 + 4 * ((k / 4 + k % 4) % 4)) 0#8

/-- `InvShiftRows` (R139): `S'[r + 4c] = S[r + 4((c - r) mod 4)]`. -/
def invShiftRows (s : List Byte) : List Byte :=
  (List.range 16).map fun k => s.getD (k % 4 + 4 * ((k / 4 + 4 - k % 4) % 4)) 0#8

/-- `02(.)a` (R135). -/
def mul2 (a : Byte) : Byte := xtime a

/-- `03(.)a` (R135). -/
def mul3 (a : Byte) : Byte := xtime a ^^^ a

/-- `MixColumns` (R135), column after column. -/
def mixColumns : List Byte → List Byte
  | a0 :: a1 :: a2 :: a3 :: rest =>
    (mul2 a0 ^^^ mul3 a1 ^^^ a2 ^^^ a3) ::
    (a0 ^^^ mul2 a1 ^^^ mul3 a2 ^^^ a3) ::
    (a0 ^^^ a1 ^^^ mul2 a2 ^^^ mul3 a3) ::
    (mul3 a0 ^^^ a1 ^^^ a2 ^^^ mul2 a3) :: mixColumns rest
  | _ => []

/-- `InvMixColumns` (R140), column after column. -/
def invMixColumns : List Byte → List Byte
  | a0 :: a1 :: a2 :: a3 :: rest =>
    (gmul 0x0e a0 ^^^ gmul 0x0b a1 ^^^ gmul 0x0d a2 ^^^ gmul 0x09 a3) ::
    (gmul 0x09 a0 ^^^ gmul 0x0e a1 ^^^ gmul 0x0b a2 ^^^ gmul 0x0d a3) ::
    (gmul 0x0d a0 ^^^ gmul 0x09 a1 ^^^ gmul 0x0e a2 ^^^ gmul 0x0b a3) ::
    (gmul 0x0b a0 ^^^ gmul 0x0d a1 ^^^ gmul 0x09 a2 ^^^ gmul 0x0e a3) :: invMixColumns rest
  | _ => []

/-- `AddRoundKey(S, RK[r])` (R136). -/
def addRoundKey (rk : List (List Byte)) (r : Nat) (s : List Byte) : List Byte :=
  xorBytes s (rk.getD r [])

/-- Rounds 1 to 9 of `Cipher` (R137), one of them. -/
def cipherRound (rk : List (List Byte)) (s : List Byte) (r : Nat) : List Byte :=
  addRoundKey rk r (mixColumns (shiftRows (subBytes s)))

/-- `Cipher(RK, B)` (R137). -/
def cipher (rk : List (List Byte)) (b : List Byte) : List Byte :=
  let s := (List.range' 1 9).foldl (cipherRound rk) (addRoundKey rk 0 b)
  addRoundKey rk 10 (shiftRows (subBytes s))

/-- Rounds 9 down to 1 of `InvCipher` (R142), one of them. -/
def invCipherRound (rk : List (List Byte)) (s : List Byte) (r : Nat) : List Byte :=
  invMixColumns (addRoundKey rk r (invSubBytes (invShiftRows s)))

/-- `InvCipher(RK, B)` (R142). -/
def invCipher (rk : List (List Byte)) (b : List Byte) : List Byte :=
  let s := (List.range' 1 9).reverse.foldl (invCipherRound rk) (addRoundKey rk 10 b)
  addRoundKey rk 0 (invSubBytes (invShiftRows s))

end Sys2Proof.Machine
end

