-- ==== Sys2Proof/Machine/Sha256.lean ====
section
/-! DEFINITION. SHA-256 (R105 to R113) and the key derivation (R118). -/

namespace Sys2Proof.Machine

/-- Padding (R106): `M || 0x80 || Z || LEN8`, with `z = (55 - L) mod 64` zero bytes and the bit
length as 8 bytes, most significant first. -/
def shaPadding (len : Nat) : List Byte :=
  0x80#8 :: List.replicate ((55 + 64 - len % 64) % 64) 0#8 ++
    (List.range 8).map fun k => BitVec.ofNat 8 (8 * len / 2 ^ (8 * (7 - k)))

/-- `Padded(M)` (R106). -/
def shaPadded (m : List Byte) : List Byte := m ++ shaPadding m.length

/-- Bytes grouped into big-endian words (R107). -/
def shaWords : List Byte → List Word
  | b0 :: b1 :: b2 :: b3 :: rest =>
    BitVec.ofNat 32 (b0.toNat * 2 ^ 24 + b1.toNat * 2 ^ 16 + b2.toNat * 2 ^ 8 + b3.toNat) ::
      shaWords rest
  | _ => []

/-- `rotr_32` (R108). -/
def rotr32 (x : Word) (n : Nat) : Word := (x >>> n) ||| (x <<< (32 - n))

/-- `Ch` (R108). -/
def shaCh (x y z : Word) : Word := (x &&& y) ^^^ (~~~x &&& z)

/-- `Maj` (R108). -/
def shaMaj (x y z : Word) : Word := (x &&& y) ^^^ (x &&& z) ^^^ (y &&& z)

/-- `BSIG0` (R108). -/
def bsig0 (x : Word) : Word := rotr32 x 2 ^^^ rotr32 x 13 ^^^ rotr32 x 22

/-- `BSIG1` (R108). -/
def bsig1 (x : Word) : Word := rotr32 x 6 ^^^ rotr32 x 11 ^^^ rotr32 x 25

/-- `SSIG0` (R108). -/
def ssig0 (x : Word) : Word := rotr32 x 7 ^^^ rotr32 x 18 ^^^ (x >>> 3)

/-- `SSIG1` (R108). -/
def ssig1 (x : Word) : Word := rotr32 x 17 ^^^ rotr32 x 19 ^^^ (x >>> 10)

/-- The round constants `K_0 .. K_63` (R109). -/
def shaK : List Word :=
  [0x428a2f98#32, 0x71374491#32, 0xb5c0fbcf#32, 0xe9b5dba5#32, 0x3956c25b#32, 0x59f111f1#32, 0x923f82a4#32, 0xab1c5ed5#32] ++
  [0xd807aa98#32, 0x12835b01#32, 0x243185be#32, 0x550c7dc3#32, 0x72be5d74#32, 0x80deb1fe#32, 0x9bdc06a7#32, 0xc19bf174#32] ++
  [0xe49b69c1#32, 0xefbe4786#32, 0x0fc19dc6#32, 0x240ca1cc#32, 0x2de92c6f#32, 0x4a7484aa#32, 0x5cb0a9dc#32, 0x76f988da#32] ++
  [0x983e5152#32, 0xa831c66d#32, 0xb00327c8#32, 0xbf597fc7#32, 0xc6e00bf3#32, 0xd5a79147#32, 0x06ca6351#32, 0x14292967#32] ++
  [0x27b70a85#32, 0x2e1b2138#32, 0x4d2c6dfc#32, 0x53380d13#32, 0x650a7354#32, 0x766a0abb#32, 0x81c2c92e#32, 0x92722c85#32] ++
  [0xa2bfe8a1#32, 0xa81a664b#32, 0xc24b8b70#32, 0xc76c51a3#32, 0xd192e819#32, 0xd6990624#32, 0xf40e3585#32, 0x106aa070#32] ++
  [0x19a4c116#32, 0x1e376c08#32, 0x2748774c#32, 0x34b0bcb5#32, 0x391c0cb3#32, 0x4ed8aa4a#32, 0x5b9cca4f#32, 0x682e6ff3#32] ++
  [0x748f82ee#32, 0x78a5636f#32, 0x84c87814#32, 0x8cc70208#32, 0x90befffa#32, 0xa4506ceb#32, 0xbef9a3f7#32, 0xc67178f2#32]

/-- A hash value `H[0..7]`, and the eight working variables of the compression (R110, R112). -/
structure HashValue where
  a : Word
  b : Word
  c : Word
  d : Word
  e : Word
  f : Word
  g : Word
  h : Word
deriving DecidableEq, Repr

/-- The initial hash value `H0` (R110). -/
def shaInit : HashValue :=
  ⟨0x6a09e667#32, 0xbb67ae85#32, 0x3c6ef372#32, 0xa54ff53a#32,
    0x510e527f#32, 0x9b05688c#32, 0x1f83d9ab#32, 0x5be0cd19#32⟩

/-- The next schedule word `W_t` from the words `W_0 .. W_{t-1}` (R111). -/
def shaScheduleWord (w : List Word) (t : Nat) : Word :=
  ssig1 (w.getD (t - 2) 0) + w.getD (t - 7) 0 + ssig0 (w.getD (t - 15) 0) + w.getD (t - 16) 0

/-- The message schedule of one block of sixteen words (R111). -/
def shaSchedule (m : List Word) : List Word :=
  (List.range' 16 48).foldl (fun w t => w ++ [shaScheduleWord w t]) m

/-- One iteration of the compression loop (R112), with `K_t` and `W_t`. -/
def shaRound (v : HashValue) (k w : Word) : HashValue :=
  let t1 := v.h + bsig1 v.e + shaCh v.e v.f v.g + k + w
  let t2 := bsig0 v.a + shaMaj v.a v.b v.c
  ⟨t1 + t2, v.a, v.b, v.c, v.d + t1, v.e, v.f, v.g⟩

/-- Compression of one block of sixteen words into the hash value (R112). -/
def shaCompress (hv : HashValue) (m : List Word) : HashValue :=
  let v := (shaK.zip (shaSchedule m)).foldl (fun v kw => shaRound v kw.1 kw.2) hv
  ⟨hv.a + v.a, hv.b + v.b, hv.c + v.c, hv.d + v.d, hv.e + v.e, hv.f + v.f, hv.g + v.g, hv.h + v.h⟩

/-- The `nb` blocks folded one after another into the hash value (R113). -/
def shaFold : Nat → HashValue → List Word → HashValue
  | 0, hv, _ => hv
  | nb + 1, hv, ws => shaFold nb (shaCompress hv (ws.take 16)) (ws.drop 16)

/-- `be32` (R113): the four bytes of a word, most significant first. -/
def be32 (x : Word) : List Byte :=
  [x.extractLsb' 24 8, x.extractLsb' 16 8, x.extractLsb' 8 8, x.extractLsb' 0 8]

/-- A hash value written out big-endian (R113). -/
def HashValue.bytes (hv : HashValue) : List Byte :=
  be32 hv.a ++ be32 hv.b ++ be32 hv.c ++ be32 hv.d ++
    be32 hv.e ++ be32 hv.f ++ be32 hv.g ++ be32 hv.h

/-- `SHA256(M)` (R105, R113). -/
def sha256 (m : List Byte) : List Byte :=
  (shaFold ((shaPadded m).length / 64) shaInit (shaWords (shaPadded m))).bytes

/-- `DeriveKey(P)` (R118): the first 16 bytes of the digest. -/
def deriveKey (p : List Byte) : List Byte := (sha256 p).take 16

end Sys2Proof.Machine
end

