-- ==== Sys2Proof/Machine/Envelope.lean ====
section
/-! DEFINITION. The cipher envelope: PKCS#7 (R151, R152), CBC (R155, R156), the UTF-8 check (R158,
R159), and encryption and decryption of byte strings (R150, R162, R166). -/

namespace Sys2Proof.Machine

/-- `Pad(M)` (R151). -/
def pad (m : List Byte) : List Byte :=
  m ++ List.replicate (16 - m.length % 16) (BitVec.ofNat 8 (16 - m.length % 16))

/-- `Unpad(P)` (R152): the last byte `v` must be in 1 to 16 and the last `v` bytes all `v`. -/
def unpad (p : List Byte) : Except CmdErr (List Byte) :=
  let v := p.getLastD 0#8
  if v.toNat < 1 ∨ v.toNat > 16 then .error ⟨.invalidPadding, 1, 0⟩
  else if (p.drop (p.length - v.toNat)).any (· != v) then .error ⟨.invalidPadding, 2, 0⟩
  else .ok (p.take (p.length - v.toNat))

/-- `CbcEnc` (R155) over `n` blocks, `prev` the previous ciphertext block or the IV. -/
def cbcEncBlocks (rk : List (List Byte)) : Nat → List Byte → List Byte → List Byte
  | 0, _, _ => []
  | n + 1, prev, p =>
    let c := cipher rk (xorBytes (p.take 16) prev)
    c ++ cbcEncBlocks rk n c (p.drop 16)

/-- `CbcEnc(RK, IV, P)` (R155). -/
def cbcEnc (rk : List (List Byte)) (iv p : List Byte) : List Byte :=
  cbcEncBlocks rk (p.length / 16) iv p

/-- `CbcDec` (R156) over `n` blocks, `prev` the previous ciphertext block or the IV. -/
def cbcDecBlocks (rk : List (List Byte)) : Nat → List Byte → List Byte → List Byte
  | 0, _, _ => []
  | n + 1, prev, c =>
    xorBytes (invCipher rk (c.take 16)) prev ++ cbcDecBlocks rk n (c.take 16) (c.drop 16)

/-- `CbcDec(RK, IV, C)` (R156). -/
def cbcDec (rk : List (List Byte)) (iv c : List Byte) : List Byte :=
  cbcDecBlocks rk (c.length / 16) iv c

/-- A byte in an inclusive range. -/
def inRange (lo hi b : Byte) : Bool := decide (lo.toNat ≤ b.toNat ∧ b.toNat ≤ hi.toNat)

/-- A row of the table of R158: the range of the first byte, then those of the bytes after it. -/
def utf8Table : List (List (Byte × Byte)) :=
  [[(0x00, 0x7f)],
   [(0xc2, 0xdf), (0x80, 0xbf)],
   [(0xe0, 0xe0), (0xa0, 0xbf), (0x80, 0xbf)],
   [(0xe1, 0xec), (0x80, 0xbf), (0x80, 0xbf)],
   [(0xed, 0xed), (0x80, 0x9f), (0x80, 0xbf)],
   [(0xee, 0xef), (0x80, 0xbf), (0x80, 0xbf)],
   [(0xf0, 0xf0), (0x90, 0xbf), (0x80, 0xbf), (0x80, 0xbf)],
   [(0xf1, 0xf3), (0x80, 0xbf), (0x80, 0xbf), (0x80, 0xbf)],
   [(0xf4, 0xf4), (0x80, 0x8f), (0x80, 0xbf), (0x80, 0xbf)]]

/-- Whether a row matches the bytes a string starts with, all of them inside the string. -/
def rowMatches : List (Byte × Byte) → List Byte → Bool
  | [], _ => true
  | (lo, hi) :: row, b :: bs => inRange lo hi b && rowMatches row bs
  | _ :: _, [] => false

/-- The length of the row that matches at the start of `m`, if one does (R159). -/
def utf8RowLength (m : List Byte) : Option Nat :=
  (utf8Table.find? (rowMatches · m)).map List.length

/-- The scan of R159 at offset `i`, with `skip` bytes left of the row that matched last. -/
def utf8Scan : Nat → Nat → List Byte → Option Nat
  | _, _, [] => none
  | skip + 1, i, _ :: m => utf8Scan skip (i + 1) m
  | 0, i, b :: m =>
    match utf8RowLength (b :: m) with
    | some k => utf8Scan (k - 1) (i + 1) m
    | none => some i

/-- `Utf8FirstBad(M)` (R159): the offset of the first ill-formed sequence, `none` for well-formed
UTF-8. -/
def utf8FirstBad (m : List Byte) : Option Nat := utf8Scan 0 0 m

/-- The envelope's length for a plaintext of `n` bytes (R162, R171). -/
def envelopeSize (n : Nat) : Nat := 16 * (n / 16 + 2)

/-- The envelope (R150) that `ENC` computes (R162), from `key <- DeriveKey` on: `ok = 0` of the draw
is `EncryptionError` (R164). -/
def encryptBytes (d : Draw) (pw m : List Byte) : Except CmdErr (List Byte) :=
  if d.ok then
    .ok (d.iv.toList ++ cbcEnc (keyExpansion (deriveKey pw)) d.iv.toList (pad m))
  else .error ⟨.encryptionError, 1, 0⟩

/-- `DecryptBytes(E, Pw)` (R166). -/
def decryptBytes (e pw : List Byte) : Except CmdErr (List Byte) :=
  if e.length < 16 then .error ⟨.malformedEnvelope, 1, e.length⟩
  else if (e.drop 16).length = 0 ∨ (e.drop 16).length % 16 ≠ 0 then
    .error ⟨.malformedEnvelope, 2, e.length⟩
  else
    match unpad (cbcDec (keyExpansion (deriveKey pw)) (e.take 16) (e.drop 16)) with
    | .error err => .error err
    | .ok m =>
      match utf8FirstBad m with
      | some b => .error ⟨.invalidEncoding, b, m.length⟩
      | none => .ok m

end Sys2Proof.Machine
end

