-- ==== Sys2Proof/Machine/CipherUnit.lean ====
section
/-! DEFINITION. The commands of the cipher unit: `KDF` (R119), `ENC` (R162), `DEC` (R166). -/

namespace Sys2Proof.Machine

/-- The pseudocode of `KDF` (R119). -/
def kdfResult (s : State) : CmdResult := do
  s.checkPassword
  pure (bytesOut (deriveKey s.password))

/-- `KDF` (R119): derive the key and deliver it. -/
def execKdf (s : State) : Host.Outcome State Fault Refusal :=
  .next (s.complete (kdfResult s))

/-- The operand checks of `ENC` (R162): ids 1, 2 and 5, all before the draw. -/
def encChecks (s : State) : Except CmdErr Unit := do
  s.checkPassword
  s.checkData
  s.checkOutput (envelopeSize s.opnd.dlen.toNat)

/-- What `ENC` does with the answer of its draw (R162). -/
def encResult (d : Draw) (s : State) : CmdResult := do
  let e ← encryptBytes d s.password s.data
  pure (bytesOut e)

/-- `ENC` (R162): one draw, made only after the operand checks pass (R163 (e)). -/
def execEnc (s : State) : Host.Outcome State Fault Refusal :=
  match encChecks s with
  | .error e => .next (s.raise e)
  | .ok _ => .next (s.afterDraw.complete (encResult s.nextDraw s))

/-- The pseudocode of `DEC` (R166). -/
def decResult (s : State) : CmdResult := do
  s.checkPassword
  s.checkData
  let m ← decryptBytes s.data s.password
  pure (bytesOut m)

/-- `DEC` (R166). -/
def execDec (s : State) : Host.Outcome State Fault Refusal :=
  .next (s.complete (decResult s))

end Sys2Proof.Machine
end

