-- ==== Sys2Proof/Machine/Quantizer.lean ====
section
/-! DEFINITION. The sample quantizer: the float formats (R176, R177), the two roundings (R178, R179),
quantization (R180 to R183) and dequantization (R185). Values are exact: a sign and a natural number
scaled by a power of two. -/

namespace Sys2Proof.Machine

/-- The precision `p` (R176). -/
def precision : Flen → Nat
  | .f32 => 24
  | .f64 => 53

/-- The exponent field's width `w` (R176). -/
def expWidth : Flen → Nat
  | .f32 => 8
  | .f64 => 11

/-- The bias `B` (R176). -/
def expBias : Flen → Nat
  | .f32 => 127
  | .f64 => 1023

/-- A number of the format: an infinity, or `(-1)^neg * m * 2^k` (R177, R178). -/
inductive FloatVal where
  | inf (neg : Bool)
  | fin (neg : Bool) (m : Nat) (k : Int)
deriving DecidableEq, Repr

/-- The value of a pattern (R177); `none` for a NaN, quiet or signalling alike. -/
def floatOf (f : Flen) (a : Sample) : Option FloatVal :=
  let neg := a.getLsbD (f.bits - 1)
  let e := a.toNat / 2 ^ (precision f - 1) % 2 ^ expWidth f
  let fr := a.toNat % 2 ^ (precision f - 1)
  if e = 2 ^ expWidth f - 1 then if fr = 0 then some (.inf neg) else none
  else if e = 0 then some (.fin neg fr (1 - expBias f - (precision f - 1)))
  else some (.fin neg (2 ^ (precision f - 1) + fr) (e - expBias f - (precision f - 1)))

/-- `RoundInt(n / d)` (R179): to nearest, ties to even; `d > 0`. -/
def roundInt (n : Int) (d : Nat) : Int :=
  let q := n / (d : Int)
  let r := n % (d : Int)
  if 2 * r < d then q else if 2 * r > d then q + 1 else if q % 2 = 0 then q else q + 1

/-- `floor(log2(n / d))` for positive `n` and `d`. -/
def floorLog2 (n d : Nat) : Int :=
  let k : Int := (n.log2 : Int) - (d.log2 : Int)
  if d * 2 ^ k.toNat ≤ n * 2 ^ (-k).toNat then k else k - 1

/-- `RoundF(x)` (R178) for `x = (-1)^neg * num / den`, `den > 0`: to nearest in the format, ties to
the even significand; too large is an infinity. -/
def roundFloat (f : Flen) (neg : Bool) (num den : Nat) : FloatVal :=
  if num = 0 then .fin neg 0 0
  else
    let ex := max (floorLog2 num den) (1 - expBias f)
    let sh : Int := ex - (precision f - 1)
    let m := (roundInt (num * 2 ^ (-sh).toNat : Nat) (den * 2 ^ sh.toNat)).toNat
    let carry := m = 2 ^ precision f
    let m' := if carry then 2 ^ (precision f - 1) else m
    let ex' := if carry then ex + 1 else ex
    if ex' > expBias f then .inf neg else .fin neg m' (ex' - (precision f - 1))

/-- The bits of a number `RoundF` gives (R176, R177): normal when `m ≥ 2^(p-1)`, else subnormal or
zero. -/
def patternNat (f : Flen) (v : FloatVal) : Nat :=
  let signBit (neg : Bool) : Nat := if neg then 2 ^ (f.bits - 1) else 0
  match v with
  | .inf neg => signBit neg + (2 ^ expWidth f - 1) * 2 ^ (precision f - 1)
  | .fin neg m k =>
    if m < 2 ^ (precision f - 1) then signBit neg + m
    else
      signBit neg + (k + expBias f + (precision f - 1)).toNat * 2 ^ (precision f - 1)
        + (m - 2 ^ (precision f - 1))

/-- The pattern of a number `RoundF` gives, an element of `FLEN` bits (R67, R176). -/
def patternOf (f : Flen) (v : FloatVal) : Sample := BitVec.ofNat 64 (patternNat f v % 2 ^ f.bits)

/-- The product of a finite sample and 32767 in the sample's own format (R180). -/
def prodFloat (f : Flen) (neg : Bool) (m : Nat) (k : Int) : FloatVal :=
  roundFloat f neg (m * 32767 * 2 ^ k.toNat) (2 ^ (-k).toNat)

/-- `RoundInt` of a finite number (R179). -/
def roundFinite (neg : Bool) (m : Nat) (k : Int) : Int :=
  roundInt ((if neg then -1 else 1) * ((m * 2 ^ k.toNat : Nat) : Int)) (2 ^ (-k).toNat)

/-- Why one sample fails to quantize (R181, R182). -/
inductive QuantFail where
  /-- a NaN or an infinity -/
  | nonfinite
  /-- a finite value outside the int16 range -/
  | range
deriving DecidableEq, Repr

/-- The second context word of `SampleOverflow` (R252). -/
def QuantFail.info : QuantFail → Nat
  | .nonfinite => 1
  | .range => 0

/-- `Quant1(a)` (R181). -/
def quant1 (f : Flen) (a : Sample) : Except QuantFail Int :=
  match floatOf f a with
  | none => .error .nonfinite
  | some (.inf _) => .error .nonfinite
  | some (.fin neg m k) =>
    match prodFloat f neg m k with
    | .inf _ => .error .range
    | .fin neg' m' k' =>
      let r := roundFinite neg' m' k'
      if r < -32768 ∨ r > 32767 then .error .range else .ok r

/-- `Quant` of the samples from flat index `i` on (R183): the lowest failing index is reported. -/
def quantFrom (f : Flen) : Nat → List Sample → Except CmdErr (List Int)
  | _, [] => .ok []
  | i, a :: as =>
    match quant1 f a with
    | .error e => .error ⟨.sampleOverflow, i, e.info⟩
    | .ok q =>
      match quantFrom f (i + 1) as with
      | .error e => .error e
      | .ok qs => .ok (q :: qs)

/-- `Quant(S)` (R183). -/
def quant (f : Flen) (s : List Sample) : Except CmdErr (List Int) := quantFrom f 0 s

/-- `u16(q)` (R15). -/
def u16 (q : Int) : BitVec 16 := BitVec.ofInt 16 q

/-- `Dequant1(q)` (R185): the pattern of the correctly rounded `q / 32767`, `+0` for 0. -/
def dequant1 (f : Flen) (q : Int) : Sample :=
  patternOf f (roundFloat f (decide (q < 0)) q.natAbs 32767)

end Sys2Proof.Machine
end

