-- ==== Sys2Proof/Machine/Lsb.lean ====
section
/-! DEFINITION. The bit serializer and deserializer (R196, R197, R199), the LSB of a quantized sample
(R200, R201), the delimiter scan (R215 to R217) and the embedded blob (R222). -/

namespace Sys2Proof.Machine

/-- `BitOf(B, i)` (R196): most significant bit of each byte first. -/
def bitOf (b : List Byte) (i : Nat) : Bool := (b.getD (i / 8) 0#8).getLsbD (7 - i % 8)

/-- Bits `0 .. n-1` of the bitstream of a byte string (R196). -/
def bitsOf (b : List Byte) (n : Nat) : List Bool := (List.range n).map (bitOf b)

/-- A byte from its eight bits, most significant first (R199). -/
def byteOfBits (b0 b1 b2 b3 b4 b5 b6 b7 : Bool) : Byte :=
  BitVec.ofNat 8 (b0.toNat * 128 + b1.toNat * 64 + b2.toNat * 32 + b3.toNat * 16 + b4.toNat * 8 +
    b5.toNat * 4 + b6.toNat * 2 + b7.toNat)

/-- `BytesOf(b)` (R199): the whole groups of eight bits; a shorter trailing group is dropped. -/
def bytesOf : List Bool → List Byte
  | b0 :: b1 :: b2 :: b3 :: b4 :: b5 :: b6 :: b7 :: rest =>
    byteOfBits b0 b1 b2 b3 b4 b5 b6 b7 :: bytesOf rest
  | _ => []

/-- `PackBits(b)` (R197): `ceil(n / 8)` bytes, the last filled up with zero bits. -/
def packBits (b : List Bool) : List Byte :=
  bytesOf (b ++ List.replicate ((8 - b.length % 8) % 8) false)

/-- `SetLsb(q, b)` (R200), on the 16-bit two's complement pattern. -/
def setLsb (q : Int) (b : Bool) : Int :=
  ((u16 q &&& 0xfffe#16) ||| (BitVec.ofBool b).setWidth 16).toInt

/-- `GetLsb(q)` (R201). -/
def getLsb (q : Int) : Bool := (u16 q).getLsbD 0

/-- Bit `i` set into the LSB of sample `i`, for every bit there is (R203). -/
def embedBits : List Int → List Bool → List Int
  | q :: qs, b :: bs => setLsb q b :: embedBits qs bs
  | qs, [] => qs
  | [], _ :: _ => []

/-- The delimiter, 23 bytes (R12, R215). -/
def delimiter : List Byte :=
  [0x3c, 0x45, 0x4e, 0x44, 0x5f, 0x4f, 0x46, 0x5f, 0x53, 0x45, 0x43, 0x52,
   0x45, 0x54, 0x5f, 0x4d, 0x45, 0x53, 0x53, 0x41, 0x47, 0x45, 0x3e]

/-- Whether the tail of `buf` is the delimiter (R216, R217). -/
def endsInDelimiter (buf : List Byte) : Bool :=
  decide (buf.length ≥ 23) && buf.drop (buf.length - 23) == delimiter

/-- The scan over the bytes still to come, `buf` the bytes accumulated (R216, R217). -/
def scanDelimiter : List Byte → List Byte → Option (List Byte)
  | _, [] => none
  | buf, v :: vs =>
    if endsInDelimiter (buf ++ [v]) then some ((buf ++ [v]).take ((buf ++ [v]).length - 23))
    else scanDelimiter (buf ++ [v]) vs

/-- `Xtd(Q)` (R217). -/
def xtd (q : List Int) : Except CmdErr (List Byte) :=
  match scanDelimiter [] (bytesOf (q.map getLsb)) with
  | some y => .ok y
  | none => .error ⟨.delimiterNotFound, q.length / 8, q.length⟩

/-- `Blob(E)` (R222). -/
def blob (e : List Byte) : List Byte := e ++ delimiter

/-- The capacity test of `embed` (R203, R247): required bits against available samples, by direct
comparison. -/
def checkCapacity (required available : Nat) : Except CmdErr Unit :=
  if required > available then .error ⟨.insufficientCapacity, required, available⟩ else .ok ()

/-- Outputs of a command that delivers samples in `SOUT` with their count in `ONS` (R45). -/
def samplesOut (f : Flen) (q : List Int) : Outputs :=
  { Outputs.zero with
    ons := BitVec.ofNat 32 q.length
    sout := Memory.writeRun Memory.cleared 0 (q.map (dequant1 f)) }

end Sys2Proof.Machine
end

