-- ==== Sys2Proof/Machine/LsbUnit.lean ====
section
/-! DEFINITION. The commands of the LSB unit: `QNT` (R188), `EMB` (R203), `EXT` (R208), `XTD`
(R219). -/

namespace Sys2Proof.Machine

/-- The quantized samples of the current operands: the range check of id 3, then all `N` samples
quantized and guarded before anything else is done with them (R183). -/
def State.quantized (s : State) : Except CmdErr (List Int) := do
  s.checkSamples
  quant s.env.par.flen s.samples

/-- The pseudocode of `QNT` (R188). -/
def qntResult (s : State) : CmdResult := do
  let q ← s.quantized
  pure { Outputs.zero with
    ons := BitVec.ofNat 32 q.length
    qout := Memory.writeRun Memory.cleared 0 (q.map u16) }

/-- `QNT` (R188). -/
def execQnt (s : State) : Host.Outcome State Fault Refusal :=
  .next (s.complete (qntResult s))

/-- The pseudocode of `EMB` (R203). -/
def embResult (s : State) : CmdResult := do
  let q ← s.quantized
  checkCapacity s.opnd.nbits.toNat q.length
  pure (samplesOut s.env.par.flen (embedBits q (bitsOf s.bitBytes s.opnd.nbits.toNat)))

/-- `EMB` (R203). -/
def execEmb (s : State) : Host.Outcome State Fault Refusal :=
  .next (s.complete (embResult s))

/-- How many bits `EXT` reads (R208): all `N`, or up to `MAXBITS` when `MB = 1`. -/
def extCount (mb : Bool) (s : State) (n : Nat) : Nat :=
  if mb then min s.opnd.maxbits.toNat n else n

/-- The pseudocode of `EXT` (R208). -/
def extResult (mb : Bool) (s : State) : CmdResult := do
  let q ← s.quantized
  let b := (q.take (extCount mb s q.length)).map getLsb
  pure { bytesOut (packBits b) with obits := BitVec.ofNat 32 b.length }

/-- `EXT` (R208). -/
def execExt (mb : Bool) (s : State) : Host.Outcome State Fault Refusal :=
  .next (s.complete (extResult mb s))

/-- The pseudocode of `XTD` (R219). -/
def xtdResult (s : State) : CmdResult := do
  let q ← s.quantized
  let y ← xtd q
  pure (bytesOut y)

/-- `XTD` (R219). -/
def execXtd (s : State) : Host.Outcome State Fault Refusal :=
  .next (s.complete (xtdResult s))

end Sys2Proof.Machine
end

