-- ==== Sys2Proof/Machine/Composite.lean ====
section
/-! DEFINITION. The composite flows `HIDE` (R223) and `REVEAL` (R225). -/

namespace Sys2Proof.Machine

/-- The blob's length for a plaintext of `n` bytes (R222, R223). -/
def blobSize (n : Nat) : Nat := envelopeSize n + 23

/-- The operand checks of `HIDE` (R223): ids 1, 2, 3 and 5, all before the draw. -/
def hideChecks (s : State) : Except CmdErr Unit := do
  s.checkPassword
  s.checkData
  s.checkSamples
  s.checkOutput (blobSize s.opnd.dlen.toNat)

/-- What `HIDE` does with the answer of its draw (R223): encrypt, append the delimiter, then the
steps of `embed` in their order. -/
def hideResult (d : Draw) (s : State) : CmdResult := do
  let e ← encryptBytes d s.password s.data
  let t := blob e
  let q ← quant s.env.par.flen s.samples
  checkCapacity (8 * t.length) q.length
  pure { samplesOut s.env.par.flen (embedBits q (bitsOf t (8 * t.length))) with
    olen := BitVec.ofNat 32 t.length
    dout := Memory.writeRun Memory.cleared 0 t }

/-- `HIDE` (R223): the draw is made even if the command then fails for capacity or sample range
(R224 (a)). -/
def execHide (s : State) : Host.Outcome State Fault Refusal :=
  match hideChecks s with
  | .error e => .next (s.raise e)
  | .ok _ => .next (s.afterDraw.complete (hideResult s.nextDraw s))

/-- The pseudocode of `REVEAL` (R225). -/
def revealResult (s : State) : CmdResult := do
  s.checkPassword
  let q ← s.quantized
  let y ← xtd q
  let m ← decryptBytes y s.password
  pure (bytesOut m)

/-- `REVEAL` (R225). -/
def execReveal (s : State) : Host.Outcome State Fault Refusal :=
  .next (s.complete (revealResult s))

end Sys2Proof.Machine
end

