-- ==== Sys2Proof/Machine/Dispatch.lean ====
section
/-! DEFINITION. Every command and its meaning: what its completion step does (R98). -/

namespace Sys2Proof.Machine

/- The completion step of the command `i`, in the state its issue left. -/
def exec (i : Instr) (s : State) : Host.Outcome State Fault Refusal :=
  match i with
  | .kdf => Sys2Proof.Machine.execKdf s
  | .enc => Sys2Proof.Machine.execEnc s
  | .dec => Sys2Proof.Machine.execDec s
  | .qnt => Sys2Proof.Machine.execQnt s
  | .emb => Sys2Proof.Machine.execEmb s
  | .ext mb => Sys2Proof.Machine.execExt mb s
  | .xtd => Sys2Proof.Machine.execXtd s
  | .hide => Sys2Proof.Machine.execHide s
  | .reveal => Sys2Proof.Machine.execReveal s
  | .cap => Sys2Proof.Machine.execCap s
  | .rqb => Sys2Proof.Machine.execRqb s

end Sys2Proof.Machine
end

