-- ==== Sys2Proof/Machine/Turn.lean ====
section
/-! DEFINITION. One turn of the core, one input, and the state a command word is placed in. -/

namespace Sys2Proof.Machine

/-- A word that is no command completes with `IllegalCommand`, its first context word the word
(R90, R254). -/
def State.rejectCommand (s : State) : State := s.raise ⟨.illegalCommand, s.cmd.toNat, 0⟩

/-- The core's turn: a running command takes its completion step (R98); an idle core does nothing
(R281). -/
def State.coreTurn (s : State) : Host.Outcome State Fault Refusal :=
  if s.status.busy then
    match decode s.cmd with
    | .ok i => exec i s
    | .error _ => .next s.rejectCommand
  else .next s

/-- The state with the next input taken off the list. -/
def State.popInput (s : State) : State :=
  { s with env := { s.env with inputs := s.env.inputs.tail } }

/-- What one input does (R62, R280, R47, R98). -/
def State.takeInput (e : Input) (s : State) : Host.Outcome State Fault Refusal :=
  match e with
  | .hostRead sp i => .next (s.hostRead sp i)
  | .hostWrite sp i v => .next (s.hostWrite sp i v)
  | .hardReset => .next s.resetCore
  | .announce d => .next (s.announce d)
  | .coreTurn => s.coreTurn

/-- The body of a step: the next input, and the core's turn when nothing comes from outside (a
running command eventually takes its completion step, R291). -/
def State.advance (s : State) : Host.Outcome State Fault Refusal :=
  match s.env.inputs with
  | [] => s.coreTurn
  | e :: _ => s.popInput.takeInput e

/-- The state with the command word `w` issued (R96) and nothing from outside before the core's
turn. -/
def State.withCommand (s : State) (w : Word) : State :=
  { s.issue w with env := { (s.issue w).env with inputs := [] } }

end Sys2Proof.Machine
end

