-- ==== Sys2Proof/Machine/Step.lean ====
section
/-! DEFINITION. The step, and the placing of a command as the next one to run. -/

namespace Sys2Proof.Machine

/-- One step: one input from outside, or the core's turn. An instance whose parameters break a
constraint of R8 to R10 is refused (U5). -/
def step (s : State) : Host.Outcome State Fault Refusal :=
  if s.env.par.ok then s.advance else .refused .badParameters

/-- `s` with the command word of `nbits` bits stored where the core takes its next command from:
LPC fetches nothing (R36), its command is the word `CMD` holds once issued (R96). The next step is
that command's completion. -/
def State.withFetchWord (s : State) (nbits w : Nat) : State :=
  s.withCommand (commandWord nbits w)

end Sys2Proof.Machine
end

