-- ==== Sys2Proof/Safety.lean ====
section
/-! DEFINITION. What a good state is, and what a safe run is, in the terms the statements use. -/

namespace Sys2Proof.Machine

/-- Every element of a sample buffer is a pattern of `FLEN` bits (R67). -/
def SamplesFit (f : Flen) (m : Memory 64) : Prop := ∀ c ∈ m, c.2.toNat < 2 ^ f.bits

/-- The host-written buffers are canonical and inside their spaces (R61). -/
structure InputBufs.Good (p : Params) (b : InputBufs) : Prop where
  pw : Memory.wf b.pw ∧ Memory.within p.pwCap b.pw
  din : Memory.wf b.din ∧ Memory.within p.dCap b.din
  sin : Memory.wf b.sin ∧ Memory.within p.sCap b.sin
  fit : SamplesFit p.flen b.sin

/-- The core-written buffers are canonical, inside their spaces, and zero from the length registers
on (R43, R45, R46, R257). -/
structure Outputs.Good (p : Params) (o : Outputs) : Prop where
  dout : Memory.wf o.dout ∧ Memory.within o.olen.toNat o.dout
  sout : Memory.wf o.sout ∧ Memory.within o.ons.toNat o.sout
  qout : Memory.wf o.qout ∧ Memory.within o.ons.toNat o.qout
  fit : SamplesFit p.flen o.sout
  olen : o.olen.toNat ≤ p.dCap
  obits : o.obits.toNat ≤ p.sCap
  ons : o.ons.toNat ≤ p.sCap

/-- `STATUS` is one that some run can show (R22, R96, R98, R246). -/
structure Status.Good (st : Status) : Prop where
  exclusive : st.busy = true → st.done = false
  running : st.busy = true → st.err = false
  coded : st.err = false ↔ st.ecode = 0
  inTable : st.ecode.toNat ≤ 9

/-- The invariant of LPC: a valid instance (R8 to R10), good buffers and `STATUS`, outputs cleared
while a command runs and after an error but for the context words (R257), no context without an
error (R35), and no hidden state while idle (R50). -/
structure State.Good (s : State) : Prop where
  par : s.env.par.ok = true
  bufs : s.bufs.Good s.env.par
  out : s.out.Good s.env.par
  status : s.status.Good
  cleared : s.status.busy = true → s.out = Outputs.zero
  failed : s.status.err = true →
    s.out = { Outputs.zero with einfo0 := s.out.einfo0, einfo1 := s.out.einfo1 }
  context : s.status.err = false → s.out.einfo0 = 0 ∧ s.out.einfo1 = 0
  hidden : s.status.busy = false → s.hidden = Hidden.zero

/-- `k` steps from `s` end in `t`, none of them stopping. -/
def RunsTo (k : Nat) (s t : State) : Prop := Sys2Proof.core.run k s = .next t

/-- `k` steps from `s` all go on: no fault and no refusal. -/
def SafeFor (k : Nat) (s : State) : Prop := ∃ t, RunsTo k s t

/-! ### What a completion shows -/

/-- Every element of a buffer reads 0. -/
def AllZero {w : Nat} (m : Memory w) : Prop := ∀ a, Memory.read m a = 0

/-- `STATUS` reads `DONE` and nothing else: completion without error (R22, R98). -/
def State.Succeeded (t : State) : Prop := t.status.word = 0x2#32

/-- The result registers but `EINFO0` and `EINFO1`, and the core-written buffers, are all 0. -/
def Outputs.Cleared (o : Outputs) : Prop :=
  o.olen = 0 ∧ o.obits = 0 ∧ o.ons = 0 ∧ o.resl = 0 ∧ o.resh = 0 ∧
    AllZero o.dout ∧ AllZero o.sout ∧ AllZero o.qout

/-- No context words (R35). -/
def Outputs.NoContext (o : Outputs) : Prop := o.einfo0 = 0 ∧ o.einfo1 = 0

/-- Completion with the error kind of this code and these context numbers, saturated, and no other
output (R22, R246, R256, R257). -/
def State.FailedWith (t : State) (code : BitVec 4) (info0 info1 : Nat) : Prop :=
  t.status.word = 0x6#32 ||| code.setWidth 32 <<< 8 ∧
    t.out.einfo0.toNat = min info0 (2 ^ 32 - 1) ∧ t.out.einfo1.toNat = min info1 (2 ^ 32 - 1) ∧
    t.out.Cleared

/-- Success with the byte string `b` in `DOUT`, its length in `OLEN`, and no other output but the
bit count `obits` (R31, R32, R43). -/
def State.Delivers (t : State) (b : List Byte) : Prop :=
  t.Succeeded ∧ t.out.olen.toNat = b.length ∧ (∀ k, Memory.read t.out.dout k = b.getD k 0) ∧
    t.out.obits = 0 ∧ t.out.ons = 0 ∧ t.out.resl = 0 ∧ t.out.resh = 0 ∧ t.out.NoContext ∧
    AllZero t.out.sout ∧ AllZero t.out.qout

/-- What a completion leaves as it was (R256, R74): `CMD`, `CTRL`, the operand registers, the input
buffers, and everything outside the core but the draws. -/
def Untouched (s t : State) : Prop :=
  t.cmd = s.cmd ∧ t.ie = s.ie ∧ t.opnd = s.opnd ∧ t.bufs = s.bufs ∧ t.env.par = s.env.par ∧
    t.env.inputs = s.env.inputs ∧ t.env.fresh = s.env.fresh ∧ t.env.rdata = s.env.rdata

/-- A completion that made no draw. -/
def NoDraw (s t : State) : Prop := t.env = s.env

/-- A completion that made one draw: the answer is used up (R47). -/
def OneDraw (s t : State) : Prop :=
  t.env.answers = s.env.answers.tail ∧ t.env.drawn = s.env.drawn + 1

/-- The samples fit the instance and quantize to `qs` (R183). -/
def State.QuantizesTo (s : State) (qs : List Int) : Prop :=
  s.sampleCount ≤ s.env.par.sCap ∧ qs.length = s.sampleCount ∧
    ∀ i, i < s.sampleCount →
      quant1 s.env.par.flen (Memory.read s.bufs.sin i) = .ok (qs.getD i 0)

/-- The samples fit the instance, and `i0` is the lowest flat index whose sample fails to quantize
(R183). -/
def State.SampleFailsAt (s : State) (i0 : Nat) (e : QuantFail) : Prop :=
  s.sampleCount ≤ s.env.par.sCap ∧ i0 < s.sampleCount ∧
    (∀ j, j < i0 → ∃ q, quant1 s.env.par.flen (Memory.read s.bufs.sin j) = .ok q) ∧
    quant1 s.env.par.flen (Memory.read s.bufs.sin i0) = .error e

/-- The second context number of `SampleOverflow` (R252): 1 for a NaN or an infinity, else 0. -/
def overflowInfo : QuantFail → Nat
  | .nonfinite => 1
  | .range => 0

/-- Bit `i` of the bitstream a byte buffer holds (R65, R196). -/
def bufferBit (m : Memory 8) (i : Nat) : Bool := (Memory.read m (i / 8)).getLsbD (7 - i % 8)

/-- `n` is the lowest byte offset at which the delimiter stands in `bs` (R217, R218). -/
def FirstDelimiterAt (bs : List Byte) (n : Nat) : Prop :=
  (bs.drop n).take 23 = delimiter ∧ ∀ m, m < n → (bs.drop m).take 23 ≠ delimiter

/-- One well-formed UTF-8 sequence: a row of the table of R158. -/
def Utf8Sequence (b : List Byte) : Prop :=
  ∃ row ∈ utf8Table, b.length = row.length ∧
    ∀ k, k < row.length →
      (row.getD k (0, 0)).1.toNat ≤ (b.getD k 0).toNat ∧
        (b.getD k 0).toNat ≤ (row.getD k (0, 0)).2.toNat

/-- Well-formed UTF-8 (R158): zero or more well-formed sequences one after another. -/
def WellFormedUtf8 (m : List Byte) : Prop :=
  ∃ parts : List (List Byte), m = parts.flatten ∧ ∀ p ∈ parts, Utf8Sequence p

end Sys2Proof.Machine
end

