-- ==== Sys2Proof/Certificates/Slice0/Obligations.lean ====
section
/-! DEFINITION. The statements for the provers. -/

open Sys2Proof Sys2Proof.Machine

/-! ### Encoding -/

/-- The twelve words of R88, written out, and what they decode to. -/
def Obligations.TableWordsDecode : Prop :=
  decode 0x00000001#32 = .ok .kdf ∧ decode 0x00000002#32 = .ok .enc ∧
  decode 0x00000003#32 = .ok .dec ∧ decode 0x00000010#32 = .ok .qnt ∧
  decode 0x00000011#32 = .ok .emb ∧ decode 0x00000012#32 = .ok (.ext false) ∧
  decode 0x00000112#32 = .ok (.ext true) ∧ decode 0x00000013#32 = .ok .xtd ∧
  decode 0x00000020#32 = .ok .hide ∧ decode 0x00000021#32 = .ok .reveal ∧
  decode 0x00000030#32 = .ok .cap ∧ decode 0x00000031#32 = .ok .rqb

/-- A word decodes to a command exactly when it is that command's word (R88, R89). -/
def Obligations.DecodeInvertsEncode : Prop :=
  ∀ (w : Word) (i : Instr), decode w = .ok i ↔ w = encode i

/-- R89: a word is legal exactly when bits 31:9 are 0, bits 7:0 are an assigned `OPC`, and bit 8 is 0
or the `OPC` is 0x12; a legal word selects the command with that `OPC`; the legal words are the
twelve of R88. -/
def Obligations.LegalWordsAreTheThreeConditions : Prop :=
  ∀ w : Word,
    ((∃ i, decode w = .ok i) ↔
      w.extractLsb' 9 23 = 0#23 ∧
      w.extractLsb' 0 8 ∈ [0x01#8, 0x02#8, 0x03#8, 0x10#8, 0x11#8, 0x12#8, 0x13#8, 0x20#8, 0x21#8,
        0x30#8, 0x31#8] ∧
      (w.getLsbD 8 = false ∨ w.extractLsb' 0 8 = 0x12#8)) ∧
    (∀ i, decode w = .ok i → (encode i).extractLsb' 0 8 = w.extractLsb' 0 8) ∧
    ((∃ i, decode w = .ok i) ↔
      w ∈ [0x1#32, 0x2#32, 0x3#32, 0x10#32, 0x11#32, 0x12#32, 0x112#32, 0x13#32, 0x20#32, 0x21#32,
        0x30#32, 0x31#32])

/-! ### The step and the life cycle of a command -/

/-- When a command runs and nothing comes from outside before the core's turn, the step is that
command's `exec`; so is the step after a word was placed. On an idle block the core's turn changes
nothing (R269, R281). That the core's turn is an input, or what an empty list means, is the model's
choice (log entry 2). -/
def Obligations.StepRunsTheIssuedCommand : Prop :=
  (∀ (s : State) (i : Instr), s.env.par.ok = true → s.status.busy = true → decode s.cmd = .ok i →
    (s.env.inputs = [] → step s = exec i s) ∧
    (∀ es, s.env.inputs = .coreTurn :: es → step s = exec i s.popInput)) ∧
  (∀ (s : State) (w : Nat) (i : Instr), s.env.par.ok = true → decode (BitVec.ofNat 32 w) = .ok i →
    step (s.withFetchWord 32 w) = exec i (s.withFetchWord 32 w)) ∧
  ∀ s : State, s.env.par.ok = true → s.status.busy = false →
    (s.env.inputs = [] → step s = .next s) ∧
    ∀ es, s.env.inputs = .coreTurn :: es → step s = .next s.popInput

/-- R254, R90: at the core's turn a running word that is no command's completes with
`IllegalCommand`, `EINFO0` the word, nothing read and nothing drawn. That the turn is an entry
`.coreTurn` of the inputs, or comes when none is left, is the model's choice (log entry 2). -/
def Obligations.IllegalWordCompletesWithError : Prop :=
  ∀ s : State, s.env.par.ok = true → s.status.busy = true → (∀ i, s.cmd ≠ encode i) →
    (s.env.inputs = [] →
      ∃ t, step s = .next t ∧ t.FailedWith 8 s.cmd.toNat 0 ∧ t.out.einfo0 = s.cmd ∧
        Untouched s t ∧ NoDraw s t ∧ t.hidden = Hidden.zero) ∧
    ∀ es, s.env.inputs = .coreTurn :: es →
      ∃ t, step s = .next t ∧ t.FailedWith 8 s.cmd.toNat 0 ∧ t.out.einfo0 = s.cmd ∧
        Untouched s.popInput t ∧ NoDraw s.popInput t ∧ t.hidden = Hidden.zero

/-- R96: a host write of `CMD` while idle issues the word: one step sets `CMD`, `BUSY`, clears `DONE`,
`ERR`, `ECODE`, registers 10 to 16 and every element of `DOUT`, `SOUT`, `QOUT`; `irq` falls; the
operand registers and input buffers stay. That the word is the low half of a 64-bit bus value is the
model's choice (log entry 5). -/
def Obligations.CmdWriteIssues : Prop :=
  ∀ (s : State) (v : BitVec 64) (es : List Input), s.env.par.ok = true → s.status.busy = false →
    s.env.inputs = .hostWrite .reg 0 v :: es →
    ∃ t, step s = .next t ∧ t.cmd = v.setWidth 32 ∧ t.status.word = 0x1#32 ∧
      (∀ n, 10 ≤ n → n ≤ 16 → t.regRead n = 0) ∧ t.out.Cleared ∧ t.irq = false ∧
      t.ie = s.ie ∧ t.opnd = s.opnd ∧ t.bufs = s.bufs ∧ t.env.par = s.env.par ∧
      t.env.inputs = es ∧ t.env.answers = s.env.answers ∧ t.env.drawn = s.env.drawn

/-- R97: a host write of `CMD` while a command runs is ignored entirely. -/
def Obligations.CmdWriteWhileRunningIsIgnored : Prop :=
  ∀ (s : State) (v : BitVec 64) (es : List Input), s.env.par.ok = true → s.status.busy = true →
    s.env.inputs = .hostWrite .reg 0 v :: es → step s = .next s.popInput

/-- R63, first half: while a command runs every host write but one to `CTRL` is ignored, to any
register and any buffer. -/
def Obligations.WritesWhileRunningAreIgnored : Prop :=
  ∀ (s : State) (sp : Space) (n : Nat) (v : BitVec 64) (es : List Input),
    s.env.par.ok = true → s.status.busy = true → ¬(sp = .reg ∧ n = 2) →
    s.env.inputs = .hostWrite sp n v :: es → step s = .next s.popInput

/-- R280, R281: a hard reset, or a write of `CTRL` with bit 1 set at any time, leaves the state of the
table of R52; `IE` ends 0 whatever bit 0 of the write is. What is outside the core stays (log entries
2, 3); a written value is 64 bits wide (log entry 5). -/
def Obligations.EitherResetGivesTheResetState : Prop :=
  ∀ (s : State) (e : Input) (es : List Input), s.env.par.ok = true → s.env.inputs = e :: es →
    (e = .hardReset ∨ ∃ v : BitVec 64, v.getLsbD 1 = true ∧ e = .hostWrite .reg 2 v) →
    ∃ t, step s = .next t ∧
      (∀ n, n ≤ 16 → t.regRead n = 0) ∧ (∀ n, 22 ≤ n → t.regRead n = 0) ∧
      (∀ n, 17 ≤ n → n ≤ 21 → t.regRead n = s.regRead n) ∧
      AllZero t.bufs.pw ∧ AllZero t.bufs.din ∧ AllZero t.bufs.sin ∧ t.out.Cleared ∧
      t.hidden = Hidden.zero ∧ t.irq = false ∧ t.env = s.popInput.env

/-- R282: a reset between issue and completion abandons the command: two steps lead to the reset
state, no output of the command appears, no draw is recorded (log entry 3; the width of a written
value: log entry 5). -/
def Obligations.ResetAbandonsARunningCommand : Prop :=
  ∀ (s : State) (w v : BitVec 64) (es : List Input), s.env.par.ok = true → s.status.busy = false →
    v.getLsbD 1 = true →
    s.env.inputs = .hostWrite .reg 0 w :: .hostWrite .reg 2 v :: es →
    ∃ t, RunsTo 2 s t ∧ t.status.word = 0 ∧ t.cmd = 0 ∧ t.out.Cleared ∧ t.out.NoContext ∧
      t.hidden = Hidden.zero ∧ t.env.drawn = s.env.drawn ∧ t.env.inputs = es

/-- R52: the state after reset, of the reference instance (R8 to R11). -/
def Obligations.ResetStateIsTheTable : Prop :=
  (∀ n, n ≤ 16 → State.reset.regRead n = 0) ∧ State.reset.regRead 17 = 0x4C504301#32 ∧
  State.reset.regRead 18 = 256#32 ∧ State.reset.regRead 19 = 4096#32 ∧
  State.reset.regRead 20 = 32768#32 ∧ State.reset.regRead 21 = 64#32 ∧
  (∀ n, 22 ≤ n → State.reset.regRead n = 0) ∧
  AllZero State.reset.bufs.pw ∧ AllZero State.reset.bufs.din ∧ AllZero State.reset.bufs.sin ∧
  AllZero State.reset.out.dout ∧ AllZero State.reset.out.sout ∧ AllZero State.reset.out.qout ∧
  State.reset.hidden = Hidden.zero ∧ State.reset.irq = false

/-- R291, R98: whatever the outside does, once its inputs are used up one more step leaves the core
idle; and a running command with nothing before it completes in one step. -/
def Obligations.EveryCommandCompletes : Prop :=
  (∀ s : State, s.env.par.ok = true →
    ∃ t, RunsTo (s.env.inputs.length + 1) s t ∧ t.status.busy = false ∧ t.env.inputs = []) ∧
  ∀ s : State, s.env.par.ok = true → s.status.busy = true → s.env.inputs = [] →
    ∃ t, step s = .next t ∧ t.status.busy = false ∧ t.status.done = true

/-- R270: on a valid instance no run ever stops. -/
def Obligations.NoRunStops : Prop :=
  ∀ (k : Nat) (s : State), s.env.par.ok = true → SafeFor k s

/-! ### Invariants -/

/-- The state after reset is good. -/
def Obligations.ResetIsGood : Prop := State.reset.Good

/-- Every step keeps the invariant: canonical buffers inside their spaces, outputs zero past their
lengths and while a command runs, `BUSY` and `DONE` never both 1, `ECODE` 0 exactly without error, no
hidden state while idle. -/
def Obligations.EveryStepKeepsGood : Prop :=
  ∀ s t : State, s.Good → step s = .next t → t.Good

/-! ### Host access -/

/-- R61, R62: a host read of an element in range (a buffer's only while idle) returns it, one out of
range returns 0, and no host read changes anything of the machine. -/
def Obligations.HostReadReturnsTheElement : Prop :=
  ∀ (s : State) (sp : Space) (n : Nat) (es : List Input), s.env.par.ok = true →
    s.env.inputs = .hostRead sp n :: es →
    ∃ t, step s = .next t ∧ t.cmd = s.cmd ∧ t.status = s.status ∧ t.ie = s.ie ∧ t.opnd = s.opnd ∧
      t.out = s.out ∧ t.bufs = s.bufs ∧ t.hidden = s.hidden ∧ t.env.par = s.env.par ∧
      t.env.inputs = es ∧ t.env.answers = s.env.answers ∧ t.env.drawn = s.env.drawn ∧
      (sp = .reg → t.env.rdata = (s.regRead n).setWidth 64) ∧
      (s.status.busy = false →
        (sp = .pw → n < s.env.par.pwCap → t.env.rdata = (Memory.read s.bufs.pw n).setWidth 64) ∧
        (sp = .din → n < s.env.par.dCap → t.env.rdata = (Memory.read s.bufs.din n).setWidth 64) ∧
        (sp = .dout → n < s.env.par.dCap → t.env.rdata = (Memory.read s.out.dout n).setWidth 64) ∧
        (sp = .sin → n < s.env.par.sCap → t.env.rdata = Memory.read s.bufs.sin n) ∧
        (sp = .sout → n < s.env.par.sCap → t.env.rdata = Memory.read s.out.sout n) ∧
        (sp = .qout → n < s.env.par.sCap → t.env.rdata = (Memory.read s.out.qout n).setWidth 64) ∧
        (sp = .pw ∧ s.env.par.pwCap ≤ n ∨ (sp = .din ∨ sp = .dout) ∧ s.env.par.dCap ≤ n ∨
          (sp = .sin ∨ sp = .sout ∨ sp = .qout) ∧ s.env.par.sCap ≤ n → t.env.rdata = 0))

/-- R20 to R39: what each register number reads as. -/
def Obligations.RegisterNumbersReadAsTabled : Prop :=
  ∀ s : State,
    s.regRead 0 = s.cmd ∧ s.regRead 1 = s.status.word ∧ s.regRead 2 = (if s.ie then 1 else 0) ∧
    s.regRead 3 = s.opnd.pwlen ∧ s.regRead 4 = s.opnd.dlen ∧ s.regRead 5 = s.opnd.nbits ∧
    s.regRead 6 = s.opnd.maxbits ∧ s.regRead 7 = s.opnd.nchan ∧ s.regRead 8 = s.opnd.nfrm ∧
    s.regRead 9 = s.opnd.arg ∧ s.regRead 10 = s.out.olen ∧ s.regRead 11 = s.out.obits ∧
    s.regRead 12 = s.out.ons ∧ s.regRead 13 = s.out.resl ∧ s.regRead 14 = s.out.resh ∧
    s.regRead 15 = s.out.einfo0 ∧ s.regRead 16 = s.out.einfo1 ∧ s.regRead 17 = 0x4C504301#32 ∧
    (s.env.par.ok = true →
      (s.regRead 18).toNat = s.env.par.pwCap ∧ (s.regRead 19).toNat = s.env.par.dCap ∧
      (s.regRead 20).toNat = s.env.par.sCap) ∧
    (s.regRead 21 = 32#32 ↔ s.env.par.flen = .f32) ∧ (s.regRead 21 = 64#32 ↔ s.env.par.flen = .f64) ∧
    ∀ n, 22 ≤ n → s.regRead n = 0

/-- R22: the places of the fields of `STATUS`; every other bit reads 0. -/
def Obligations.StatusFieldsStandWhereTabled : Prop :=
  ∀ st : Status,
    st.word.getLsbD 0 = st.busy ∧ st.word.getLsbD 1 = st.done ∧ st.word.getLsbD 2 = st.err ∧
    st.word.extractLsb' 8 4 = st.ecode ∧ st.word.extractLsb' 3 5 = 0#5 ∧
    st.word.extractLsb' 12 20 = 0#20

/-- R24 to R30: a host write of an operand register while idle stores the value, and nothing else
changes. -/
def Obligations.OperandRegisterWritesStore : Prop :=
  ∀ (s : State) (n : Nat) (v : BitVec 64) (es : List Input), s.env.par.ok = true →
    s.status.busy = false → 3 ≤ n → n ≤ 9 → s.env.inputs = .hostWrite .reg n v :: es →
    ∃ t, step s = .next t ∧ t.regRead n = v.setWidth 32 ∧ (∀ m, m ≠ n → t.regRead m = s.regRead m) ∧
      t.bufs = s.bufs ∧ t.out = s.out ∧ t.hidden = s.hidden ∧ t.status = s.status ∧
      t.env = s.popInput.env

/-- R31 to R35, R38, R39, R61: a host write of a register number from 10 on changes nothing. -/
def Obligations.OtherRegisterWritesAreIgnored : Prop :=
  ∀ (s : State) (n : Nat) (v : BitVec 64) (es : List Input), s.env.par.ok = true → 10 ≤ n →
    s.env.inputs = .hostWrite .reg n v :: es → step s = .next s.popInput

/-- R62, R61, R43, R45, R46: a host write of an element of `PW`, `DIN` or `SIN` in range while idle
stores it and leaves every other element; one out of range, or to a core-written buffer, changes
nothing. -/
def Obligations.BufferWritesStoreOneElement : Prop :=
  ∀ (s : State) (sp : Space) (n : Nat) (v : BitVec 64) (es : List Input), s.Good →
    s.status.busy = false → sp ≠ .reg → s.env.inputs = .hostWrite sp n v :: es →
    ∃ t, step s = .next t ∧ t.cmd = s.cmd ∧ t.status = s.status ∧ t.ie = s.ie ∧ t.opnd = s.opnd ∧
      t.out = s.out ∧ t.hidden = s.hidden ∧ t.env = s.popInput.env ∧
      (∀ a, Memory.read t.bufs.pw a =
        if sp = .pw ∧ n < s.env.par.pwCap ∧ a = n then v.setWidth 8 else Memory.read s.bufs.pw a) ∧
      (∀ a, Memory.read t.bufs.din a =
        if sp = .din ∧ n < s.env.par.dCap ∧ a = n then v.setWidth 8 else Memory.read s.bufs.din a) ∧
      (∀ a, (Memory.read t.bufs.sin a).toNat =
        if sp = .sin ∧ n < s.env.par.sCap ∧ a = n then v.toNat % 2 ^ s.env.par.flen.bits
        else (Memory.read s.bufs.sin a).toNat)

/-- R22, R260: a host write of `STATUS` while idle clears `DONE` when its bit 1 is set and changes
nothing else (the width of a written value: log entry 5). -/
def Obligations.StatusWriteAcknowledges : Prop :=
  ∀ (s : State) (v : BitVec 64) (es : List Input), s.env.par.ok = true → s.status.busy = false →
    s.env.inputs = .hostWrite .reg 1 v :: es →
    ∃ t, step s = .next t ∧ t.status.done = (s.status.done && !v.getLsbD 1) ∧
      t.status.busy = s.status.busy ∧ t.status.err = s.status.err ∧
      t.status.ecode = s.status.ecode ∧ t.cmd = s.cmd ∧ t.ie = s.ie ∧ t.opnd = s.opnd ∧
      t.out = s.out ∧ t.bufs = s.bufs ∧ t.hidden = s.hidden ∧ t.env = s.popInput.env

/-- R48, R263, R264: `irq` is `IE & DONE`; a write of `CTRL` without the reset bit (R23, R63), idle or
running, stores its bit 0 in `IE`, moves `irq` in the same step and changes nothing else; and every
command's completion raises `irq` exactly when `IE` is set. That a written value is 64 bits wide is
the model's choice (log entry 5). -/
def Obligations.InterruptFollowsDoneAndEnable : Prop :=
  (∀ s : State, s.irq = (s.ie && s.status.done)) ∧
  (∀ (s : State) (v : BitVec 64) (es : List Input), s.env.par.ok = true → v.getLsbD 1 = false →
    s.env.inputs = .hostWrite .reg 2 v :: es →
    ∃ t, step s = .next t ∧ t.ie = v.getLsbD 0 ∧ t.irq = (v.getLsbD 0 && s.status.done) ∧
      t.status = s.status ∧ t.cmd = s.cmd ∧ t.opnd = s.opnd ∧ t.out = s.out ∧ t.bufs = s.bufs ∧
      t.hidden = s.hidden ∧ t.env = s.popInput.env) ∧
  ∀ (i : Instr) (s : State), ∃ t, exec i s = .next t ∧ t.irq = s.ie

/-! ### What every completion leaves -/

/-- The frame of every command: `CMD`, `CTRL`, operand registers, input buffers and the outside stay,
but for one draw of `ENC` and `HIDE`; the hidden state is zeroed (R50, R74, R256). -/
def Obligations.CompletionFrame : Prop :=
  ∀ (i : Instr) (s t : State), exec i s = .next t →
    Untouched s t ∧ t.hidden = Hidden.zero ∧ t.status.busy = false ∧ t.status.done = true ∧
      (NoDraw s t ∨ (i = .enc ∨ i = .hide) ∧ OneDraw s t)

/-- R257, R54: every output a command does not produce is 0 at its completion. -/
def Obligations.UnproducedOutputsAreZero : Prop :=
  ∀ (i : Instr) (s t : State), exec i s = .next t →
    (i = .kdf ∨ i = .enc ∨ i = .dec ∨ i = .xtd ∨ i = .reveal ∨ (∃ mb, i = .ext mb) →
      t.out.ons = 0 ∧ t.out.resl = 0 ∧ t.out.resh = 0 ∧ AllZero t.out.sout ∧ AllZero t.out.qout) ∧
    (i = .qnt →
      t.out.olen = 0 ∧ t.out.resl = 0 ∧ t.out.resh = 0 ∧ AllZero t.out.dout ∧ AllZero t.out.sout) ∧
    (i = .emb →
      t.out.olen = 0 ∧ t.out.resl = 0 ∧ t.out.resh = 0 ∧ AllZero t.out.dout ∧ AllZero t.out.qout) ∧
    (i = .hide → t.out.resl = 0 ∧ t.out.resh = 0 ∧ AllZero t.out.qout) ∧
    (i = .cap ∨ i = .rqb →
      t.out.olen = 0 ∧ t.out.ons = 0 ∧ AllZero t.out.dout ∧ AllZero t.out.sout ∧
        AllZero t.out.qout) ∧
    ((∀ mb, i ≠ .ext mb) → t.out.obits = 0)

/-- R256, R257, R35: after an error every output is 0 but the context words; without one `ECODE` and
the context words are 0. -/
def Obligations.ErrorLeavesOnlyItsContext : Prop :=
  ∀ (i : Instr) (s t : State), exec i s = .next t →
    (t.status.err = true → t.out.Cleared ∧ t.status.ecode ≠ 0) ∧
    (t.status.err = false → t.status.ecode = 0 ∧ t.out.NoContext)

/-- R246: the codes of the nine kinds, and which of them `ECODE` can show after each command. -/
def Obligations.ErrorCodesOfEachCommand : Prop :=
  ErrKind.insufficientCapacity.code = 1 ∧ ErrKind.delimiterNotFound.code = 2 ∧
  ErrKind.malformedEnvelope.code = 3 ∧ ErrKind.invalidPadding.code = 4 ∧
  ErrKind.invalidEncoding.code = 5 ∧ ErrKind.sampleOverflow.code = 6 ∧
  ErrKind.encryptionError.code = 7 ∧ ErrKind.illegalCommand.code = 8 ∧
  ErrKind.operandRange.code = 9 ∧
  ∀ (i : Instr) (s t : State), exec i s = .next t →
    t.status.ecode ∈ (match i with
      | .kdf => [0, 9]
      | .enc => [0, 7, 9]
      | .dec => [0, 3, 4, 5, 9]
      | .qnt => [0, 6, 9]
      | .emb => [0, 1, 6, 9]
      | .ext _ => [0, 6, 9]
      | .xtd => [0, 2, 6, 9]
      | .hide => [0, 1, 6, 7, 9]
      | .reveal => [0, 2, 3, 4, 5, 6, 9]
      | .cap => [0]
      | .rqb => [0] : List (BitVec 4))

/-- R51, R50: what a command delivers is a function of the operand registers, the input buffers, the
instance and the draw; nothing left from earlier commands, and no hidden state, enters. -/
def Obligations.ResultsDependOnOperandsOnly : Prop :=
  ∀ (i : Instr) (s s' : State), s'.opnd = s.opnd → s'.bufs = s.bufs → s'.env.par = s.env.par →
    s'.nextDraw = s.nextDraw →
    ∃ t t', exec i s = .next t ∧ exec i s' = .next t' ∧ t'.status = t.status ∧ t'.out = t.out

/-- R54: a command's outcome depends on the operands it is listed as reading and on no other; of
`NCHAN` and `NFRM` only on the product (R72). -/
def Obligations.UnreadOperandsHaveNoEffect : Prop :=
  ∀ (i : Instr) (s s' : State), s'.env.par = s.env.par →
    (match i with
      | .kdf => s'.opnd.pwlen = s.opnd.pwlen ∧ s'.password = s.password
      | .enc => s'.opnd.pwlen = s.opnd.pwlen ∧ s'.password = s.password ∧
          s'.opnd.dlen = s.opnd.dlen ∧ s'.data = s.data ∧ s'.nextDraw = s.nextDraw
      | .dec => s'.opnd.pwlen = s.opnd.pwlen ∧ s'.password = s.password ∧
          s'.opnd.dlen = s.opnd.dlen ∧ s'.data = s.data
      | .qnt | .xtd | .ext false => s'.sampleCount = s.sampleCount ∧ s'.samples = s.samples
      | .emb => s'.sampleCount = s.sampleCount ∧ s'.samples = s.samples ∧
          s'.opnd.nbits = s.opnd.nbits ∧ s'.bitBytes = s.bitBytes
      | .ext true => s'.sampleCount = s.sampleCount ∧ s'.samples = s.samples ∧
          s'.opnd.maxbits = s.opnd.maxbits
      | .hide => s'.opnd.pwlen = s.opnd.pwlen ∧ s'.password = s.password ∧
          s'.opnd.dlen = s.opnd.dlen ∧ s'.data = s.data ∧ s'.sampleCount = s.sampleCount ∧
          s'.samples = s.samples ∧ s'.nextDraw = s.nextDraw
      | .reveal => s'.opnd.pwlen = s.opnd.pwlen ∧ s'.password = s.password ∧
          s'.sampleCount = s.sampleCount ∧ s'.samples = s.samples
      | .cap | .rqb => s'.opnd.arg = s.opnd.arg) →
    ∃ t t', exec i s = .next t ∧ exec i s' = .next t' ∧ t'.status = t.status ∧ t'.out = t.out

/-- R255: the operand range errors, in id order: 1 `PWLEN`, 2 `DLEN`, 3 the exact product
`NCHAN * NFRM` reported saturated, 5 the output size. Nothing is drawn. -/
def Obligations.OperandRangeErrors : Prop :=
  ∀ s : State,
    (s.opnd.pwlen.toNat > s.env.par.pwCap →
      ∀ i, i = .kdf ∨ i = .enc ∨ i = .dec ∨ i = .hide ∨ i = .reveal →
        ∃ t, exec i s = .next t ∧ t.FailedWith 9 1 s.opnd.pwlen.toNat ∧ NoDraw s t) ∧
    (s.opnd.pwlen.toNat ≤ s.env.par.pwCap → s.opnd.dlen.toNat > s.env.par.dCap →
      ∀ i, i = .enc ∨ i = .dec ∨ i = .hide →
        ∃ t, exec i s = .next t ∧ t.FailedWith 9 2 s.opnd.dlen.toNat ∧ NoDraw s t) ∧
    (s.opnd.nchan.toNat * s.opnd.nfrm.toNat > s.env.par.sCap →
      ∀ i, i = .qnt ∨ i = .emb ∨ (∃ mb, i = .ext mb) ∨ i = .xtd ∨
          (i = .hide ∧ s.opnd.pwlen.toNat ≤ s.env.par.pwCap ∧
            s.opnd.dlen.toNat ≤ s.env.par.dCap) ∨
          (i = .reveal ∧ s.opnd.pwlen.toNat ≤ s.env.par.pwCap) →
        ∃ t, exec i s = .next t ∧ t.FailedWith 9 3 (s.opnd.nchan.toNat * s.opnd.nfrm.toNat) ∧
          NoDraw s t) ∧
    (s.opnd.pwlen.toNat ≤ s.env.par.pwCap → s.opnd.dlen.toNat ≤ s.env.par.dCap →
      (16 * (s.opnd.dlen.toNat / 16 + 2) > s.env.par.dCap →
        ∃ t, exec .enc s = .next t ∧
          t.FailedWith 9 5 (16 * (s.opnd.dlen.toNat / 16 + 2)) ∧ NoDraw s t) ∧
      (s.opnd.nchan.toNat * s.opnd.nfrm.toNat ≤ s.env.par.sCap →
        16 * (s.opnd.dlen.toNat / 16 + 2) + 23 > s.env.par.dCap →
        ∃ t, exec .hide s = .next t ∧
          t.FailedWith 9 5 (16 * (s.opnd.dlen.toNat / 16 + 2) + 23) ∧ NoDraw s t))

/-! ### The cipher unit -/

/-- R119: `KDF` delivers the first 16 bytes of the password's SHA-256, for every `PWLEN` up to
`PW_CAP`; above it ends with `OperandRange`. SHA-256 of a string, padded by R106, is what the rules
say: the words of its blocks `w j` (R107, R111), the working variables `v j` (R112, the
constants of R109), the hash values `h` from that of R110 on, the last one written out (R113). -/
def Obligations.KdfCommand : Prop :=
  decode 0x00000001#32 = .ok .kdf ∧
  (∀ s : State,
    (s.opnd.pwlen.toNat ≤ s.env.par.pwCap →
      ∃ t, exec .kdf s = .next t ∧
        t.Delivers ((sha256 (Memory.readRun s.bufs.pw 0 s.opnd.pwlen.toNat)).take 16) ∧
        t.out.olen = 16 ∧ Untouched s t ∧ NoDraw s t) ∧
    (s.opnd.pwlen.toNat > s.env.par.pwCap →
      ∃ t, exec .kdf s = .next t ∧ t.FailedWith 9 1 s.opnd.pwlen.toNat ∧ Untouched s t ∧
        NoDraw s t)) ∧
  (∀ (m p : List Byte) (nb : Nat), p = shaPadded m → nb = p.length / 64 →
    ∃ (w : Nat → Nat → Word) (v : Nat → Nat → HashValue) (h : Nat → HashValue),
      h 0 = ⟨0x6a09e667#32, 0xbb67ae85#32, 0x3c6ef372#32, 0xa54ff53a#32, 0x510e527f#32,
        0x9b05688c#32, 0x1f83d9ab#32, 0x5be0cd19#32⟩ ∧
      (∀ j, j < nb →
        (∀ t, t < 16 → w j t =
          p.getD (64 * j + 4 * t) 0#8 ++ p.getD (64 * j + 4 * t + 1) 0#8 ++
            p.getD (64 * j + 4 * t + 2) 0#8 ++ p.getD (64 * j + 4 * t + 3) 0#8) ∧
        (∀ t, 16 ≤ t → t < 64 → w j t =
          ((w j (t - 2)).rotateRight 17 ^^^ (w j (t - 2)).rotateRight 19 ^^^ w j (t - 2) >>> 10) +
            w j (t - 7) +
            ((w j (t - 15)).rotateRight 7 ^^^ (w j (t - 15)).rotateRight 18 ^^^
              w j (t - 15) >>> 3) +
            w j (t - 16)) ∧
        v j 0 = h j ∧
        (∀ t, t < 64 → ∀ x t1 t2, x = v j t →
          t1 = x.h + (x.e.rotateRight 6 ^^^ x.e.rotateRight 11 ^^^ x.e.rotateRight 25) +
            ((x.e &&& x.f) ^^^ (~~~x.e &&& x.g)) + shaK.getD t 0 + w j t →
          t2 = (x.a.rotateRight 2 ^^^ x.a.rotateRight 13 ^^^ x.a.rotateRight 22) +
            ((x.a &&& x.b) ^^^ (x.a &&& x.c) ^^^ (x.b &&& x.c)) →
          v j (t + 1) = ⟨t1 + t2, x.a, x.b, x.c, x.d + t1, x.e, x.f, x.g⟩) ∧
        h (j + 1) =
          ⟨(h j).a + (v j 64).a, (h j).b + (v j 64).b, (h j).c + (v j 64).c, (h j).d + (v j 64).d,
            (h j).e + (v j 64).e, (h j).f + (v j 64).f, (h j).g + (v j 64).g,
            (h j).h + (v j 64).h⟩) ∧
      sha256 m =
        [(h nb).a, (h nb).b, (h nb).c, (h nb).d, (h nb).e, (h nb).f, (h nb).g, (h nb).h].flatMap
          fun x => [x.extractLsb' 24 8, x.extractLsb' 16 8, x.extractLsb' 8 8,
            x.extractLsb' 0 8]) ∧
  ∀ t q, t < 64 →
    q = [2, 3, 5, 7, 11, 13, 17, 19, 23, 29, 31, 37, 41, 43, 47, 53, 59, 61, 67, 71, 73, 79, 83,
      89, 97, 101, 103, 107, 109, 113, 127, 131, 137, 139, 149, 151, 157, 163, 167, 173, 179, 181,
      191, 193, 197, 199, 211, 223, 227, 229, 233, 239, 241, 251, 257, 263, 269, 271, 277, 281,
      283, 293, 307, 311].getD t 0 →
    ∃ c : Nat, c ^ 3 ≤ q * 2 ^ 96 ∧ q * 2 ^ 96 < (c + 1) ^ 3 ∧
      (shaK.getD t 0).toNat = c % 2 ^ 32

/-- R162: `ENC`: the operand checks in their order, none of them with a draw; then one draw; with
`ok = 1` the envelope `IV || CbcEnc(Pad(M))`, with `ok = 0` `EncryptionError`. -/
def Obligations.EncCommand : Prop :=
  decode 0x00000002#32 = .ok .enc ∧ ∀ s : State, s.env.par.ok = true →
    (s.opnd.pwlen.toNat > s.env.par.pwCap →
      ∃ t, exec .enc s = .next t ∧ t.FailedWith 9 1 s.opnd.pwlen.toNat ∧ Untouched s t ∧
        NoDraw s t) ∧
    (s.opnd.pwlen.toNat ≤ s.env.par.pwCap → s.opnd.dlen.toNat > s.env.par.dCap →
      ∃ t, exec .enc s = .next t ∧ t.FailedWith 9 2 s.opnd.dlen.toNat ∧ Untouched s t ∧
        NoDraw s t) ∧
    (s.opnd.pwlen.toNat ≤ s.env.par.pwCap → s.opnd.dlen.toNat ≤ s.env.par.dCap →
      16 * (s.opnd.dlen.toNat / 16 + 2) > s.env.par.dCap →
      ∃ t, exec .enc s = .next t ∧ t.FailedWith 9 5 (16 * (s.opnd.dlen.toNat / 16 + 2)) ∧
        Untouched s t ∧ NoDraw s t) ∧
    (s.opnd.pwlen.toNat ≤ s.env.par.pwCap →
      16 * (s.opnd.dlen.toNat / 16 + 2) ≤ s.env.par.dCap →
      (s.nextDraw.ok = true →
        ∃ t, exec .enc s = .next t ∧
          t.Delivers (s.nextDraw.iv.toList ++
            cbcEnc (keyExpansion (deriveKey s.password)) s.nextDraw.iv.toList (pad s.data)) ∧
          t.out.olen.toNat = 16 * (s.opnd.dlen.toNat / 16 + 2) ∧ Untouched s t ∧ OneDraw s t) ∧
      (s.nextDraw.ok = false →
        ∃ t, exec .enc s = .next t ∧ t.FailedWith 7 1 0 ∧ Untouched s t ∧ OneDraw s t))

/-- `DecryptBytes` of R166, step by step: the two envelope checks, the two padding checks (R152), the
UTF-8 check, and otherwise the unpadded plaintext. -/
def Obligations.DecryptBytesSteps : Prop :=
  ∀ e pw : List Byte,
    (e.length < 16 → decryptBytes e pw = .error ⟨.malformedEnvelope, 1, e.length⟩) ∧
    (16 ≤ e.length → e.length = 16 ∨ e.length % 16 ≠ 0 →
      decryptBytes e pw = .error ⟨.malformedEnvelope, 2, e.length⟩) ∧
    (32 ≤ e.length → e.length % 16 = 0 →
      ∀ p, p = cbcDec (keyExpansion (deriveKey pw)) (e.take 16) (e.drop 16) →
      ∀ v, v = (p.getD (p.length - 1) 0).toNat →
        (v < 1 ∨ v > 16 → decryptBytes e pw = .error ⟨.invalidPadding, 1, 0⟩) ∧
        (1 ≤ v → v ≤ 16 → (∃ k, p.length - v ≤ k ∧ k < p.length ∧ (p.getD k 0).toNat ≠ v) →
          decryptBytes e pw = .error ⟨.invalidPadding, 2, 0⟩) ∧
        (1 ≤ v → v ≤ 16 → (∀ k, p.length - v ≤ k → k < p.length → (p.getD k 0).toNat = v) →
          (∀ b, utf8FirstBad (p.take (p.length - v)) = some b →
            decryptBytes e pw = .error ⟨.invalidEncoding, b, p.length - v⟩) ∧
          (utf8FirstBad (p.take (p.length - v)) = none →
            decryptBytes e pw = .ok (p.take (p.length - v)))))

/-- `DEC` (R166): the operand checks in their order; then what `DecryptBytes` answers is delivered, or
its error reported. -/
def Obligations.DecCommand : Prop :=
  decode 0x00000003#32 = .ok .dec ∧ ∀ s : State, s.env.par.ok = true →
    (s.opnd.pwlen.toNat > s.env.par.pwCap →
      ∃ t, exec .dec s = .next t ∧ t.FailedWith 9 1 s.opnd.pwlen.toNat ∧ Untouched s t ∧
        NoDraw s t) ∧
    (s.opnd.pwlen.toNat ≤ s.env.par.pwCap → s.opnd.dlen.toNat > s.env.par.dCap →
      ∃ t, exec .dec s = .next t ∧ t.FailedWith 9 2 s.opnd.dlen.toNat ∧ Untouched s t ∧
        NoDraw s t) ∧
    (s.opnd.pwlen.toNat ≤ s.env.par.pwCap → s.opnd.dlen.toNat ≤ s.env.par.dCap →
      (∀ m, decryptBytes s.data s.password = .ok m →
        ∃ t, exec .dec s = .next t ∧ t.Delivers m ∧ Untouched s t ∧ NoDraw s t) ∧
      (∀ e, decryptBytes s.data s.password = .error e →
        ∃ t, exec .dec s = .next t ∧ t.FailedWith e.kind.code e.info0 e.info1 ∧ Untouched s t ∧
          NoDraw s t))

/-- R106: `Padded(M)` is `M`, a byte 0x80, zeros, and the bit length as 8 bytes big-endian; its length
is the least multiple of 64 that is at least `L + 9`. -/
def Obligations.ShaPaddingShape : Prop :=
  ∀ m : List Byte, 8 * m.length < 2 ^ 64 →
    (shaPadded m).length % 64 = 0 ∧ m.length + 9 ≤ (shaPadded m).length ∧
    (shaPadded m).length < m.length + 9 + 64 ∧
    (shaPadded m).take m.length = m ∧ (shaPadded m).getD m.length 0 = 0x80#8 ∧
    (∀ k, m.length < k → k + 8 < (shaPadded m).length → (shaPadded m).getD k 0 = 0#8) ∧
    ((shaPadded m).drop ((shaPadded m).length - 8)).foldl (fun a b => 256 * a + b.toNat) 0 =
      8 * m.length

/-- R127: bit `i` of `SBOX[a]` from the inverse `v` of `a` in the field of R126 (0 for 0). -/
def Obligations.SboxIsTheAffineImageOfTheInverse : Prop :=
  ∀ (a v : Byte) (i : Nat), i < 8 → (a = 0 ∧ v = 0 ∨ gmul a v = 0x01#8) →
    (sbox a).getLsbD i =
      (v.getLsbD i ^^ v.getLsbD ((i + 4) % 8) ^^ v.getLsbD ((i + 5) % 8) ^^
        v.getLsbD ((i + 6) % 8) ^^ v.getLsbD ((i + 7) % 8) ^^ (0x63#8).getLsbD i)

/-- R128: `INVSBOX` is the inverse of `SBOX`. -/
def Obligations.InvSboxInvertsSbox : Prop :=
  ∀ a : Byte, invSbox (sbox a) = a ∧ sbox (invSbox a) = a

/-- R143: under the round keys of any key, `InvCipher` and `Cipher` are inverse to each other on every
block. -/
def Obligations.InvCipherInvertsCipher : Prop :=
  ∀ key b : List Byte, key.length = 16 → b.length = 16 →
    invCipher (keyExpansion key) (cipher (keyExpansion key) b) = b ∧
    cipher (keyExpansion key) (invCipher (keyExpansion key) b) = b

/-- R155: ciphertext block `j` is the cipher of plaintext block `j` XOR the previous ciphertext block,
the IV before the first. The round keys it runs under are those of the 44 words `w` of R131, and the
cipher is the rounds of R133 to R137 over the states `r`. -/
def Obligations.CbcEncChainsTheBlocks : Prop :=
  (∀ key iv p : List Byte, key.length = 16 → iv.length = 16 → 0 < p.length → p.length % 16 = 0 →
    ∀ c, c = cbcEnc (keyExpansion key) iv p →
      c.length = p.length ∧
      ∀ j, j < p.length / 16 →
        (c.drop (16 * j)).take 16 =
          cipher (keyExpansion key)
            (List.zipWith (· ^^^ ·) ((p.drop (16 * j)).take 16)
              (if j = 0 then iv else (c.drop (16 * (j - 1))).take 16))) ∧
  (∀ key : List Byte, key.length = 16 →
    (keyExpansion key).length = 11 ∧
    ∃ w : Nat → List Byte,
      (∀ i, i < 4 → w i =
        [key.getD (4 * i) 0, key.getD (4 * i + 1) 0, key.getD (4 * i + 2) 0,
          key.getD (4 * i + 3) 0]) ∧
      (∀ i u, 4 ≤ i → i < 44 → u = w (i - 1) → w i =
        List.zipWith (· ^^^ ·) (w (i - 4))
          (if i % 4 = 0 then
            [sbox (u.getD 1 0) ^^^
                [0x01#8, 0x02#8, 0x04#8, 0x08#8, 0x10#8, 0x20#8, 0x40#8, 0x80#8, 0x1b#8,
                  0x36#8].getD (i / 4 - 1) 0,
              sbox (u.getD 2 0), sbox (u.getD 3 0), sbox (u.getD 0 0)]
          else u)) ∧
      ∀ r, r < 11 →
        (keyExpansion key).getD r [] = w (4 * r) ++ w (4 * r + 1) ++ w (4 * r + 2) ++
          w (4 * r + 3)) ∧
  ∀ key b : List Byte, key.length = 16 → b.length = 16 → ∀ rk, rk = keyExpansion key →
    ∃ r : Nat → List Byte,
      r 0 = List.zipWith (· ^^^ ·) b (rk.getD 0 []) ∧
      (∀ n i c, 1 ≤ n → n ≤ 9 → i < 4 → c < 4 →
        ∀ x : Nat → Byte,
          (∀ k, x k = sbox ((r (n - 1)).getD (k % 4 + 4 * ((c + k % 4) % 4)) 0)) →
          (r n).length = 16 ∧
          (r n).getD (i + 4 * c) 0 =
            gmul 0x02 (x i) ^^^ gmul 0x03 (x (i + 1)) ^^^ x (i + 2) ^^^ x (i + 3) ^^^
              (rk.getD n []).getD (i + 4 * c) 0) ∧
      (cipher rk b).length = 16 ∧
      ∀ i c, i < 4 → c < 4 →
        (cipher rk b).getD (i + 4 * c) 0 =
          sbox ((r 9).getD (i + 4 * ((c + i) % 4)) 0) ^^^ (rk.getD 10 []).getD (i + 4 * c) 0

/-- R157: `CbcDec` undoes `CbcEnc`. -/
def Obligations.CbcDecInvertsCbcEnc : Prop :=
  ∀ key iv p : List Byte, key.length = 16 → iv.length = 16 → 0 < p.length → p.length % 16 = 0 →
    cbcDec (keyExpansion key) iv (cbcEnc (keyExpansion key) iv p) = p

/-- R152: `Unpad` accepts a string of whole blocks exactly when it is `Pad(M)` for some `M`, and then
answers `M`; its two failures are a last byte outside 1 to 16, and one of the last bytes that
differs from it. -/
def Obligations.UnpadAcceptsExactlyPaddedStrings : Prop :=
  ∀ p : List Byte, 0 < p.length → p.length % 16 = 0 →
    (∀ m, unpad p = .ok m ↔ p = pad m) ∧
    (∀ v, v = (p.getD (p.length - 1) 0).toNat →
      (v < 1 ∨ v > 16 → unpad p = .error ⟨.invalidPadding, 1, 0⟩) ∧
      (1 ≤ v → v ≤ 16 → (∃ k, p.length - v ≤ k ∧ k < p.length ∧ (p.getD k 0).toNat ≠ v) →
        unpad p = .error ⟨.invalidPadding, 2, 0⟩) ∧
      (1 ≤ v → v ≤ 16 → (∀ k, p.length - v ≤ k → k < p.length → (p.getD k 0).toNat = v) →
        unpad p = .ok (p.take (p.length - v))))

/-- R158, R159: a sequence is what one of the nine rows admits; the scan finds nothing exactly in
well-formed UTF-8; what it finds is the offset behind a well-formed prefix at which no row of the
table matches. -/
def Obligations.Utf8ScanDecidesWellFormedness : Prop :=
  (∀ b : List Byte, Utf8Sequence b ↔
    ∃ row ∈ ([[(0x00, 0x7f)],
      [(0xc2, 0xdf), (0x80, 0xbf)],
      [(0xe0, 0xe0), (0xa0, 0xbf), (0x80, 0xbf)],
      [(0xe1, 0xec), (0x80, 0xbf), (0x80, 0xbf)],
      [(0xed, 0xed), (0x80, 0x9f), (0x80, 0xbf)],
      [(0xee, 0xef), (0x80, 0xbf), (0x80, 0xbf)],
      [(0xf0, 0xf0), (0x90, 0xbf), (0x80, 0xbf), (0x80, 0xbf)],
      [(0xf1, 0xf3), (0x80, 0xbf), (0x80, 0xbf), (0x80, 0xbf)],
      [(0xf4, 0xf4), (0x80, 0x8f), (0x80, 0xbf), (0x80, 0xbf)]] : List (List (Nat × Nat))),
      List.Forall₂ (fun x r => r.1 ≤ x.toNat ∧ x.toNat ≤ r.2) b row) ∧
  (∀ m : List Byte,
    WellFormedUtf8 m ↔ ∃ parts : List (List Byte), m = parts.flatten ∧ ∀ p ∈ parts,
      Utf8Sequence p) ∧
  ∀ m : List Byte,
    (utf8FirstBad m = none ↔ WellFormedUtf8 m) ∧
    ∀ i, utf8FirstBad m = some i ↔
      i < m.length ∧ WellFormedUtf8 (m.take i) ∧ ∀ k, ¬ Utf8Sequence ((m.drop i).take k)

/-- R168: what `ENC` delivers, `DEC` with the same password turns back into the plaintext, for every
password and every well-formed UTF-8 plaintext that fits, and every draw with `ok = 1`. -/
def Obligations.EncThenDecGivesThePlaintext : Prop :=
  ∀ s : State, s.env.par.ok = true → s.opnd.pwlen.toNat ≤ s.env.par.pwCap →
    16 * (s.opnd.dlen.toNat / 16 + 2) ≤ s.env.par.dCap → s.nextDraw.ok = true →
    WellFormedUtf8 s.data →
    ∃ t, exec .enc s = .next t ∧ t.Succeeded ∧
      ∀ s' : State, s'.env.par = s.env.par → s'.opnd.pwlen = s.opnd.pwlen →
        s'.bufs.pw = s.bufs.pw → s'.opnd.dlen = t.out.olen → s'.bufs.din = t.out.dout →
        ∃ t', exec .dec s' = .next t' ∧ t'.Delivers s.data

/-! ### The quantizer -/

/-- R179: `RoundInt` is to nearest, ties to even. -/
def Obligations.RoundIntIsNearestTiesToEven : Prop :=
  ∀ (n : Int) (d : Nat), 0 < d →
    2 * |n - roundInt n d * d| ≤ d ∧ (2 * |n - roundInt n d * d| = d → roundInt n d % 2 = 0)

/-- R178: a finite `RoundF(x)` has at most `p` significant bits, an exponent no lower than the
format's, and is within half a unit in the last place of `x`, ties to the even significand (where
the number below it is half as far away, within a quarter of it from there: nearest); an
infinite one comes only from an `x` at or above half a unit beyond the largest finite number;
`RoundF(0)` is a zero. -/
def Obligations.RoundFloatIsNearestTiesToEven : Prop :=
  (∀ (f : Flen) (neg : Bool) (den : Nat), 0 < den →
    ∃ neg' k, roundFloat f neg 0 den = .fin neg' 0 k) ∧
  ∀ (f : Flen) (neg : Bool) (num den : Nat), 0 < num → 0 < den →
    match roundFloat f neg num den with
    | .fin neg' m k =>
      neg' = neg ∧ m < 2 ^ precision f ∧
        1 - (expBias f : Int) - (precision f - 1) ≤ k ∧ k ≤ (expBias f : Int) - (precision f - 1) ∧
        (m < 2 ^ (precision f - 1) → k = 1 - (expBias f : Int) - (precision f - 1)) ∧
        (m = 2 ^ (precision f - 1) → 1 - (expBias f : Int) - (precision f - 1) < k →
          4 * (m * (2 : ℚ) ^ k - (num : ℚ) / den) ≤ (2 : ℚ) ^ k) ∧
        2 * |(num : ℚ) / den - m * (2 : ℚ) ^ k| ≤ (2 : ℚ) ^ k ∧
        (2 * |(num : ℚ) / den - m * (2 : ℚ) ^ k| = (2 : ℚ) ^ k → m % 2 = 0)
    | .inf neg' =>
      neg' = neg ∧
        ((2 : ℚ) ^ precision f - 1 / 2) * (2 : ℚ) ^ ((expBias f : Int) - (precision f - 1)) ≤
          (num : ℚ) / den

/-- R176, R177: the pattern made for a finite number of the format has that number as its value; and
the value of a pattern by its fields, in either format. -/
def Obligations.PatternHasItsValue : Prop :=
  (∀ (f : Flen) (neg : Bool) (m : Nat) (k : Int), m < 2 ^ precision f →
    1 - (expBias f : Int) - (precision f - 1) ≤ k → k ≤ (expBias f : Int) - (precision f - 1) →
    (m < 2 ^ (precision f - 1) → k = 1 - (expBias f : Int) - (precision f - 1)) →
    floatOf f (patternOf f (.fin neg m k)) = some (.fin neg m k)) ∧
  (∀ (a : Sample) (e : Nat) (fr : Nat),
    e = (a.extractLsb' 23 8).toNat → fr = (a.extractLsb' 0 23).toNat →
    floatOf .f32 a =
      if e = 255 then if fr = 0 then some (.inf (a.getLsbD 31)) else none
      else some (.fin (a.getLsbD 31) (if e = 0 then fr else 2 ^ 23 + fr) ((max e 1 : Nat) - 150))) ∧
  ∀ (a : Sample) (e : Nat) (fr : Nat),
    e = (a.extractLsb' 52 11).toNat → fr = (a.extractLsb' 0 52).toNat →
    floatOf .f64 a =
      if e = 2047 then if fr = 0 then some (.inf (a.getLsbD 63)) else none
      else some (.fin (a.getLsbD 63) (if e = 0 then fr else 2 ^ 52 + fr) ((max e 1 : Nat) - 1075))

/-- R187: quantizing what dequantization gives returns the integer, for every int16 value and both
formats. -/
def Obligations.QuantInvertsDequant : Prop :=
  ∀ (f : Flen) (q : Int), -32768 ≤ q → q ≤ 32767 → quant1 f (dequant1 f q) = .ok q

/-! ### The LSB unit -/

/-- R188: `QNT`; and R181: what quantizing one sample is, from its value (`floatOf`, R177), the
product rounded to the format (R180, `roundFloat`), `RoundInt` of it, and the int16 range. -/
def Obligations.QntCommand : Prop :=
  decode 0x00000010#32 = .ok .qnt ∧
  (∀ s : State, s.env.par.ok = true →
    (s.sampleCount > s.env.par.sCap →
      ∃ t, exec .qnt s = .next t ∧ t.FailedWith 9 3 s.sampleCount ∧ Untouched s t ∧ NoDraw s t) ∧
    (∀ i0 e, s.SampleFailsAt i0 e →
      ∃ t, exec .qnt s = .next t ∧ t.FailedWith 6 i0 (overflowInfo e) ∧ Untouched s t ∧
        NoDraw s t) ∧
    (∀ qs, s.QuantizesTo qs →
      ∃ t, exec .qnt s = .next t ∧ t.Succeeded ∧ t.out.ons.toNat = s.sampleCount ∧
        (∀ i, Memory.read t.out.qout i =
          if i < s.sampleCount then BitVec.ofInt 16 (qs.getD i 0) else 0) ∧
        t.out.olen = 0 ∧ t.out.obits = 0 ∧ t.out.resl = 0 ∧ t.out.resh = 0 ∧ t.out.NoContext ∧
        AllZero t.out.dout ∧ AllZero t.out.sout ∧ Untouched s t ∧ NoDraw s t)) ∧
  ∀ (f : Flen) (a : Sample),
    (floatOf f a = none → quant1 f a = .error .nonfinite) ∧
    (∀ neg, floatOf f a = some (.inf neg) → quant1 f a = .error .nonfinite) ∧
    ∀ neg m k, floatOf f a = some (.fin neg m k) →
      ∀ y, y = roundFloat f neg (m * 32767 * 2 ^ k.toNat) (2 ^ (-k).toNat) →
        (∀ neg', y = .inf neg' → quant1 f a = .error .range) ∧
        ∀ neg' m' k', y = .fin neg' m' k' →
          ∀ r, r = roundInt ((if neg' then -1 else 1) * ((m' * 2 ^ k'.toNat : Nat) : Int))
              (2 ^ (-k').toNat) →
            (r < -32768 ∨ r > 32767 → quant1 f a = .error .range) ∧
            (-32768 ≤ r → r ≤ 32767 → quant1 f a = .ok r)

/-- R203: `EMB`: a failing sample comes before a capacity failure; on success every output sample is
the dequantized integer, its LSB set from the bitstream of `DIN` below `NBITS`. -/
def Obligations.EmbCommand : Prop :=
  decode 0x00000011#32 = .ok .emb ∧ ∀ s : State, s.env.par.ok = true →
    (s.sampleCount > s.env.par.sCap →
      ∃ t, exec .emb s = .next t ∧ t.FailedWith 9 3 s.sampleCount ∧ Untouched s t ∧ NoDraw s t) ∧
    (∀ i0 e, s.SampleFailsAt i0 e →
      ∃ t, exec .emb s = .next t ∧ t.FailedWith 6 i0 (overflowInfo e) ∧ Untouched s t ∧
        NoDraw s t) ∧
    (∀ qs, s.QuantizesTo qs → s.opnd.nbits.toNat > s.sampleCount →
      ∃ t, exec .emb s = .next t ∧ t.FailedWith 1 s.opnd.nbits.toNat s.sampleCount ∧
        Untouched s t ∧ NoDraw s t) ∧
    (∀ qs, s.QuantizesTo qs → s.opnd.nbits.toNat ≤ s.sampleCount →
      ∃ t, exec .emb s = .next t ∧ t.Succeeded ∧ t.out.ons.toNat = s.sampleCount ∧
        (∀ i, Memory.read t.out.sout i =
          if i < s.opnd.nbits.toNat then
            dequant1 s.env.par.flen (setLsb (qs.getD i 0) (bufferBit s.bufs.din i))
          else if i < s.sampleCount then dequant1 s.env.par.flen (qs.getD i 0) else 0) ∧
        t.out.olen = 0 ∧ t.out.obits = 0 ∧ t.out.resl = 0 ∧ t.out.resh = 0 ∧ t.out.NoContext ∧
        AllZero t.out.dout ∧ AllZero t.out.qout ∧ Untouched s t ∧ NoDraw s t)

/-- R208: `EXT`, both forms: all `N` samples are guarded; the LSBs of the first `cnt` are packed into
`DOUT`, most significant bit first, the rest of `DOUT` zero. -/
def Obligations.ExtCommand : Prop :=
  decode 0x00000012#32 = .ok (.ext false) ∧ decode 0x00000112#32 = .ok (.ext true) ∧
  ∀ (s : State) (mb : Bool), s.env.par.ok = true →
    (s.sampleCount > s.env.par.sCap →
      ∃ t, exec (.ext mb) s = .next t ∧ t.FailedWith 9 3 s.sampleCount ∧ Untouched s t ∧
        NoDraw s t) ∧
    (∀ i0 e, s.SampleFailsAt i0 e →
      ∃ t, exec (.ext mb) s = .next t ∧ t.FailedWith 6 i0 (overflowInfo e) ∧ Untouched s t ∧
        NoDraw s t) ∧
    (∀ qs, s.QuantizesTo qs →
      ∀ cnt, cnt = (if mb then min s.opnd.maxbits.toNat s.sampleCount else s.sampleCount) →
      ∃ t, exec (.ext mb) s = .next t ∧ t.Succeeded ∧ t.out.obits.toNat = cnt ∧
        t.out.olen.toNat = (cnt + 7) / 8 ∧
        (∀ i, bufferBit t.out.dout i = (decide (i < cnt) && getLsb (qs.getD i 0))) ∧
        t.out.ons = 0 ∧ t.out.resl = 0 ∧ t.out.resh = 0 ∧ t.out.NoContext ∧
        AllZero t.out.sout ∧ AllZero t.out.qout ∧ Untouched s t ∧ NoDraw s t)

/-- R219, R217: `XTD`: the bytes the LSBs spell, up to the first byte offset at which the delimiter
stands; with none, `DelimiterNotFound`. -/
def Obligations.XtdCommand : Prop :=
  decode 0x00000013#32 = .ok .xtd ∧ ∀ s : State, s.env.par.ok = true →
    (s.sampleCount > s.env.par.sCap →
      ∃ t, exec .xtd s = .next t ∧ t.FailedWith 9 3 s.sampleCount ∧ Untouched s t ∧ NoDraw s t) ∧
    (∀ i0 e, s.SampleFailsAt i0 e →
      ∃ t, exec .xtd s = .next t ∧ t.FailedWith 6 i0 (overflowInfo e) ∧ Untouched s t ∧
        NoDraw s t) ∧
    (∀ qs n, s.QuantizesTo qs → FirstDelimiterAt (bytesOf (qs.map getLsb)) n →
      ∃ t, exec .xtd s = .next t ∧ t.Delivers ((bytesOf (qs.map getLsb)).take n) ∧
        t.out.olen.toNat = n ∧ Untouched s t ∧ NoDraw s t) ∧
    (∀ qs, s.QuantizesTo qs → (∀ n, ¬ FirstDelimiterAt (bytesOf (qs.map getLsb)) n) →
      ∃ t, exec .xtd s = .next t ∧ t.FailedWith 2 (s.sampleCount / 8) s.sampleCount ∧
        Untouched s t ∧ NoDraw s t)

/-- R196, R197, R199: packing a bit sequence keeps every bit, fills with zeros, and takes `ceil(n / 8)`
bytes; the bytes of a byte string's expansion are the string. -/
def Obligations.PackingKeepsEveryBit : Prop :=
  (∀ b : List Bool, (packBits b).length = (b.length + 7) / 8 ∧
    (∀ i, i < b.length → bitOf (packBits b) i = b.getD i false) ∧
    ∀ i, b.length ≤ i → bitOf (packBits b) i = false) ∧
  ∀ b : List Byte, bytesOf (bitsOf b (8 * b.length)) = b

/-- R200, R201, R202: `SetLsb` arithmetically; it stays in range, keeps bits 15:1, and `GetLsb` reads
back the bit, which is the parity. -/
def Obligations.SetLsbChangesBitZeroOnly : Prop :=
  ∀ (q : Int) (b : Bool), -32768 ≤ q → q ≤ 32767 →
    setLsb q b = q - q % 2 + (if b then 1 else 0) ∧ -32768 ≤ setLsb q b ∧ setLsb q b ≤ 32767 ∧
    (u16 (setLsb q b)).extractLsb' 1 15 = (u16 q).extractLsb' 1 15 ∧ getLsb (setLsb q b) = b ∧
    (getLsb q = true ↔ q % 2 = 1)

/-- R210: what `EMB` hid, `EXT` with `MB = 1` and `MAXBITS = NBITS` on the output samples returns, bit
for bit; and the output samples quantize to the input's quantized samples with those LSBs set. -/
def Obligations.EmbThenExtGivesTheBits : Prop :=
  ∀ s t : State, s.env.par.ok = true → exec .emb s = .next t → t.Succeeded →
    ∀ s' : State, s'.env.par = s.env.par → s'.bufs.sin = t.out.sout →
      s'.opnd.nchan = s.opnd.nchan → s'.opnd.nfrm = s.opnd.nfrm →
      s'.opnd.maxbits = s.opnd.nbits →
      (∃ t', exec (.ext true) s' = .next t' ∧ t'.Succeeded ∧ t'.out.obits = s.opnd.nbits ∧
        ∀ i, i < s.opnd.nbits.toNat → bufferBit t'.out.dout i = bufferBit s.bufs.din i) ∧
      ∀ qs, s.QuantizesTo qs → ∀ i, i < s.sampleCount →
        quant1 s.env.par.flen (Memory.read s'.bufs.sin i) =
          .ok (if i < s.opnd.nbits.toNat then setLsb (qs.getD i 0) (bufferBit s.bufs.din i)
            else qs.getD i 0)

/-! ### The composite flows -/

/-- R223: `HIDE`: the operand checks in their order, none of them with a draw; then one draw, and
`EncryptionError` before `SampleOverflow` before `InsufficientCapacity`; on success the blob
`IV || ciphertext || DELIM` in `DOUT` and in the LSBs of the first samples of `SOUT`. -/
def Obligations.HideCommand : Prop :=
  decode 0x00000020#32 = .ok .hide ∧ ∀ (s : State) (e b : List Byte), s.env.par.ok = true →
    e = s.nextDraw.iv.toList ++
      cbcEnc (keyExpansion (deriveKey s.password)) s.nextDraw.iv.toList (pad s.data) →
    b = e ++ [0x3c, 0x45, 0x4e, 0x44, 0x5f, 0x4f, 0x46, 0x5f, 0x53, 0x45, 0x43, 0x52,
      0x45, 0x54, 0x5f, 0x4d, 0x45, 0x53, 0x53, 0x41, 0x47, 0x45, 0x3e] →
    b.length = 16 * (s.opnd.dlen.toNat / 16 + 2) + 23 ∧
    (s.opnd.pwlen.toNat > s.env.par.pwCap →
      ∃ t, exec .hide s = .next t ∧ t.FailedWith 9 1 s.opnd.pwlen.toNat ∧ Untouched s t ∧
        NoDraw s t) ∧
    (s.opnd.pwlen.toNat ≤ s.env.par.pwCap → s.opnd.dlen.toNat > s.env.par.dCap →
      ∃ t, exec .hide s = .next t ∧ t.FailedWith 9 2 s.opnd.dlen.toNat ∧ Untouched s t ∧
        NoDraw s t) ∧
    (s.opnd.pwlen.toNat ≤ s.env.par.pwCap → s.opnd.dlen.toNat ≤ s.env.par.dCap →
      s.sampleCount > s.env.par.sCap →
      ∃ t, exec .hide s = .next t ∧ t.FailedWith 9 3 s.sampleCount ∧ Untouched s t ∧ NoDraw s t) ∧
    (s.opnd.pwlen.toNat ≤ s.env.par.pwCap → s.opnd.dlen.toNat ≤ s.env.par.dCap →
      s.sampleCount ≤ s.env.par.sCap → b.length > s.env.par.dCap →
      ∃ t, exec .hide s = .next t ∧ t.FailedWith 9 5 b.length ∧ Untouched s t ∧ NoDraw s t) ∧
    (s.opnd.pwlen.toNat ≤ s.env.par.pwCap → s.sampleCount ≤ s.env.par.sCap →
      b.length ≤ s.env.par.dCap →
      (s.nextDraw.ok = false →
        ∃ t, exec .hide s = .next t ∧ t.FailedWith 7 1 0 ∧ Untouched s t ∧ OneDraw s t) ∧
      (s.nextDraw.ok = true → ∀ i0 f, s.SampleFailsAt i0 f →
        ∃ t, exec .hide s = .next t ∧ t.FailedWith 6 i0 (overflowInfo f) ∧ Untouched s t ∧
          OneDraw s t) ∧
      (s.nextDraw.ok = true → ∀ qs, s.QuantizesTo qs → 8 * b.length > s.sampleCount →
        ∃ t, exec .hide s = .next t ∧ t.FailedWith 1 (8 * b.length) s.sampleCount ∧
          Untouched s t ∧ OneDraw s t) ∧
      (s.nextDraw.ok = true → ∀ qs, s.QuantizesTo qs → 8 * b.length ≤ s.sampleCount →
        ∃ t, exec .hide s = .next t ∧ t.Succeeded ∧ t.out.ons.toNat = s.sampleCount ∧
          t.out.olen.toNat = b.length ∧ (∀ k, Memory.read t.out.dout k = b.getD k 0) ∧
          (∀ i, Memory.read t.out.sout i =
            if i < 8 * b.length then dequant1 s.env.par.flen (setLsb (qs.getD i 0) (bitOf b i))
            else if i < s.sampleCount then dequant1 s.env.par.flen (qs.getD i 0) else 0) ∧
          t.out.obits = 0 ∧ t.out.resl = 0 ∧ t.out.resh = 0 ∧ t.out.NoContext ∧
          AllZero t.out.qout ∧ Untouched s t ∧ OneDraw s t))

/-- R225: `REVEAL`: the range of the password, the range of the samples, `SampleOverflow`,
`DelimiterNotFound`, then what `DecryptBytes` answers on the bytes before the first delimiter. -/
def Obligations.RevealCommand : Prop :=
  decode 0x00000021#32 = .ok .reveal ∧ ∀ s : State, s.env.par.ok = true →
    (s.opnd.pwlen.toNat > s.env.par.pwCap →
      ∃ t, exec .reveal s = .next t ∧ t.FailedWith 9 1 s.opnd.pwlen.toNat ∧ Untouched s t ∧
        NoDraw s t) ∧
    (s.opnd.pwlen.toNat ≤ s.env.par.pwCap →
      (s.sampleCount > s.env.par.sCap →
        ∃ t, exec .reveal s = .next t ∧ t.FailedWith 9 3 s.sampleCount ∧ Untouched s t ∧
          NoDraw s t) ∧
      (∀ i0 e, s.SampleFailsAt i0 e →
        ∃ t, exec .reveal s = .next t ∧ t.FailedWith 6 i0 (overflowInfo e) ∧ Untouched s t ∧
          NoDraw s t) ∧
      (∀ qs, s.QuantizesTo qs → (∀ n, ¬ FirstDelimiterAt (bytesOf (qs.map getLsb)) n) →
        ∃ t, exec .reveal s = .next t ∧ t.FailedWith 2 (s.sampleCount / 8) s.sampleCount ∧
          Untouched s t ∧ NoDraw s t) ∧
      (∀ qs n, s.QuantizesTo qs → FirstDelimiterAt (bytesOf (qs.map getLsb)) n →
        (∀ m, decryptBytes ((bytesOf (qs.map getLsb)).take n) s.password = .ok m →
          ∃ t, exec .reveal s = .next t ∧ t.Delivers m ∧ Untouched s t ∧ NoDraw s t) ∧
        (∀ e, decryptBytes ((bytesOf (qs.map getLsb)).take n) s.password = .error e →
          ∃ t, exec .reveal s = .next t ∧ t.FailedWith e.kind.code e.info0 e.info1 ∧
            Untouched s t ∧ NoDraw s t)))

/-- R227: what `HIDE` hid, `REVEAL` with the same password finds, when the plaintext is well-formed
UTF-8 and the envelope triggers no early match. -/
def Obligations.HideThenRevealGivesThePlaintext : Prop :=
  ∀ s t : State, s.env.par.ok = true → exec .hide s = .next t → t.Succeeded →
    WellFormedUtf8 s.data →
    FirstDelimiterAt (Memory.readRun t.out.dout 0 t.out.olen.toNat) (t.out.olen.toNat - 23) →
    ∀ s' : State, s'.env.par = s.env.par → s'.opnd.pwlen = s.opnd.pwlen →
      s'.bufs.pw = s.bufs.pw → s'.opnd.nchan = s.opnd.nchan → s'.opnd.nfrm = s.opnd.nfrm →
      s'.bufs.sin = t.out.sout →
      ∃ t', exec .reveal s' = .next t' ∧ t'.Delivers s.data

/-! ### The capacity calculator -/

/-- R236: `CAP` delivers `floor(ARG / 8) - 55` as a 64-bit two's complement number, and cannot fail. -/
def Obligations.CapCommand : Prop :=
  decode 0x00000030#32 = .ok .cap ∧ ∀ s : State, ∃ t, exec .cap s = .next t ∧ t.Succeeded ∧
    (t.out.resh ++ t.out.resl : BitVec 64).toInt = (s.opnd.arg.toNat : Int) / 8 - 55 ∧
    t.out.olen = 0 ∧ t.out.obits = 0 ∧ t.out.ons = 0 ∧ t.out.NoContext ∧ AllZero t.out.dout ∧
    AllZero t.out.sout ∧ AllZero t.out.qout ∧ Untouched s t ∧ NoDraw s t

/-- R239: `RQB` delivers `8 * ARG`, exact, and cannot fail. -/
def Obligations.RqbCommand : Prop :=
  decode 0x00000031#32 = .ok .rqb ∧ ∀ s : State, ∃ t, exec .rqb s = .next t ∧ t.Succeeded ∧
    (t.out.resh ++ t.out.resl : BitVec 64).toInt = 8 * (s.opnd.arg.toNat : Int) ∧
    t.out.olen = 0 ∧ t.out.obits = 0 ∧ t.out.ons = 0 ∧ t.out.NoContext ∧ AllZero t.out.dout ∧
    AllZero t.out.sout ∧ AllZero t.out.qout ∧ Untouched s t ∧ NoDraw s t

/-- R237 (c): a plaintext of `CAP` bytes always fits: `HIDE` of it needs no more samples than `CAP`
was asked about. -/
def Obligations.CapIsSufficient : Prop :=
  ∀ length samples : Nat, (length : Int) ≤ maxUsableBytes samples → 8 * blobSize length ≤ samples
end

