-- ==== Sys2Proof/Laws/Memory.lean ====
section
/-! SUPPORT. What the memory operations do: reads after writes, and the canonical form kept. -/

namespace Sys2Proof

variable {w : Nat}

/-- A byte space is a list of the host interface's cells. -/
theorem Memory.byte_space_is_cells : Memory 8 = List Host.Cell := rfl

@[simp] theorem Memory.read_nil (i : Nat) : Memory.read ([] : Memory w) i = Memory.blank := rfl

@[simp] theorem Memory.read_cons (a : Nat) (v : BitVec w) (m : Memory w) (i : Nat) :
    Memory.read ((a, v) :: m) i = if i = a then v else Memory.read m i := rfl

@[simp] theorem Memory.read_cleared (i : Nat) :
    Memory.read (Memory.cleared : Memory w) i = Memory.blank := rfl

theorem Memory.wf_nil : Memory.wf ([] : Memory w) := ⟨.nil, by simp⟩

theorem Memory.wf_cleared : Memory.wf (Memory.cleared : Memory w) := Memory.wf_nil

/-- Canonical form of a list with one more cell in front. -/
theorem Memory.wf_cons {a : Nat} {v : BitVec w} {m : Memory w} :
    Memory.wf ((a, v) :: m) ↔ (∀ c ∈ m, a < c.1) ∧ v ≠ Memory.blank ∧ Memory.wf m := by
  simp only [Memory.wf, List.pairwise_cons, List.mem_cons, forall_eq_or_imp]
  tauto

/-- An index below every listed one reads as unlisted. -/
theorem Memory.read_of_below {m : Memory w} {i : Nat} (h : ∀ c ∈ m, i < c.1) :
    Memory.read m i = Memory.blank := by
  induction m with
  | nil => rfl
  | cons c m ih =>
    have hc : i < c.1 := h c (by simp)
    obtain ⟨a, v⟩ := c
    rw [Memory.read_cons, if_neg (by simp only at hc; omega)]
    exact ih fun d hd => h d (by simp [hd])

/-- An index no cell lists reads as unlisted. -/
theorem Memory.read_of_not_listed {m : Memory w} {i : Nat} (h : ∀ c ∈ m, c.1 ≠ i) :
    Memory.read m i = Memory.blank := by
  induction m with
  | nil => rfl
  | cons c m ih =>
    obtain ⟨a, v⟩ := c
    have hc : a ≠ i := h (a, v) (by simp)
    rw [Memory.read_cons, if_neg (Ne.symm hc)]
    exact ih fun d hd => h d (by simp [hd])

/-- Outside the range its cells lie in, a space reads as unlisted. -/
theorem Memory.read_of_within {m : Memory w} {n i : Nat} (h : Memory.within n m) (hi : n ≤ i) :
    Memory.read m i = Memory.blank :=
  Memory.read_of_not_listed fun c hc => by have := h c hc; omega

/-- A cell of a canonical list is what its index reads as. -/
theorem Memory.read_of_mem {m : Memory w} (h : Memory.wf m) {c : Nat × BitVec w} (hc : c ∈ m) :
    Memory.read m c.1 = c.2 := by
  induction m with
  | nil => simp at hc
  | cons d m ih =>
    obtain ⟨a, v⟩ := d
    rw [Memory.wf_cons] at h
    rcases List.mem_cons.1 hc with rfl | hc
    · simp
    · have := h.1 c hc
      rw [Memory.read_cons, if_neg (by omega)]
      exact ih h.2.2 hc

/-! ### one write -/

/-- The cells after a write are old ones at other indices, or the one written. -/
theorem Memory.mem_write {m : Memory w} {i : Nat} {v : BitVec w} {c : Nat × BitVec w}
    (h : c ∈ Memory.write m i v) : c ∈ m ∨ c = (i, v) ∧ v ≠ Memory.blank := by
  induction m with
  | nil =>
    unfold Memory.write at h
    split at h
    · simp at h
    · simp_all
  | cons d m ih =>
    obtain ⟨a, u⟩ := d
    unfold Memory.write at h
    split_ifs at h
    · exact .inl h
    · rcases List.mem_cons.1 h with rfl | h
      · exact .inr ⟨rfl, by assumption⟩
      · exact .inl h
    · exact .inl (List.mem_cons_of_mem _ h)
    · rcases List.mem_cons.1 h with rfl | h
      · exact .inr ⟨rfl, by assumption⟩
      · exact .inl (List.mem_cons_of_mem _ h)
    · rcases List.mem_cons.1 h with rfl | h
      · exact .inl (by simp)
      · rcases ih h with h | h
        · exact .inl (List.mem_cons_of_mem _ h)
        · exact .inr h

/-- A write keeps the canonical form. -/
theorem Memory.wf_write {m : Memory w} (h : Memory.wf m) (i : Nat) (v : BitVec w) :
    Memory.wf (Memory.write m i v) := by
  induction m with
  | nil =>
    unfold Memory.write
    split
    · exact Memory.wf_nil
    · exact Memory.wf_cons.2 ⟨by simp, by assumption, Memory.wf_nil⟩
  | cons d m ih =>
    obtain ⟨a, u⟩ := d
    have h' := Memory.wf_cons.1 h
    unfold Memory.write
    split_ifs with h1 h2 h2 h3
    · exact h
    · refine Memory.wf_cons.2 ⟨?_, h2, h⟩
      intro c hc
      rcases List.mem_cons.1 hc with rfl | hc
      · exact h1
      · exact h1.trans (h'.1 c hc)
    · exact h'.2.2
    · exact Memory.wf_cons.2 ⟨h2 ▸ h'.1, h3, h'.2.2⟩
    · refine Memory.wf_cons.2 ⟨?_, h'.2.1, ih h'.2.2⟩
      intro c hc
      rcases Memory.mem_write hc with hc | ⟨rfl, -⟩
      · exact h'.1 c hc
      · show a < i
        omega

/-- A write inside a space of `n` elements keeps every cell inside it. -/
theorem Memory.within_write {m : Memory w} {n i : Nat} {v : BitVec w} (h : Memory.within n m)
    (hi : i < n) : Memory.within n (Memory.write m i v) := by
  intro c hc
  rcases Memory.mem_write hc with hc | ⟨rfl, -⟩
  · exact h c hc
  · exact hi

/-- A read after a write: the value written, at its index; elsewhere what was there. -/
theorem Memory.read_write {m : Memory w} (h : Memory.wf m) (i : Nat) (v : BitVec w) (j : Nat) :
    Memory.read (Memory.write m i v) j = if j = i then v else Memory.read m j := by
  induction m with
  | nil =>
    unfold Memory.write
    split_ifs <;> simp_all
  | cons d m ih =>
    obtain ⟨a, u⟩ := d
    have h' := Memory.wf_cons.1 h
    have below : j ≤ a → Memory.read m j = Memory.blank := fun hj =>
      Memory.read_of_below fun c hc => by have := h'.1 c hc; omega
    unfold Memory.write
    split_ifs with h1 h2 h2 h3 <;> (try simp only [Memory.read_cons, ih h'.2.2]) <;>
      (try split_ifs) <;> first | rfl | omega | (rw [below (by omega)]; simp_all)

/-! ### runs -/

@[simp] theorem Memory.length_readRun (m : Memory w) (i n : Nat) :
    (Memory.readRun m i n).length = n := by simp [Memory.readRun]

/-- The `k`-th element of a run is the element at its index. -/
theorem Memory.getElem_readRun (m : Memory w) (i n k : Nat) (h : k < (Memory.readRun m i n).length) :
    (Memory.readRun m i n)[k] = Memory.read m (i + k) := by simp [Memory.readRun]

/-- The `k`-th element of a run read from 0, with 0 past its end. -/
theorem Memory.getD_readRun (m : Memory w) (n k : Nat) :
    (Memory.readRun m 0 n).getD k Memory.blank =
      if k < n then Memory.read m k else Memory.blank := by
  by_cases hk : k < n
  · rw [List.getD_eq_getElem _ _ (by simpa using hk), Memory.getElem_readRun, if_pos hk, Nat.zero_add]
  · rw [List.getD_eq_default _ _ (by simpa using hk), if_neg hk]

/-- The cells of a run lie at its indices. -/
theorem Memory.mem_cells {i : Nat} {vs : List (BitVec w)} {c : Nat × BitVec w}
    (h : c ∈ Memory.cells i vs) :
    i ≤ c.1 ∧ c.1 < i + vs.length ∧ c.2 ≠ Memory.blank ∧ c.2 ∈ vs := by
  induction vs generalizing i with
  | nil => simp [Memory.cells] at h
  | cons v vs ih =>
    unfold Memory.cells at h
    have step : c ∈ Memory.cells (i + 1) vs →
        i ≤ c.1 ∧ c.1 < i + (v :: vs).length ∧ c.2 ≠ Memory.blank ∧ c.2 ∈ v :: vs := fun h => by
      obtain ⟨h1, h2, h3, h4⟩ := ih h
      exact ⟨by omega, by simp only [List.length_cons]; omega, h3, List.mem_cons_of_mem _ h4⟩
    split_ifs at h with hv
    · exact step h
    · rcases List.mem_cons.1 h with rfl | h
      · exact ⟨le_rfl, by simp, hv, by simp⟩
      · exact step h

/-- The cells of a run are in canonical form. -/
theorem Memory.wf_cells (i : Nat) (vs : List (BitVec w)) : Memory.wf (Memory.cells i vs) := by
  induction vs generalizing i with
  | nil => exact Memory.wf_nil
  | cons v vs ih =>
    unfold Memory.cells
    split_ifs with hv
    · exact ih _
    · exact Memory.wf_cons.2 ⟨fun c hc => by have := (Memory.mem_cells hc).1; omega, hv, ih _⟩

/-- Reading the cells of a run gives its elements. -/
theorem Memory.read_cells (i : Nat) (vs : List (BitVec w)) (j : Nat) :
    Memory.read (Memory.cells i vs) j =
      if i ≤ j then vs.getD (j - i) Memory.blank else Memory.blank := by
  induction vs generalizing i with
  | nil => simp [Memory.cells]
  | cons v vs ih =>
    unfold Memory.cells
    rcases lt_trichotomy j i with h | h | h
    · rw [if_neg (show ¬ i ≤ j by omega)]
      split_ifs with hv
      · rw [ih, if_neg (by omega)]
      · rw [Memory.read_cons, if_neg (by omega), ih, if_neg (by omega)]
    · subst h
      split_ifs with hv h1
      · rw [ih, if_neg (by omega)]; simp [hv]
      · omega
      · simp
      · omega
    · have e : j - i = (j - (i + 1)) + 1 := by omega
      rw [e, List.getD_cons_succ, if_pos h.le]
      split_ifs with hv
      · rw [ih, if_pos (by omega)]
      · rw [Memory.read_cons, if_neg (by omega), ih, if_pos (by omega)]

/-- A run stored into a cleared buffer is its cells. -/
theorem Memory.writeRun_cleared (vs : List (BitVec w)) :
    Memory.writeRun Memory.cleared 0 vs = Memory.cells 0 vs := by
  simp [Memory.writeRun, Memory.cleared]

/-- Reading a cleared buffer after a run was stored from index 0. -/
theorem Memory.read_writeRun_cleared (vs : List (BitVec w)) (j : Nat) :
    Memory.read (Memory.writeRun Memory.cleared 0 vs) j = vs.getD j Memory.blank := by
  simp [Memory.writeRun_cleared, Memory.read_cells]

/-- A run stored into a cleared buffer reads back whole. -/
theorem Memory.readRun_writeRun_cleared (vs : List (BitVec w)) :
    Memory.readRun (Memory.writeRun Memory.cleared 0 vs) 0 vs.length = vs := by
  apply List.ext_getElem (by simp)
  intro k h1 h2
  rw [Memory.getElem_readRun, Nat.zero_add, Memory.read_writeRun_cleared,
    List.getD_eq_getElem _ _ h2]

/-- A run stored into a cleared buffer leaves it canonical. -/
theorem Memory.wf_writeRun_cleared (vs : List (BitVec w)) :
    Memory.wf (Memory.writeRun Memory.cleared 0 vs) := by
  rw [Memory.writeRun_cleared]
  exact Memory.wf_cells 0 vs

/-- A run stored into a cleared buffer lies below its length. -/
theorem Memory.within_writeRun_cleared (vs : List (BitVec w)) :
    Memory.within vs.length (Memory.writeRun Memory.cleared 0 vs) := by
  rw [Memory.writeRun_cleared]
  intro c hc
  simpa using (Memory.mem_cells hc).2.1

/-- A run stored anywhere keeps the canonical form. -/
theorem Memory.wf_writeRun {m : Memory w} (h : Memory.wf m) (i : Nat) (vs : List (BitVec w)) :
    Memory.wf (Memory.writeRun m i vs) := by
  have mem : ∀ c ∈ Memory.writeRun m i vs, c ∈ m ∨ c ∈ Memory.cells i vs := by
    intro c hc
    simp only [Memory.writeRun, List.mem_append, List.mem_filter] at hc
    tauto
  refine ⟨?_, fun c hc => ?_⟩
  · unfold Memory.writeRun
    rw [List.append_assoc, List.pairwise_append, List.pairwise_append]
    refine ⟨h.1.filter _, ⟨(Memory.wf_cells i vs).1, h.1.filter _, ?_⟩, ?_⟩
    · intro c hc d hd
      have h1 := (Memory.mem_cells hc).2.1
      have h2 := of_decide_eq_true (List.mem_filter.1 hd).2
      omega
    · intro c hc d hd
      have h1 := of_decide_eq_true (List.mem_filter.1 hc).2
      rcases List.mem_append.1 hd with hd | hd
      · have := (Memory.mem_cells hd).1
        omega
      · have h2 := of_decide_eq_true (List.mem_filter.1 hd).2
        omega
  · rcases mem c hc with hc | hc
    · exact h.2 c hc
    · exact (Memory.mem_cells hc).2.2.1

end Sys2Proof
end

