-- ==== Sys2Proof/Laws/Lengths.lean ====
section
/-! SUPPORT. How long each byte string and sample list is. -/

namespace Sys2Proof.Machine

/-! ### SHA-256 -/

theorem length_shaPadding (n : Nat) :
    (shaPadding n).length = 9 + (55 + 64 - n % 64) % 64 := by
  simp [shaPadding]; omega

@[simp] theorem length_be32 (x : Word) : (be32 x).length = 4 := rfl

@[simp] theorem length_hashBytes (hv : HashValue) : hv.bytes.length = 32 := by
  simp [HashValue.bytes]

@[simp] theorem length_sha256 (m : List Byte) : (sha256 m).length = 32 := by simp [sha256]

/-! ### AES -/

@[simp] theorem length_xorBytes (a b : List Byte) :
    (xorBytes a b).length = min a.length b.length := by simp [xorBytes]

@[simp] theorem length_pieces (k n : Nat) (b : List Byte) : (pieces k n b).length = n := by
  induction n generalizing b with
  | zero => rfl
  | succ n ih => simp [pieces, ih]

/-- Every piece has its `k` bytes when there are enough. -/
theorem length_of_mem_pieces {k n : Nat} {b p : List Byte} (h : k * n ≤ b.length)
    (hp : p ∈ pieces k n b) : p.length = k := by
  induction n generalizing b with
  | zero => simp [pieces] at hp
  | succ n ih =>
    have e : k * (n + 1) = k * n + k := by ring
    rcases List.mem_cons.1 hp with rfl | hp
    · rw [List.length_take]; omega
    · exact ih (by rw [List.length_drop]; omega) hp

@[simp] theorem length_subBytes (s : List Byte) : (subBytes s).length = s.length := by
  simp [subBytes]

@[simp] theorem length_invSubBytes (s : List Byte) : (invSubBytes s).length = s.length := by
  simp [invSubBytes]

@[simp] theorem length_shiftRows (s : List Byte) : (shiftRows s).length = 16 := by simp [shiftRows]

@[simp] theorem length_invShiftRows (s : List Byte) : (invShiftRows s).length = 16 := by
  simp [invShiftRows]

/-- `MixColumns` keeps the length of a string of whole columns. -/
theorem length_mixColumns : ∀ {s : List Byte}, s.length % 4 = 0 → (mixColumns s).length = s.length
  | [], _ => rfl
  | [_], h | [_, _], h | [_, _, _], h => by simp at h
  | _ :: _ :: _ :: _ :: rest, h => by
    have : rest.length % 4 = 0 := by simp only [List.length_cons] at h; omega
    simp [mixColumns, length_mixColumns this]

/-- `InvMixColumns` keeps the length of a string of whole columns. -/
theorem length_invMixColumns :
    ∀ {s : List Byte}, s.length % 4 = 0 → (invMixColumns s).length = s.length
  | [], _ => rfl
  | [_], h | [_, _], h | [_, _, _], h => by simp at h
  | _ :: _ :: _ :: _ :: rest, h => by
    have : rest.length % 4 = 0 := by simp only [List.length_cons] at h; omega
    simp [invMixColumns, length_invMixColumns this]

/-- A key schedule of eleven round keys of sixteen bytes, as R131 gives it. -/
def Schedule (rk : List (List Byte)) : Prop := ∀ r, r < 11 → (rk.getD r []).length = 16

theorem length_addRoundKey {rk : List (List Byte)} (h : Schedule rk) {r : Nat} (hr : r < 11)
    {s : List Byte} (hs : s.length = 16) : (addRoundKey rk r s).length = 16 := by
  rw [addRoundKey, length_xorBytes, hs, h r hr]; rfl

/-- The words of the key schedule, as far as they are made. -/
theorem keyWords_step (n : Nat) (hn : n ≤ 40) {key : List Byte} (hk : key.length = 16) :
    let w := (List.range' 4 n).foldl
      (fun w i => w ++ [xorBytes (w.getD (i - 4) []) (keyTemp i (w.getD (i - 1) []))]) (pieces 4 4 key)
    w.length = 4 + n ∧ ∀ p ∈ w, p.length = 4 := by
  induction n with
  | zero => exact ⟨by simp, fun p hp => length_of_mem_pieces (by omega) hp⟩
  | succ n ih =>
    obtain ⟨hl, hw⟩ := ih (by omega)
    rw [List.range'_1_concat, List.foldl_append]
    simp only [List.foldl_cons, List.foldl_nil]
    generalize (List.range' 4 n).foldl _ _ = w at hl hw
    have at4 : ∀ j, j < w.length → (w.getD j []).length = 4 := fun j hj => by
      rw [List.getD_eq_getElem _ _ hj]; exact hw _ (List.getElem_mem _)
    refine ⟨by simp [hl]; omega, fun p hp => ?_⟩
    rcases List.mem_append.1 hp with hp | hp
    · exact hw p hp
    · rw [List.mem_singleton] at hp
      have temp : ∀ q : List Byte, q.length = 4 → (keyTemp (4 + n) q).length = 4 := by
        intro q hq
        unfold keyTemp
        split_ifs
        · match q, hq with
          | [a, b, c, d], _ => rfl
        · exact hq
      rw [hp, length_xorBytes, at4 _ (by omega), temp _ (at4 _ (by omega))]
      rfl

/-- `KeyExpansion` makes a schedule. -/
theorem schedule_keyExpansion {key : List Byte} (hk : key.length = 16) :
    Schedule (keyExpansion key) := by
  obtain ⟨hl, hw⟩ := keyWords_step 40 le_rfl hk
  change (keyWords key).length = 44 at hl
  change ∀ p ∈ keyWords key, p.length = 4 at hw
  have hf : (keyWords key).flatten.length = 176 := by
    rw [List.length_flatten, List.map_congr_left (g := fun _ => 4) hw, List.map_const',
      List.sum_replicate, hl]
    rfl
  intro r hr
  unfold keyExpansion
  rw [List.getD_eq_getElem _ _ (by simpa using hr)]
  exact length_of_mem_pieces (by rw [hf]) (List.getElem_mem _)

theorem length_cipherRound {rk : List (List Byte)} (h : Schedule rk) {r : Nat} (hr : r < 11)
    (s : List Byte) : (cipherRound rk s r).length = 16 :=
  length_addRoundKey h hr (by rw [length_mixColumns] <;> simp)

theorem length_invCipherRound {rk : List (List Byte)} (h : Schedule rk) {r : Nat} (hr : r < 11)
    (s : List Byte) : (invCipherRound rk s r).length = 16 := by
  have := length_addRoundKey h hr (s := invSubBytes (invShiftRows s)) (by simp)
  unfold invCipherRound
  rw [length_invMixColumns (by omega), this]

theorem length_cipher {rk : List (List Byte)} (h : Schedule rk) (b : List Byte) :
    (cipher rk b).length = 16 := length_addRoundKey h (by omega) (by simp)

theorem length_invCipher {rk : List (List Byte)} (h : Schedule rk) (b : List Byte) :
    (invCipher rk b).length = 16 := length_addRoundKey h (by omega) (by simp)

/-! ### the envelope -/

theorem length_pad (m : List Byte) : (pad m).length = 16 * (m.length / 16 + 1) := by
  simp [pad]; omega

theorem length_cbcEncBlocks {rk : List (List Byte)} (h : Schedule rk) (n : Nat) (prev p : List Byte) :
    (cbcEncBlocks rk n prev p).length = 16 * n := by
  induction n generalizing prev p with
  | zero => rfl
  | succ n ih => simp [cbcEncBlocks, length_cipher h, ih]; omega

theorem length_cbcDecBlocks {rk : List (List Byte)} (h : Schedule rk) (n : Nat) {prev c : List Byte}
    (hp : prev.length = 16) (hc : c.length = 16 * n) :
    (cbcDecBlocks rk n prev c).length = 16 * n := by
  induction n generalizing prev c with
  | zero => rfl
  | succ n ih =>
    have h1 : (c.take 16).length = 16 := by rw [List.length_take]; omega
    have h2 : (c.drop 16).length = 16 * n := by rw [List.length_drop]; omega
    simp only [cbcDecBlocks, List.length_append, length_xorBytes, length_invCipher h, hp, ih h1 h2]
    omega

/-- What `Unpad` answers is a prefix of what it was given, shorter by the padding. -/
theorem unpad_eq_ok {p m : List Byte} (h : unpad p = .ok m) :
    ∃ v, 1 ≤ v ∧ v ≤ 16 ∧ m = p.take (p.length - v) := by
  simp only [unpad] at h
  split_ifs at h with h1 h2
  exact ⟨(p.getLastD 0#8).toNat, by omega, by omega, by simpa using h.symm⟩

/-- What `DecryptBytes` answers is shorter than the envelope it was given. -/
theorem length_decryptBytes {e pw m : List Byte} (h : decryptBytes e pw = .ok m) :
    m.length ≤ e.length := by
  unfold decryptBytes at h
  split_ifs at h with h1 h2
  split at h
  · cases h
  · rename_i m' hm
    split at h
    · cases h
    · simp only [Except.ok.injEq] at h
      subst h
      obtain ⟨v, hv1, hv2, rfl⟩ := unpad_eq_ok hm
      push Not at h2
      have hk : (deriveKey pw).length = 16 := by simp [deriveKey]
      rw [List.length_take, cbcDec,
        length_cbcDecBlocks (schedule_keyExpansion hk) _ (by rw [List.length_take]; omega)
          (by omega)]
      have := List.length_drop (l := e) (i := 16)
      omega

/-- The envelope's length, when the draw answers (R171). -/
theorem length_encryptBytes {d : Draw} {pw m e : List Byte} (h : encryptBytes d pw m = .ok e) :
    e.length = envelopeSize m.length := by
  unfold encryptBytes at h
  split_ifs at h
  simp only [Except.ok.injEq] at h
  subst h
  have hk : (deriveKey pw).length = 16 := by simp [deriveKey]
  rw [List.length_append, cbcEnc, length_cbcEncBlocks (schedule_keyExpansion hk), length_pad,
    Vector.length_toList, envelopeSize]
  omega

/-! ### samples and bits -/

/-- `Quant` answers one integer for each sample. -/
theorem length_quantFrom {f : Flen} {i : Nat} {s : List Sample} {q : List Int}
    (h : quantFrom f i s = .ok q) : q.length = s.length := by
  induction s generalizing i q with
  | nil => simp only [quantFrom, Except.ok.injEq] at h; simp [← h]
  | cons a s ih =>
    unfold quantFrom at h
    split at h
    · cases h
    · split at h
      · cases h
      · rename_i hq
        simp only [Except.ok.injEq] at h
        subst h
        simp [ih hq]

@[simp] theorem length_bitsOf (b : List Byte) (n : Nat) : (bitsOf b n).length = n := by
  simp [bitsOf]

theorem length_bytesOf (b : List Bool) : (bytesOf b).length = b.length / 8 := by
  fun_induction bytesOf b with
  | case1 b0 b1 b2 b3 b4 b5 b6 b7 rest ih => simp [ih]; omega
  | case2 b h =>
    match b, h with
    | [], _ | [_], _ | [_, _], _ | [_, _, _], _ | [_, _, _, _], _ | [_, _, _, _, _], _
    | [_, _, _, _, _, _], _ | [_, _, _, _, _, _, _], _ => simp
    | _ :: _ :: _ :: _ :: _ :: _ :: _ :: _ :: _, h => exact absurd rfl (h _ _ _ _ _ _ _ _ _)

theorem length_packBits (b : List Bool) : (packBits b).length = (b.length + 7) / 8 := by
  simp [packBits, length_bytesOf]; omega

@[simp] theorem length_embedBits (q : List Int) (b : List Bool) (h : b.length ≤ q.length) :
    (embedBits q b).length = q.length := by
  induction q generalizing b with
  | nil => cases b <;> simp_all [embedBits]
  | cons x q ih =>
    cases b with
    | nil => rfl
    | cons y b => simp [embedBits, ih b (by simpa using h)]

/-- What the scan answers has 23 bytes fewer than what it went through. -/
theorem length_scanDelimiter {buf vs y : List Byte} (h : scanDelimiter buf vs = some y) :
    y.length + 23 ≤ buf.length + vs.length := by
  induction vs generalizing buf with
  | nil => simp [scanDelimiter] at h
  | cons v vs ih =>
    unfold scanDelimiter at h
    split_ifs at h with hd
    · simp only [endsInDelimiter, Bool.and_eq_true, decide_eq_true_eq] at hd
      simp only [Option.some.injEq] at h
      subst h
      rw [List.length_take]
      simp only [List.length_append, List.length_cons, List.length_nil] at *
      omega
    · have := ih h
      simp only [List.length_append, List.length_cons, List.length_nil] at *
      omega

/-- What `Xtd` answers has 23 bytes fewer than the samples carry. -/
theorem length_xtd {q : List Int} {y : List Byte} (h : xtd q = .ok y) :
    y.length + 23 ≤ q.length / 8 := by
  unfold xtd at h
  split at h
  · rename_i hs
    simp only [Except.ok.injEq] at h
    subst h
    simpa [length_bytesOf] using length_scanDelimiter hs
  · cases h

@[simp] theorem length_blob (e : List Byte) : (blob e).length = e.length + 23 := by
  simp [blob, delimiter]

end Sys2Proof.Machine
end

