-- ==== Sys2Proof/Laws/State.lean ====
section
/-! SUPPORT. What each update of the state leaves in each field: one lemma a field, true by rfl. -/

namespace Sys2Proof.Machine

/-! ### issue -/

@[simp] theorem State.issue_cmd (w : Word) (s : State) : (s.issue w).cmd = w := rfl

@[simp] theorem State.issue_status (w : Word) (s : State) : (s.issue w).status = .running := rfl

@[simp] theorem State.issue_ie (w : Word) (s : State) : (s.issue w).ie = s.ie := rfl

@[simp] theorem State.issue_opnd (w : Word) (s : State) : (s.issue w).opnd = s.opnd := rfl

@[simp] theorem State.issue_out (w : Word) (s : State) : (s.issue w).out = .zero := rfl

@[simp] theorem State.issue_bufs (w : Word) (s : State) : (s.issue w).bufs = s.bufs := rfl

@[simp] theorem State.issue_hidden (w : Word) (s : State) :
    (s.issue w).hidden = Config.working s.env.fresh := rfl

@[simp] theorem State.issue_env_par (w : Word) (s : State) : (s.issue w).env.par = s.env.par := rfl

@[simp] theorem State.issue_env_inputs (w : Word) (s : State) :
    (s.issue w).env.inputs = s.env.inputs := rfl

@[simp] theorem State.issue_env_answers (w : Word) (s : State) :
    (s.issue w).env.answers = s.env.answers := rfl

@[simp] theorem State.issue_env_drawn (w : Word) (s : State) :
    (s.issue w).env.drawn = s.env.drawn := rfl

@[simp] theorem State.issue_env_fresh (w : Word) (s : State) :
    (s.issue w).env.fresh = s.env.fresh + 1 := rfl

@[simp] theorem State.issue_env_rdata (w : Word) (s : State) :
    (s.issue w).env.rdata = s.env.rdata := rfl

/-! ### complete -/

@[simp] theorem State.complete_cmd (r : CmdResult) (s : State) : (s.complete r).cmd = s.cmd := rfl

@[simp] theorem State.complete_status (r : CmdResult) (s : State) :
    (s.complete r).status = resultStatus r := rfl

@[simp] theorem State.complete_ie (r : CmdResult) (s : State) : (s.complete r).ie = s.ie := rfl

@[simp] theorem State.complete_opnd (r : CmdResult) (s : State) :
    (s.complete r).opnd = s.opnd := rfl

@[simp] theorem State.complete_out (r : CmdResult) (s : State) :
    (s.complete r).out = resultOutputs r := rfl

@[simp] theorem State.complete_bufs (r : CmdResult) (s : State) :
    (s.complete r).bufs = s.bufs := rfl

@[simp] theorem State.complete_hidden (r : CmdResult) (s : State) :
    (s.complete r).hidden = .zero := rfl

@[simp] theorem State.complete_env (r : CmdResult) (s : State) : (s.complete r).env = s.env := rfl

/-! ### raise -/

@[simp] theorem State.raise_cmd (e : CmdErr) (s : State) : (s.raise e).cmd = s.cmd := rfl

@[simp] theorem State.raise_status (e : CmdErr) (s : State) :
    (s.raise e).status = .failed e.kind := rfl

@[simp] theorem State.raise_ie (e : CmdErr) (s : State) : (s.raise e).ie = s.ie := rfl

@[simp] theorem State.raise_opnd (e : CmdErr) (s : State) : (s.raise e).opnd = s.opnd := rfl

@[simp] theorem State.raise_out (e : CmdErr) (s : State) : (s.raise e).out = e.outputs := rfl

@[simp] theorem State.raise_bufs (e : CmdErr) (s : State) : (s.raise e).bufs = s.bufs := rfl

@[simp] theorem State.raise_hidden (e : CmdErr) (s : State) : (s.raise e).hidden = .zero := rfl

@[simp] theorem State.raise_env (e : CmdErr) (s : State) : (s.raise e).env = s.env := rfl

/-! ### acknowledge -/

@[simp] theorem State.acknowledge_cmd (s : State) : (s.acknowledge).cmd = s.cmd := rfl

@[simp] theorem State.acknowledge_ie (s : State) : (s.acknowledge).ie = s.ie := rfl

@[simp] theorem State.acknowledge_opnd (s : State) : (s.acknowledge).opnd = s.opnd := rfl

@[simp] theorem State.acknowledge_out (s : State) : (s.acknowledge).out = s.out := rfl

@[simp] theorem State.acknowledge_bufs (s : State) : (s.acknowledge).bufs = s.bufs := rfl

@[simp] theorem State.acknowledge_hidden (s : State) : (s.acknowledge).hidden = s.hidden := rfl

@[simp] theorem State.acknowledge_env (s : State) : (s.acknowledge).env = s.env := rfl

@[simp] theorem State.acknowledge_status_busy (s : State) :
    (s.acknowledge).status.busy = s.status.busy := rfl

@[simp] theorem State.acknowledge_status_done (s : State) :
    (s.acknowledge).status.done = false := rfl

@[simp] theorem State.acknowledge_status_err (s : State) :
    (s.acknowledge).status.err = s.status.err := rfl

@[simp] theorem State.acknowledge_status_ecode (s : State) :
    (s.acknowledge).status.ecode = s.status.ecode := rfl

/-! ### resetCore -/

@[simp] theorem State.resetCore_cmd (s : State) : (s.resetCore).cmd = State.reset.cmd := rfl

@[simp] theorem State.resetCore_status (s : State) :
    (s.resetCore).status = State.reset.status := rfl

@[simp] theorem State.resetCore_ie (s : State) : (s.resetCore).ie = State.reset.ie := rfl

@[simp] theorem State.resetCore_opnd (s : State) : (s.resetCore).opnd = State.reset.opnd := rfl

@[simp] theorem State.resetCore_out (s : State) : (s.resetCore).out = State.reset.out := rfl

@[simp] theorem State.resetCore_bufs (s : State) : (s.resetCore).bufs = State.reset.bufs := rfl

@[simp] theorem State.resetCore_hidden (s : State) :
    (s.resetCore).hidden = State.reset.hidden := rfl

@[simp] theorem State.resetCore_env (s : State) : (s.resetCore).env = s.env := rfl

/-! ### afterDraw -/

@[simp] theorem State.afterDraw_cmd (s : State) : (s.afterDraw).cmd = s.cmd := rfl

@[simp] theorem State.afterDraw_status (s : State) : (s.afterDraw).status = s.status := rfl

@[simp] theorem State.afterDraw_ie (s : State) : (s.afterDraw).ie = s.ie := rfl

@[simp] theorem State.afterDraw_opnd (s : State) : (s.afterDraw).opnd = s.opnd := rfl

@[simp] theorem State.afterDraw_out (s : State) : (s.afterDraw).out = s.out := rfl

@[simp] theorem State.afterDraw_bufs (s : State) : (s.afterDraw).bufs = s.bufs := rfl

@[simp] theorem State.afterDraw_hidden (s : State) : (s.afterDraw).hidden = s.hidden := rfl

@[simp] theorem State.afterDraw_env_par (s : State) : (s.afterDraw).env.par = s.env.par := rfl

@[simp] theorem State.afterDraw_env_inputs (s : State) :
    (s.afterDraw).env.inputs = s.env.inputs := rfl

@[simp] theorem State.afterDraw_env_answers (s : State) :
    (s.afterDraw).env.answers = s.env.answers.tail := rfl

@[simp] theorem State.afterDraw_env_drawn (s : State) :
    (s.afterDraw).env.drawn = s.env.drawn + 1 := rfl

@[simp] theorem State.afterDraw_env_fresh (s : State) : (s.afterDraw).env.fresh = s.env.fresh := rfl

@[simp] theorem State.afterDraw_env_rdata (s : State) : (s.afterDraw).env.rdata = s.env.rdata := rfl

/-! ### popInput -/

@[simp] theorem State.popInput_cmd (s : State) : (s.popInput).cmd = s.cmd := rfl

@[simp] theorem State.popInput_status (s : State) : (s.popInput).status = s.status := rfl

@[simp] theorem State.popInput_ie (s : State) : (s.popInput).ie = s.ie := rfl

@[simp] theorem State.popInput_opnd (s : State) : (s.popInput).opnd = s.opnd := rfl

@[simp] theorem State.popInput_out (s : State) : (s.popInput).out = s.out := rfl

@[simp] theorem State.popInput_bufs (s : State) : (s.popInput).bufs = s.bufs := rfl

@[simp] theorem State.popInput_hidden (s : State) : (s.popInput).hidden = s.hidden := rfl

@[simp] theorem State.popInput_env_par (s : State) : (s.popInput).env.par = s.env.par := rfl

@[simp] theorem State.popInput_env_inputs (s : State) :
    (s.popInput).env.inputs = s.env.inputs.tail := rfl

@[simp] theorem State.popInput_env_answers (s : State) :
    (s.popInput).env.answers = s.env.answers := rfl

@[simp] theorem State.popInput_env_drawn (s : State) : (s.popInput).env.drawn = s.env.drawn := rfl

@[simp] theorem State.popInput_env_fresh (s : State) : (s.popInput).env.fresh = s.env.fresh := rfl

@[simp] theorem State.popInput_env_rdata (s : State) : (s.popInput).env.rdata = s.env.rdata := rfl

/-! ### hostRead -/

@[simp] theorem State.hostRead_cmd (sp : Space) (i : Nat) (s : State) :
    (s.hostRead sp i).cmd = s.cmd := rfl

@[simp] theorem State.hostRead_status (sp : Space) (i : Nat) (s : State) :
    (s.hostRead sp i).status = s.status := rfl

@[simp] theorem State.hostRead_ie (sp : Space) (i : Nat) (s : State) :
    (s.hostRead sp i).ie = s.ie := rfl

@[simp] theorem State.hostRead_opnd (sp : Space) (i : Nat) (s : State) :
    (s.hostRead sp i).opnd = s.opnd := rfl

@[simp] theorem State.hostRead_out (sp : Space) (i : Nat) (s : State) :
    (s.hostRead sp i).out = s.out := rfl

@[simp] theorem State.hostRead_bufs (sp : Space) (i : Nat) (s : State) :
    (s.hostRead sp i).bufs = s.bufs := rfl

@[simp] theorem State.hostRead_hidden (sp : Space) (i : Nat) (s : State) :
    (s.hostRead sp i).hidden = s.hidden := rfl

@[simp] theorem State.hostRead_env_par (sp : Space) (i : Nat) (s : State) :
    (s.hostRead sp i).env.par = s.env.par := rfl

@[simp] theorem State.hostRead_env_inputs (sp : Space) (i : Nat) (s : State) :
    (s.hostRead sp i).env.inputs = s.env.inputs := rfl

@[simp] theorem State.hostRead_env_answers (sp : Space) (i : Nat) (s : State) :
    (s.hostRead sp i).env.answers = s.env.answers := rfl

@[simp] theorem State.hostRead_env_drawn (sp : Space) (i : Nat) (s : State) :
    (s.hostRead sp i).env.drawn = s.env.drawn := rfl

@[simp] theorem State.hostRead_env_fresh (sp : Space) (i : Nat) (s : State) :
    (s.hostRead sp i).env.fresh = s.env.fresh + if s.readIsOpen sp then 1 else 0 := rfl

@[simp] theorem State.hostRead_env_rdata (sp : Space) (i : Nat) (s : State) :
    (s.hostRead sp i).env.rdata = s.readValue sp i := rfl

/-! ### announce -/

@[simp] theorem State.announce_cmd (d : Draw) (s : State) : (s.announce d).cmd = s.cmd := rfl

@[simp] theorem State.announce_status (d : Draw) (s : State) :
    (s.announce d).status = s.status := rfl

@[simp] theorem State.announce_ie (d : Draw) (s : State) : (s.announce d).ie = s.ie := rfl

@[simp] theorem State.announce_opnd (d : Draw) (s : State) : (s.announce d).opnd = s.opnd := rfl

@[simp] theorem State.announce_out (d : Draw) (s : State) : (s.announce d).out = s.out := rfl

@[simp] theorem State.announce_bufs (d : Draw) (s : State) : (s.announce d).bufs = s.bufs := rfl

@[simp] theorem State.announce_hidden (d : Draw) (s : State) :
    (s.announce d).hidden = s.hidden := rfl

@[simp] theorem State.announce_env_par (d : Draw) (s : State) :
    (s.announce d).env.par = s.env.par := rfl

@[simp] theorem State.announce_env_inputs (d : Draw) (s : State) :
    (s.announce d).env.inputs = s.env.inputs := rfl

@[simp] theorem State.announce_env_answers (d : Draw) (s : State) :
    (s.announce d).env.answers = s.env.answers ++ [d] := rfl

@[simp] theorem State.announce_env_drawn (d : Draw) (s : State) :
    (s.announce d).env.drawn = s.env.drawn := rfl

@[simp] theorem State.announce_env_fresh (d : Draw) (s : State) :
    (s.announce d).env.fresh = s.env.fresh := rfl

@[simp] theorem State.announce_env_rdata (d : Draw) (s : State) :
    (s.announce d).env.rdata = s.env.rdata := rfl

/-! ### withCommand -/

@[simp] theorem State.withCommand_cmd (s : State) (w : Word) : (s.withCommand w).cmd = w := rfl

@[simp] theorem State.withCommand_status (s : State) (w : Word) :
    (s.withCommand w).status = .running := rfl

@[simp] theorem State.withCommand_ie (s : State) (w : Word) : (s.withCommand w).ie = s.ie := rfl

@[simp] theorem State.withCommand_opnd (s : State) (w : Word) :
    (s.withCommand w).opnd = s.opnd := rfl

@[simp] theorem State.withCommand_out (s : State) (w : Word) : (s.withCommand w).out = .zero := rfl

@[simp] theorem State.withCommand_bufs (s : State) (w : Word) :
    (s.withCommand w).bufs = s.bufs := rfl

@[simp] theorem State.withCommand_hidden (s : State) (w : Word) :
    (s.withCommand w).hidden = Config.working s.env.fresh := rfl

@[simp] theorem State.withCommand_env_par (s : State) (w : Word) :
    (s.withCommand w).env.par = s.env.par := rfl

@[simp] theorem State.withCommand_env_inputs (s : State) (w : Word) :
    (s.withCommand w).env.inputs = [] := rfl

@[simp] theorem State.withCommand_env_answers (s : State) (w : Word) :
    (s.withCommand w).env.answers = s.env.answers := rfl

@[simp] theorem State.withCommand_env_drawn (s : State) (w : Word) :
    (s.withCommand w).env.drawn = s.env.drawn := rfl

@[simp] theorem State.withCommand_env_fresh (s : State) (w : Word) :
    (s.withCommand w).env.fresh = s.env.fresh + 1 := rfl

@[simp] theorem State.withCommand_env_rdata (s : State) (w : Word) :
    (s.withCommand w).env.rdata = s.env.rdata := rfl

/-! ### operand readers do not see the other fields -/

@[simp] theorem State.nextDraw_issue (w : Word) (s : State) :
    (s.issue w).nextDraw = s.nextDraw := rfl

@[simp] theorem State.password_issue (w : Word) (s : State) :
    (s.issue w).password = s.password := rfl

@[simp] theorem State.data_issue (w : Word) (s : State) : (s.issue w).data = s.data := rfl

@[simp] theorem State.samples_issue (w : Word) (s : State) : (s.issue w).samples = s.samples := rfl

@[simp] theorem State.sampleCount_issue (w : Word) (s : State) :
    (s.issue w).sampleCount = s.sampleCount := rfl

/-! ### results -/

@[simp] theorem resultStatus_ok (o : Outputs) : resultStatus (.ok o) = .completed := rfl

@[simp] theorem resultStatus_error (e : CmdErr) : resultStatus (.error e) = .failed e.kind := rfl

@[simp] theorem resultOutputs_ok (o : Outputs) : resultOutputs (.ok o) = o := rfl

@[simp] theorem resultOutputs_error (e : CmdErr) : resultOutputs (.error e) = e.outputs := rfl

@[simp] theorem Status.running_busy : Status.running.busy = true := rfl

@[simp] theorem Status.running_done : Status.running.done = false := rfl

@[simp] theorem Status.running_err : Status.running.err = false := rfl

@[simp] theorem Status.running_ecode : Status.running.ecode = 0 := rfl

@[simp] theorem Status.completed_busy : Status.completed.busy = false := rfl

@[simp] theorem Status.completed_done : Status.completed.done = true := rfl

@[simp] theorem Status.completed_err : Status.completed.err = false := rfl

@[simp] theorem Status.completed_ecode : Status.completed.ecode = 0 := rfl

@[simp] theorem Status.failed_busy (k : ErrKind) : (Status.failed k).busy = false := rfl

@[simp] theorem Status.failed_done (k : ErrKind) : (Status.failed k).done = true := rfl

@[simp] theorem Status.failed_err (k : ErrKind) : (Status.failed k).err = true := rfl

@[simp] theorem Status.failed_ecode (k : ErrKind) : (Status.failed k).ecode = k.code := rfl

@[simp] theorem resultStatus_busy (r : CmdResult) : (resultStatus r).busy = false := by
  cases r <;> rfl

@[simp] theorem resultStatus_done (r : CmdResult) : (resultStatus r).done = true := by
  cases r <;> rfl

end Sys2Proof.Machine
end

