-- ==== Sys2Proof/Laws/Ops.lean ====
section
/-! SUPPORT. What each shared operation, each meaning and the step can do, said once. -/

namespace Sys2Proof.Machine

/-! ### operand checks -/

theorem checkPassword_eq_ok {s : State} {u : Unit} :
    s.checkPassword = .ok u ↔ s.opnd.pwlen.toNat ≤ s.env.par.pwCap := by
  unfold State.checkPassword; split_ifs <;> simp_all

theorem checkData_eq_ok {s : State} {u : Unit} :
    s.checkData = .ok u ↔ s.opnd.dlen.toNat ≤ s.env.par.dCap := by
  unfold State.checkData; split_ifs <;> simp_all

theorem checkSamples_eq_ok {s : State} {u : Unit} :
    s.checkSamples = .ok u ↔ s.sampleCount ≤ s.env.par.sCap := by
  unfold State.checkSamples; split_ifs <;> simp_all

theorem checkOutput_eq_ok {s : State} {n : Nat} {u : Unit} :
    s.checkOutput n = .ok u ↔ n ≤ s.env.par.dCap := by
  unfold State.checkOutput; split_ifs <;> simp_all

theorem checkCapacity_eq_ok {r a : Nat} {u : Unit} : checkCapacity r a = .ok u ↔ r ≤ a := by
  unfold checkCapacity; split_ifs <;> simp_all

/-- A sequence of two parts answers when both do. -/
theorem except_bind_eq_ok {ε α β : Type} {x : Except ε α} {f : α → Except ε β} {b : β} :
    (x >>= f) = .ok b ↔ ∃ a, x = .ok a ∧ f a = .ok b := by
  cases x <;> simp [bind, Except.bind]

/-- A sequence of two parts fails with the first failure. -/
theorem except_bind_eq_error {ε α β : Type} {x : Except ε α} {f : α → Except ε β} {e : ε} :
    (x >>= f) = .error e ↔ x = .error e ∨ ∃ a, x = .ok a ∧ f a = .error e := by
  cases x <;> simp [bind, Except.bind]

theorem except_ok_bind {ε α β : Type} (a : α) (f : α → Except ε β) :
    ((Except.ok a : Except ε α) >>= f) = f a := rfl

theorem except_error_bind {ε α β : Type} (e : ε) (f : α → Except ε β) :
    ((Except.error e : Except ε α) >>= f) = .error e := rfl

@[simp] theorem length_password (s : State) : s.password.length = s.opnd.pwlen.toNat := by
  simp [State.password]

@[simp] theorem length_data (s : State) : s.data.length = s.opnd.dlen.toNat := by
  simp [State.data]

@[simp] theorem length_samples (s : State) : s.samples.length = s.sampleCount := by
  simp [State.samples]

/-- The quantized samples, when there are any: as many as the operands say, and no more than fit. -/
theorem quantized_eq_ok {s : State} {q : List Int} (h : s.quantized = .ok q) :
    s.sampleCount ≤ s.env.par.sCap ∧ quant s.env.par.flen s.samples = .ok q ∧
      q.length = s.sampleCount := by
  obtain ⟨⟨⟩, h1, h2⟩ := except_bind_eq_ok.1 h
  exact ⟨checkSamples_eq_ok.1 h1, h2, by rw [length_quantFrom h2, length_samples]⟩

/-- What `Quant` answers, sample by sample (R183). -/
theorem quantFrom_ok {f : Flen} {i : Nat} {as : List Sample} {qs : List Int}
    (h : quantFrom f i as = .ok qs) (k : Nat) (hk : k < as.length) :
    quant1 f (as.getD k 0) = .ok (qs.getD k 0) := by
  induction as generalizing i qs k with
  | nil => simp at hk
  | cons a as ih =>
    simp only [quantFrom] at h
    split at h
    · cases h
    · rename_i q hq
      split at h
      · cases h
      · rename_i qs' hqs
        cases h
        cases k with
        | zero => exact hq
        | succ k => exact ih hqs k (by simpa using hk)

/-- The quantized samples of a state, in the terms of the statements. -/
theorem quantizesTo_of_quantized {s : State} {qs : List Int} (h : s.quantized = .ok qs) :
    s.QuantizesTo qs := by
  obtain ⟨h1, h2, h3⟩ := quantized_eq_ok h
  refine ⟨h1, h3, fun i hi => ?_⟩
  have h4 := quantFrom_ok h2 i (by rw [length_samples]; exact hi)
  rw [State.samples, Memory.readRun, List.getD_eq_getElem _ _ (by simpa using hi)] at h4
  simpa using h4

/-! ### meanings -/

/-- What a command's completion is computed from and how it ends: every meaning answers a next state
that completes the command, after at most one draw. -/
theorem exec_cases (i : Instr) (s : State) :
    ∃ r, exec i s = .next (s.complete r) ∨
      (i = .enc ∨ i = .hide) ∧ exec i s = .next (s.afterDraw.complete r) := by
  have none : ∀ r, exec i s = .next (s.complete r) → ∃ r, exec i s = .next (s.complete r) ∨
      (i = .enc ∨ i = .hide) ∧ exec i s = .next (s.afterDraw.complete r) := fun r h => ⟨r, .inl h⟩
  cases i with
  | enc =>
    simp only [exec, execEnc]
    split
    · exact ⟨_, .inl rfl⟩
    · exact ⟨_, .inr ⟨by simp, rfl⟩⟩
  | hide =>
    simp only [exec, execHide]
    split
    · exact ⟨_, .inl rfl⟩
    · exact ⟨_, .inr ⟨by simp, rfl⟩⟩
  | _ => exact none _ rfl

/-- `ENC` after its operand checks (R162). -/
theorem execEnc_of_checks {s : State} (h : encChecks s = .ok ()) :
    execEnc s = .next (s.afterDraw.complete (encResult s.nextDraw s)) := by
  simp only [execEnc, h]

/-- `HIDE` after its operand checks (R223). -/
theorem execHide_of_checks {s : State} (h : hideChecks s = .ok ()) :
    execHide s = .next (s.afterDraw.complete (hideResult s.nextDraw s)) := by
  simp only [execHide, h]

theorem encChecks_eq_ok {s : State} :
    encChecks s = .ok () ↔ s.opnd.pwlen.toNat ≤ s.env.par.pwCap ∧
      s.opnd.dlen.toNat ≤ s.env.par.dCap ∧ envelopeSize s.opnd.dlen.toNat ≤ s.env.par.dCap := by
  simp only [encChecks, except_bind_eq_ok, checkPassword_eq_ok, checkData_eq_ok, checkOutput_eq_ok,
    exists_const]

theorem hideChecks_eq_ok {s : State} :
    hideChecks s = .ok () ↔ s.opnd.pwlen.toNat ≤ s.env.par.pwCap ∧
      s.opnd.dlen.toNat ≤ s.env.par.dCap ∧ s.sampleCount ≤ s.env.par.sCap ∧
      blobSize s.opnd.dlen.toNat ≤ s.env.par.dCap := by
  simp only [hideChecks, except_bind_eq_ok, checkPassword_eq_ok, checkData_eq_ok,
    checkSamples_eq_ok, checkOutput_eq_ok, exists_const]

/-! ### host accesses -/

/-- Everything a host write can do (R62, R63). -/
theorem hostWrite_cases (sp : Space) (i : Nat) (v : BitVec 64) (s : State) :
    s.hostWrite sp i v = s ∨
    sp = .reg ∧ i = 2 ∧ s.hostWrite sp i v = s.writeCtrl (v.setWidth 32) ∨
    s.status.busy = false ∧ sp = .reg ∧ i < 32 ∧ s.hostWrite sp i v = s.regWrite i (v.setWidth 32) ∨
    s.status.busy = false ∧ sp ≠ .reg ∧ i < sp.size s.env.par ∧
      s.hostWrite sp i v = s.elementWrite sp i v := by
  unfold State.hostWrite
  split_ifs with h1 h2 h3
  · exact .inr (.inl ⟨h2.1, h2.2, rfl⟩)
  · exact .inl rfl
  · have hb : s.status.busy = false := by simpa using h1
    by_cases hr : sp = .reg
    · subst hr
      exact .inr (.inr (.inl ⟨hb, rfl, h3, rfl⟩))
    · exact .inr (.inr (.inr ⟨hb, hr, h3, rfl⟩))
  · exact .inl rfl

/-- Everything a write of `CTRL` can do (R23). -/
theorem writeCtrl_cases (v : Word) (s : State) :
    s.writeCtrl v = s.resetCore ∨ s.writeCtrl v = { s with ie := v.getLsbD 0 } := by
  unfold State.writeCtrl; split_ifs <;> simp

/-- Everything a write of `STATUS` can do (R22). -/
theorem writeStatus_cases (v : Word) (s : State) :
    s.writeStatus v = s.acknowledge ∨ s.writeStatus v = s := by
  unfold State.writeStatus; split_ifs <;> simp

/-! ### the step -/

/-- Everything the core's turn can do (R98, R254, R281). -/
theorem coreTurn_cases (s : State) :
    s.status.busy = false ∧ s.coreTurn = .next s ∨
    s.status.busy = true ∧ ((∃ i, decode s.cmd = .ok i ∧ s.coreTurn = exec i s) ∨
      (∃ e, decode s.cmd = .error e) ∧ s.coreTurn = .next s.rejectCommand) := by
  unfold State.coreTurn
  split_ifs with h
  · refine .inr ⟨h, ?_⟩
    split
    · rename_i i hi; exact .inl ⟨i, hi, rfl⟩
    · rename_i e he; exact .inr ⟨⟨e, he⟩, rfl⟩
  · exact .inl ⟨by simpa using h, rfl⟩

/-- A step that answers takes the core's turn or the first input. -/
theorem step_eq_next {s t : State} (h : step s = .next t) :
    s.env.par.ok = true ∧ (s.env.inputs = [] ∧ s.coreTurn = .next t ∨
      ∃ e es, s.env.inputs = e :: es ∧ s.popInput.takeInput e = .next t) := by
  unfold step State.advance at h
  split_ifs at h with hp
  refine ⟨hp, ?_⟩
  split at h
  · rename_i hi; exact .inl ⟨hi, h⟩
  · rename_i e es hi; exact .inr ⟨e, es, hi, h⟩

/-- The step with nothing from outside is the core's turn. -/
theorem step_of_no_input {s : State} (hp : s.env.par.ok = true) (hi : s.env.inputs = []) :
    step s = s.coreTurn := by simp only [step, hp, if_true, State.advance, hi]

/-- The step with an input takes it. -/
theorem step_of_input {s : State} {e : Input} {es : List Input} (hp : s.env.par.ok = true)
    (hi : s.env.inputs = e :: es) : step s = s.popInput.takeInput e := by
  simp only [step, hp, if_true, State.advance, hi]

/-- A running command that decodes is run by the core's turn. -/
theorem coreTurn_of_decode {s : State} {i : Instr} (hb : s.status.busy = true)
    (hd : decode s.cmd = .ok i) : s.coreTurn = exec i s := by
  simp only [State.coreTurn, hb, if_true, hd]

end Sys2Proof.Machine
end

