-- ==== Sys2Proof/Laws/PerInstr.lean ====
section
/-! SUPPORT. The per-instruction family: every command is well formed and its word is legal (R88,
R89). -/

namespace Sys2Proof.Laws

/-- The word of the command `i` is legal by the three conditions of R89. -/
def WordLegal.Statement (i : Instr) : Prop := i.wellFormed = true ∧ legalWord (encode i) = true

theorem WordLegal.kdf : WordLegal.Statement .kdf := by unfold Statement; decide

theorem WordLegal.enc : WordLegal.Statement .enc := by unfold Statement; decide

theorem WordLegal.dec : WordLegal.Statement .dec := by unfold Statement; decide

theorem WordLegal.qnt : WordLegal.Statement .qnt := by unfold Statement; decide

theorem WordLegal.emb : WordLegal.Statement .emb := by unfold Statement; decide

theorem WordLegal.ext (mb : Bool) : WordLegal.Statement (.ext mb) := by
  cases mb <;> (unfold Statement; decide)

theorem WordLegal.xtd : WordLegal.Statement .xtd := by unfold Statement; decide

theorem WordLegal.hide : WordLegal.Statement .hide := by unfold Statement; decide

theorem WordLegal.reveal : WordLegal.Statement .reveal := by unfold Statement; decide

theorem WordLegal.cap : WordLegal.Statement .cap := by unfold Statement; decide

theorem WordLegal.rqb : WordLegal.Statement .rqb := by unfold Statement; decide

end Sys2Proof.Laws
end

