-- ==== Sys2Proof/Tests/Slice0.lean ====
section
/-! SUPPORT. Tests: the checks of form, decoding, the vectors of spec/95_test_vectors.md (each named
beside its theorem), and for every statement a state and operands that meet its hypotheses. -/

namespace Sys2Proof.Tests

open Sys2Proof.Machine

-- one theorem after another: many long kernel evaluations at once need too many threads
set_option Elab.async false

/-! ### Helpers -/

/-- The reset state with these operands, input buffers and announced draws. -/
def st (o : OperandRegs) (b : InputBufs) (ds : List Draw) : State :=
  { State.reset with opnd := o, bufs := b, env := { State.reset.env with answers := ds } }

def regs : OperandRegs := State.reset.opnd

def bufs : InputBufs := State.reset.bufs

/-- The reset state with these inputs still to come. -/
def inp (es : List Input) : State :=
  { State.reset with env := { State.reset.env with inputs := es } }

/-- The reset state with command word `w` issued and these inputs still to come. -/
def busy (w : Word) (es : List Input) : State :=
  { State.reset.withCommand w with
    env := { (State.reset.withCommand w).env with inputs := es } }

/-- Whether an outcome is a next state with this property. -/
def goes (o : Host.Outcome State Fault Refusal) (p : State → Bool) : Bool :=
  match o with
  | .next t => p t
  | .fault _ => false
  | .refused _ => false

/-- Whether the machine, once its inputs are used up, is in a state with this property. -/
def ends (es : List Input) (p : State → Bool) : Bool := goes (core.run es.length (inp es)) p

/-- A completion with this error code and context, every other output 0. -/
def failed (code : BitVec 4) (i0 i1 : Word) (t : State) : Bool :=
  t.status == ⟨false, true, true, code⟩ && t.out == { Outputs.zero with einfo0 := i0, einfo1 := i1 }

/-- A completion that delivers these bytes and nothing else. -/
def delivers (b : List Byte) (t : State) : Bool :=
  t.status == ⟨false, true, false, 0⟩ &&
    t.out == { Outputs.zero with olen := BitVec.ofNat 32 b.length, dout := Memory.cells 0 b }

def secret : List Byte := [0x73, 0x65, 0x63, 0x72, 0x65, 0x74]

def hello : List Byte := [0x68, 0x65, 0x6c, 0x6c, 0x6f]

/-- IV0 of 95_test_vectors.md. -/
def iv0 : List Byte := [0, 1, 2, 3, 4, 5, 6, 7, 8, 9, 10, 11, 12, 13, 14, 15]

def draw0 : Draw := ⟨true, ⟨#[0, 1, 2, 3, 4, 5, 6, 7, 8, 9, 10, 11, 12, 13, 14, 15], rfl⟩⟩

/-- E1, the envelope of V-ENC-1. -/
def e1 : List Byte :=
  iv0 ++ [0xf5, 0xb6, 0x40, 0x67, 0xd2, 0xff, 0xef, 0x95, 0xef, 0x4c, 0xbe, 0x6a, 0x9e, 0xce, 0xb0,
    0x9c]

def delim : List Byte :=
  [0x3c, 0x45, 0x4e, 0x44, 0x5f, 0x4f, 0x46, 0x5f, 0x53, 0x45, 0x43, 0x52,
   0x45, 0x54, 0x5f, 0x4d, 0x45, 0x53, 0x53, 0x41, 0x47, 0x45, 0x3e]

/-- The carrier of section 2.9 of 95_test_vectors.md: one sample per bit, most significant bit of each
byte first, 0x3F00002000400080 for a 1 and 0 for a 0. -/
def carrierFrom (i : Nat) : List Byte → Memory 64
  | [] => []
  | v :: vs =>
    ([7, 6, 5, 4, 3, 2, 1, 0].zipIdx i).filterMap (fun p =>
      if v.getLsbD p.1 then some (p.2, 0x3F00002000400080#64) else none) ++ carrierFrom (i + 8) vs

def carrier (b : List Byte) : Memory 64 := carrierFrom 0 b

/-- B8 of 95_test_vectors.md. -/
def b8 : Memory 64 :=
  [(0, 0x3FE0000000000000), (1, 0xBFF0000000000000), (2, 0x3FB999999999999A),
   (3, 0x8000000000000000), (4, 0x3FD0000000000000), (5, 0xBFD0000000000000),
   (6, 0x3FF0000000000000), (7, 0x3FD3333333333333)]

/-- `B8` quantized. -/
def q8 : List Int := [16384, -32767, 3277, 0, 8192, -8192, 32767, 9830]

/-- A NaN at flat index 2 (V-EMB-6). -/
def b8bad : Memory 64 := Memory.write b8 2 0x7FF8000000000000

def reg8 : OperandRegs := { regs with nchan := 2, nfrm := 4 }

def in8 : InputBufs := { bufs with sin := b8, din := [(0, 0xa5), (1, 0x80)] }

/-! ### The checks of form -/

theorem test_wf_zeroField : zeroFieldOk 0x80000002#32 = false ∧ legalWord 0x80000002#32 = false := by
  decide

theorem test_wf_opc : opcOk 0x00000004#32 = false ∧ legalWord 0x00000004#32 = false := by decide

theorem test_wf_mb : mbOk 0x00000101#32 = false ∧ legalWord 0x00000101#32 = false := by decide

theorem test_wf_legal : legalWord 0x00000112#32 = true := by decide

theorem test_wf_pwCap : Params.ok ⟨0, 4096, 32768, .f64⟩ = false ∧
    Params.ok ⟨2 ^ 32, 4096, 32768, .f64⟩ = false := by decide

theorem test_wf_dCap : Params.ok ⟨256, 4095, 1, .f64⟩ = false ∧
    Params.ok ⟨256, 48, 1, .f64⟩ = false ∧ Params.ok ⟨256, 2 ^ 28, 1, .f64⟩ = false := by decide

theorem test_wf_sCap : Params.ok ⟨256, 64, 0, .f64⟩ = false ∧
    Params.ok ⟨256, 64, 513, .f64⟩ = false := by decide

theorem test_wf_params : Params.ok ⟨1, 64, 512, .f32⟩ = true ∧ Params.reference.ok = true := by decide

/-- U5: a configuration outside the constraints is refused. -/
theorem test_bad_parameters_refused :
    (match step { State.reset with env := { State.reset.env with par := ⟨256, 4095, 1, .f64⟩ } } with
      | .refused .badParameters => true
      | _ => false) = true := by decide

/-! ### Decoding: the words of R88 from the fields of R86 -/

/-- `ZERO` 31:9, `MB` 8, `OPC` 7:0 put together bit by bit. -/
theorem test_decode_kdf : decode 0b00000000000000000000000_0_00000001#32 = .ok .kdf := rfl
theorem test_decode_enc : decode 0b00000000000000000000000_0_00000010#32 = .ok .enc := rfl
theorem test_decode_dec : decode 0b00000000000000000000000_0_00000011#32 = .ok .dec := rfl
theorem test_decode_qnt : decode 0b00000000000000000000000_0_00010000#32 = .ok .qnt := rfl
theorem test_decode_emb : decode 0b00000000000000000000000_0_00010001#32 = .ok .emb := rfl
theorem test_decode_ext : decode 0b00000000000000000000000_0_00010010#32 = .ok (.ext false) := rfl
theorem test_decode_ext_mb : decode 0b00000000000000000000000_1_00010010#32 = .ok (.ext true) := rfl
theorem test_decode_xtd : decode 0b00000000000000000000000_0_00010011#32 = .ok .xtd := rfl
theorem test_decode_hide : decode 0b00000000000000000000000_0_00100000#32 = .ok .hide := rfl
theorem test_decode_reveal : decode 0b00000000000000000000000_0_00100001#32 = .ok .reveal := rfl
theorem test_decode_cap : decode 0b00000000000000000000000_0_00110000#32 = .ok .cap := rfl
theorem test_decode_rqb : decode 0b00000000000000000000000_0_00110001#32 = .ok .rqb := rfl

/-- The words of V-DECODE-1, each rejected by the condition of R89 it breaks. -/
theorem test_decode_rejects :
    decode 0x0#32 = .error .unassignedOpc ∧ decode 0x4#32 = .error .unassignedOpc ∧
    decode 0x32#32 = .error .unassignedOpc ∧ decode 0xFF#32 = .error .unassignedOpc ∧
    decode 0x101#32 = .error .mbNotExt ∧ decode 0x212#32 = .error .zeroField ∧
    decode 0x80000002#32 = .error .zeroField := ⟨rfl, rfl, rfl, rfl, rfl, rfl, rfl⟩

theorem test_table_word : decodeTableWord 32 0x112 = some (.ext true) ∧
    decodeTableWord 32 0x101 = none := ⟨rfl, rfl⟩

/-- The step after a word was placed runs its command. -/
theorem test_placed_word_runs :
    step (State.reset.withFetchWord 32 0x30) = exec .cap (State.reset.withFetchWord 32 0x30) := rfl

/-! ### The cipher unit -/

/-- V-KDF-3. -/
theorem test_kdf_secret : goes (exec .kdf (st { regs with pwlen := 6 }
    { bufs with pw := Memory.cells 0 secret } []))
    (delivers [0x2b, 0xb8, 0x0d, 0x53, 0x7b, 0x1d, 0xa3, 0xe3, 0x8b, 0xd3, 0x03, 0x61, 0xaa, 0x85,
      0x56, 0x86]) = true := by decide +kernel

/-- V-KDF-11. -/
theorem test_kdf_range : goes (exec .kdf (st { regs with pwlen := 257 } bufs []))
    (failed 9 1 257) = true := by decide +kernel

/-- V-AES-2 (the published example of FIPS 197). -/
theorem test_aes_example :
    cipher (keyExpansion iv0) [0x00, 0x11, 0x22, 0x33, 0x44, 0x55, 0x66, 0x77, 0x88, 0x99, 0xaa, 0xbb,
      0xcc, 0xdd, 0xee, 0xff] =
    [0x69, 0xc4, 0xe0, 0xd8, 0x6a, 0x7b, 0x04, 0x30, 0xd8, 0xcd, 0xb7, 0x80, 0x70, 0xb4, 0xc5,
      0x5a] := by decide +kernel

/-- V-ENC-1, "secret" and "hello". -/
def encState : State :=
  st { regs with pwlen := 6, dlen := 5 }
    { bufs with pw := Memory.cells 0 secret, din := Memory.cells 0 hello } [draw0]

theorem test_enc_hello : goes (exec .enc encState)
    (fun t => delivers e1 t && t.env.answers == []) = true := by decide +kernel

/-- V-ENC-13: the output does not fit, and no draw is made. -/
theorem test_enc_output_range : goes (exec .enc (st { regs with dlen := 4080 } bufs [draw0]))
    (fun t => failed 9 5 4112 t && t.env.answers == [draw0]) = true := by decide +kernel

/-- V-DEC-1. -/
def decState : State :=
  st { regs with pwlen := 6, dlen := 32 }
    { bufs with pw := Memory.cells 0 secret, din := Memory.cells 0 e1 } []

theorem test_dec_hello : goes (exec .dec decState) (delivers hello) = true := by decide +kernel

/-- V-DEC-19: byte 4 of the IV changed makes plaintext byte 4 an ill-formed `ef`. -/
theorem test_dec_encoding : goes (exec .dec { decState with
    bufs := { decState.bufs with din := Memory.write decState.bufs.din 4 0x84 } })
    (failed 5 4 5) = true := by decide +kernel

/-- Section 2.4 of 95_test_vectors.md: four ill-formed strings and two well-formed ones. -/
theorem test_utf8 :
    utf8FirstBad [0xed, 0xa0, 0x80] = some 0 ∧ utf8FirstBad [0x41, 0xe2, 0x82] = some 1 ∧
    utf8FirstBad [0x41, 0x42, 0xe2, 0x82, 0x41] = some 2 ∧
    utf8FirstBad [0xe2, 0x82, 0xac, 0xe2, 0x82] = some 3 ∧
    utf8FirstBad [0xf4, 0x8f, 0xbf, 0xbf] = none ∧ utf8FirstBad [0xe0, 0xa0, 0x80] = none := by
  decide

/-! ### The LSB unit -/

/-- The outcome of `Quant1` as the vectors write it. -/
def q1 (f : Flen) (a : Sample) : Option Int ⊕ Nat :=
  match quant1 f a with
  | .ok q => .inl (some q)
  | .error e => .inr e.info

/-- V-QNT-19 to V-QNT-22, V-QNT-24, V-QNT-26, V-QNT-27: the ends of the range and the double
rounding, binary64. -/
theorem test_quant1_f64 :
    q1 .f64 0x3FF000100020003F = .inl (some 32767) ∧ q1 .f64 0x3FF0001000200040 = .inr 0 ∧
    q1 .f64 0xBFF00030006000C0 = .inl (some (-32768)) ∧ q1 .f64 0xBFF00030006000C1 = .inr 0 ∧
    q1 .f64 0xFFF0000000000000 = .inr 1 ∧ q1 .f64 0x3EF0002000400080 = .inl (some 0) ∧
    q1 .f64 0x3F080030006000C0 = .inl (some 2) := by decide +kernel

/-- The same rows, binary32 (V-QNT-19 to V-QNT-22, V-QNT-25, V-QNT-33, V-QNT-34). -/
theorem test_quant1_f32 :
    q1 .f32 0x3F80007F = .inl (some 32767) ∧ q1 .f32 0x3F800080 = .inr 0 ∧
    q1 .f32 0xBF800180 = .inl (some (-32768)) ∧ q1 .f32 0xBF800181 = .inr 0 ∧
    q1 .f32 0x7F800001 = .inr 1 ∧ q1 .f32 0x37800100 = .inl (some 0) ∧
    q1 .f32 0x38400180 = .inl (some 2) := by decide +kernel

/-- V-DEQ-1, V-DEQ-11, V-DEQ-17, both formats. -/
theorem test_dequant1 :
    dequant1 .f64 0 = 0 ∧ dequant1 .f64 (-16384) = 0xBFE0002000400080#64 ∧
    dequant1 .f64 (-32768) = 0xBFF0002000400080#64 ∧ dequant1 .f32 (-16384) = 0xBF000100#64 ∧
    dequant1 .f32 (-32768) = 0xBF800100#64 := by decide +kernel

/-- `QNT` of `B8` (section 2.8 gives its quantized samples). -/
theorem test_qnt : goes (exec .qnt (st reg8 in8 [])) (fun t =>
    t.status == .completed && t.out == { Outputs.zero with
      ons := 8
      qout := [(0, 0x4000), (1, 0x8001), (2, 0x0CCD), (4, 0x2000), (5, 0xE000), (6, 0x7FFF),
        (7, 0x2666)] }) = true := by decide +kernel

/-- V-QNT-40: the exact product, reported saturated. -/
theorem test_qnt_range : goes (exec .qnt (st { regs with nchan := 0x10000, nfrm := 0x10000 } bufs []))
    (failed 9 3 0xFFFFFFFF) = true := by decide +kernel

def embOut : Memory 64 :=
  [(0, 0x3FE0006000C00180), (1, 0xBFF0002000400080), (2, 0x3FB99A33346668CD),
   (4, 0x3FD0002000400080), (5, 0xBFCFFF3FFE7FFD00), (6, 0x3FEFFFBFFF7FFF00),
   (7, 0x3FD333A6674CCE9A)]

/-- V-EMB-1. -/
theorem test_emb : goes (exec .emb (st { reg8 with nbits := 8 } in8 [])) (fun t =>
    t.status == .completed && t.out == { Outputs.zero with ons := 8, sout := embOut }) = true := by
  decide +kernel

/-- V-EMB-6: `SampleOverflow` at the lowest bad index, before `InsufficientCapacity`. -/
theorem test_emb_overflow : goes (exec .emb (st { reg8 with nbits := 99 }
    { in8 with sin := Memory.write b8bad 6 0x3FF8000000000000 } [])) (failed 6 2 1) = true := by
  decide +kernel

/-- V-EXT-1. -/
theorem test_ext : goes (exec (.ext false) (st reg8 { bufs with sin := embOut } [])) (fun t =>
    t.status == .completed &&
      t.out == { Outputs.zero with olen := 1, obits := 8, dout := [(0, 0xa5)] }) = true := by
  decide +kernel

/-- V-EXT-2. -/
theorem test_ext_mb : goes (exec (.ext true) (st { reg8 with maxbits := 5 }
    { bufs with sin := embOut } [])) (fun t =>
    t.status == .completed &&
      t.out == { Outputs.zero with olen := 1, obits := 5, dout := [(0, 0xa0)] }) = true := by
  decide +kernel

/-- V-XTD-1. -/
theorem test_xtd : goes (exec .xtd (st { regs with nchan := 1, nfrm := 200 }
    { bufs with sin := carrier ([0x41, 0x42] ++ delim) } [])) (delivers [0x41, 0x42]) = true := by
  decide +kernel

/-- V-XTD-3: the last bit is cut off. -/
theorem test_xtd_cut : goes (exec .xtd (st { regs with nchan := 1, nfrm := 183 }
    { bufs with sin := carrier delim } [])) (failed 2 22 183) = true := by decide +kernel

/-! ### The composite flows -/

/-- The operands of V-HIDE-2, on a silent carrier of `n` samples. -/
def hideState (n : Nat) : State :=
  st { encState.opnd with nchan := 1, nfrm := BitVec.ofNat 32 n } encState.bufs [draw0]

/-- The state `HIDE` leaves there. -/
def hidden440 : State := (hideState 440).afterDraw.complete (hideResult draw0 (hideState 440))

/-- V-HIDE-2: the exact fit; the samples are the carrier of section 2.9 for the blob. -/
theorem test_hide : exec .hide (hideState 440) = .next hidden440 ∧
    hidden440.status = ⟨false, true, false, 0⟩ ∧
    hidden440.out = { Outputs.zero with
      olen := 55
      ons := 440
      dout := Memory.cells 0 (e1 ++ delim)
      sout := carrier (e1 ++ delim) } :=
  ⟨execHide_of_checks (s := hideState 440) (by decide), by decide +kernel⟩

/-- V-HIDE-3. -/
theorem test_hide_capacity : goes (exec .hide (hideState 439)) (failed 1 440 439) = true := by
  decide +kernel

/-- What V-HIDE-2 hid, on the silent carrier. -/
def revealState : State :=
  st { regs with pwlen := 6, nchan := 1, nfrm := 440 }
    { bufs with pw := Memory.cells 0 secret, sin := carrier (e1 ++ delim) } []

/-- V-REV-1. -/
theorem test_reveal : goes (exec .reveal revealState) (delivers hello) = true := by decide +kernel

/-- V-REV-4: the payload `4142` is no envelope. -/
theorem test_reveal_malformed : goes (exec .reveal (st { regs with nchan := 1, nfrm := 200 }
    { bufs with sin := carrier ([0x41, 0x42] ++ delim) } [])) (failed 3 1 2) = true := by
  decide +kernel

/-! ### The capacity calculator -/

/-- V-CAP-4 and V-CAP-7. -/
theorem test_cap :
    goes (exec .cap (st { regs with arg := 439 } bufs [])) (fun t => t.status == .completed &&
      t.out == { Outputs.zero with resl := 0xFFFFFFFF, resh := 0xFFFFFFFF }) = true ∧
    goes (exec .cap (st { regs with arg := 1000 } bufs [])) (fun t => t.status == .completed &&
      t.out == { Outputs.zero with resl := 0x46 }) = true := by decide +kernel

/-- V-RQB-5. -/
theorem test_rqb : goes (exec .rqb (st { regs with arg := 0xFFFFFFFF } bufs [])) (fun t =>
    t.status == .completed &&
      t.out == { Outputs.zero with resl := 0xFFFFFFF8, resh := 7 }) = true := by decide +kernel

/-! ### The life cycle -/

/-- V-DECODE-1 and V-LIFE-2. -/
theorem test_illegal_word :
    ends [.hostWrite .reg 0 0x80000002, .coreTurn] (fun t =>
      failed 8 0x80000002 0 t && t.cmd == 0x80000002 && t.status.word == 0x806) = true ∧
    ends [.hostWrite .reg 0 0x80000002, .coreTurn, .hostWrite .reg 1 2] (fun t =>
      t.status.word == 0x804 && t.out.einfo0 == 0x80000002) = true := by decide +kernel

/-- V-LIFE-3, V-LIFE-5, V-LIFE-7. -/
theorem test_ignored_writes :
    ends [.hostWrite .reg 1 0xFFFFFFFD, .hostWrite .reg 10 5, .hostWrite .reg 17 0,
      .hostWrite .reg 25 7, .hostWrite .reg 2 3, .hostRead .reg 17] (fun t =>
      t.regRead 1 == 0 && t.regRead 10 == 0 && t.regRead 25 == 0 && t.regRead 2 == 0 &&
        t.env.rdata == 0x4C504301) = true := by decide +kernel

/-- V-LIFE-4: `irq` with `DONE`, and lowered by `ack`. -/
theorem test_irq :
    ends [.hostWrite .reg 2 1, .hostWrite .reg 0 0x30, .coreTurn] (·.irq) = true ∧
    ends [.hostWrite .reg 2 1, .hostWrite .reg 0 0x30, .coreTurn, .hostWrite .reg 1 2]
      (fun t => !t.irq && t.ie) = true := by decide +kernel

/-- V-LIFE-8: writes while running are ignored; a read of `STATUS` sees `BUSY`. -/
theorem test_writes_while_running :
    ends [.hostWrite .reg 3 6, .hostWrite .reg 0 2, .hostWrite .reg 3 0, .hostWrite .pw 0 7,
      .hostWrite .reg 0 1, .hostRead .reg 1] (fun t =>
      t.cmd == 2 && t.opnd.pwlen == 6 && t.bufs.pw == [] && t.env.rdata == 1) = true := by
  decide +kernel

/-- P5: a reset while a command runs. -/
theorem test_reset_while_running :
    ends [.hostWrite .reg 3 6, .hostWrite .din 0 0x68, .announce draw0, .hostWrite .reg 0 2,
      .hostWrite .reg 2 2, .coreTurn] (fun t =>
      t.status.word == 0 && t.out == Outputs.zero && t.opnd.pwlen == 0 && t.bufs.din == [] &&
        t.hidden == Hidden.zero && t.env.drawn == 0) = true := by decide +kernel

/-! ### Witnesses: a state and operands that meet the hypotheses of each statement -/

/-- The same state with these inputs still to come. -/
def feed (s : State) (es : List Input) : State := { s with env := { s.env with inputs := es } }

def st8 : State := st { reg8 with nbits := 8, maxbits := 8 } in8 []

/-- `B8` with a NaN at flat index 2. -/
def st8bad : State := st reg8 { in8 with sin := b8bad } []

/-- One sample more than fits. -/
def stWide : State := st { regs with nchan := 1, nfrm := 32769 } bufs []

theorem witness_StepRunsTheIssuedCommand :
    (busy 2 []).env.par.ok = true ∧ (busy 2 []).status.busy = true ∧
    decode (busy 2 []).cmd = .ok .enc ∧ (busy 2 []).env.inputs = [] ∧
    (busy 2 [.coreTurn]).env.inputs = .coreTurn :: [] ∧
    State.reset.env.par.ok = true ∧ decode (BitVec.ofNat 32 0x112) = .ok (.ext true) ∧
    st8.status.busy = false ∧ st8.env.inputs = [] ∧
    (feed st8 [.coreTurn]).status.busy = false ∧ (feed st8 [.coreTurn]).env.inputs = [.coreTurn] :=
  ⟨rfl, rfl, rfl, rfl, rfl, rfl, rfl, rfl, rfl, rfl, rfl⟩

/-- With no input, and with the core's turn announced. -/
theorem witness_IllegalWordCompletesWithError :
    (∀ es, (busy 0x101 es).env.par.ok = true ∧ (busy 0x101 es).status.busy = true) ∧
    (busy 0x101 []).env.inputs = [] ∧ (busy 0x101 [.coreTurn]).env.inputs = [.coreTurn] ∧
    ∀ es i, (busy 0x101 es).cmd ≠ encode i := by
  refine ⟨fun _ => ⟨(rfl : Params.reference.ok = true), rfl⟩, rfl, rfl, fun _ i => ?_⟩
  change 0x101#32 ≠ encode i
  cases i with
  | ext mb => cases mb <;> decide
  | _ => decide

theorem witness_CmdWriteIssues :
    st8.env.par.ok = true ∧ st8.status.busy = false ∧
    (feed st8 [.hostWrite .reg 0 0x11]).env.inputs = [.hostWrite .reg 0 0x11] := ⟨rfl, rfl, rfl⟩

theorem witness_CmdWriteWhileRunningIsIgnored :
    (busy 2 [.hostWrite .reg 0 1]).env.par.ok = true ∧
    (busy 2 [.hostWrite .reg 0 1]).status.busy = true ∧
    (busy 2 [.hostWrite .reg 0 1]).env.inputs = [.hostWrite .reg 0 1] := ⟨rfl, rfl, rfl⟩

/-- The neighbours of `CTRL`, and element 2 of a buffer. -/
theorem witness_WritesWhileRunningAreIgnored :
    (busy 2 []).env.par.ok = true ∧ (busy 2 []).status.busy = true ∧
    (∀ sp n, (sp, n) ∈ [(Space.reg, 1), (Space.reg, 3), (Space.pw, 2)] →
      ¬(sp = .reg ∧ n = 2) ∧
      (busy 2 [.hostWrite sp n 7]).env.inputs = [.hostWrite sp n 7]) :=
  ⟨rfl, rfl, fun sp n h => ⟨by rintro ⟨rfl, rfl⟩; revert h; decide, rfl⟩⟩

theorem witness_EitherResetGivesTheResetState :
    (feed st8 [.hardReset]).env.par.ok = true ∧
    (feed st8 [.hardReset]).env.inputs = [.hardReset] ∧
    (3 : BitVec 64).getLsbD 1 = true ∧ (busy 2 [.hostWrite .reg 2 3]).env.par.ok = true ∧
    (busy 2 [.hostWrite .reg 2 3]).env.inputs = [.hostWrite .reg 2 3] :=
  ⟨rfl, rfl, by decide, rfl, rfl⟩

theorem witness_ResetAbandonsARunningCommand :
    st8.env.par.ok = true ∧ st8.status.busy = false ∧ (2 : BitVec 64).getLsbD 1 = true ∧
    (feed st8 [.hostWrite .reg 0 0x11, .hostWrite .reg 2 2]).env.inputs =
      [.hostWrite .reg 0 0x11, .hostWrite .reg 2 2] := ⟨rfl, rfl, by decide, rfl⟩

theorem witness_EveryCommandCompletes :
    (busy 0x20 []).env.par.ok = true ∧ (busy 0x20 []).status.busy = true ∧
    (busy 0x20 []).env.inputs = [] := ⟨rfl, rfl, rfl⟩

theorem witness_NoRunStops : st8.env.par.ok = true := rfl

/-- A state with operands and samples is good, whatever comes from outside. -/
theorem good_st8 (es : List Input) : (feed st8 es).Good := by
  have h : st8.Good :=
    { par := by decide
      bufs := ⟨by decide, by decide, by decide, by unfold SamplesFit; decide⟩
      out := ⟨by decide, by decide, by decide, by unfold SamplesFit; decide, by decide, by decide,
        by decide⟩
      status := ⟨by decide, by decide, by decide, by decide⟩
      cleared := by decide
      failed := by decide
      context := by decide
      hidden := fun _ => rfl }
  exact ⟨h.par, h.bufs, h.out, h.status, h.cleared, h.failed, h.context, h.hidden⟩

theorem witness_EveryStepKeepsGood :
    (feed st8 [.hostWrite .reg 0 0x11]).Good ∧
    ∃ t, step (feed st8 [.hostWrite .reg 0 0x11]) = .next t ∧ t.status.busy = true :=
  ⟨good_st8 _, _, rfl, rfl⟩

/-- An idle block; the first and last element of each space, and the index behind the last. -/
theorem witness_HostReadReturnsTheElement :
    st8.env.par.ok = true ∧ st8.status.busy = false ∧
    (∀ sp n, (feed st8 [.hostRead sp n]).env.inputs = [.hostRead sp n]) ∧
    255 < st8.env.par.pwCap ∧ st8.env.par.pwCap ≤ 256 ∧ 4095 < st8.env.par.dCap ∧
    st8.env.par.dCap ≤ 4096 ∧ 32767 < st8.env.par.sCap ∧ st8.env.par.sCap ≤ 32768 :=
  ⟨rfl, rfl, fun _ _ => rfl, by decide, by decide, by decide, by decide, by decide, by decide⟩

theorem witness_RegisterNumbersReadAsTabled :
    st8.env.par.ok = true ∧ st8.env.par.flen = .f64 ∧
    Params.ok ⟨1, 64, 512, .f32⟩ = true := ⟨rfl, rfl, by decide⟩

theorem witness_OperandRegisterWritesStore :
    st8.env.par.ok = true ∧ st8.status.busy = false ∧
    (feed st8 [.hostWrite .reg 3 257]).env.inputs = [.hostWrite .reg 3 257] ∧
    (feed st8 [.hostWrite .reg 9 1]).env.inputs = [.hostWrite .reg 9 1] := ⟨rfl, rfl, rfl, rfl⟩

theorem witness_OtherRegisterWritesAreIgnored :
    st8.env.par.ok = true ∧
    (feed st8 [.hostWrite .reg 10 5]).env.inputs = [.hostWrite .reg 10 5] := ⟨rfl, rfl⟩

/-- The last byte of `PW`, the index behind the last sample, and a core-written buffer. -/
theorem witness_BufferWritesStoreOneElement :
    (∀ es, (feed st8 es).Good) ∧ st8.status.busy = false ∧
    (∀ sp n, (sp, n) ∈ [(Space.pw, 255), (Space.din, 4096), (Space.sin, 32768), (Space.dout, 0)] →
      sp ≠ .reg ∧ (feed st8 [.hostWrite sp n 7]).env.inputs = [.hostWrite sp n 7]) :=
  ⟨good_st8, rfl, fun sp n h => ⟨by rintro rfl; revert h; simp, rfl⟩⟩

theorem witness_StatusWriteAcknowledges :
    (feed { st8 with status := .completed } [.hostWrite .reg 1 2]).env.par.ok = true ∧
    (feed { st8 with status := .completed } [.hostWrite .reg 1 2]).status.busy = false ∧
    (feed { st8 with status := .completed } [.hostWrite .reg 1 2]).env.inputs =
      [.hostWrite .reg 1 2] := ⟨rfl, rfl, rfl⟩

/-- A write of `CTRL` that sets `IE` and one that clears it, idle and running. -/
theorem witness_InterruptFollowsDoneAndEnable :
    st8.env.par.ok = true ∧ (1 : BitVec 64).getLsbD 1 = false ∧ (0 : BitVec 64).getLsbD 1 = false ∧
    (∀ v, (feed st8 [.hostWrite .reg 2 v]).env.inputs = [.hostWrite .reg 2 v]) ∧
    (busy 2 []).env.par.ok = true ∧ (busy 2 []).status.busy = true ∧
    ∀ v, (busy 2 [.hostWrite .reg 2 v]).env.inputs = [.hostWrite .reg 2 v] :=
  ⟨rfl, by decide, by decide, fun _ => rfl, rfl, rfl, fun _ => rfl⟩

/-- For CompletionFrame, UnproducedOutputsAreZero and ErrorCodesOfEachCommand: every command ends in
a next state from one state, `ENC` and `HIDE` with a draw. -/
theorem witness_CompletionFrame :
    (∀ i, i ∈ [Instr.kdf, .dec, .qnt, .emb, .ext false, .ext true, .xtd, .reveal, .cap, .rqb] →
      ∃ t, exec i st8 = .next t ∧ t.env.drawn = 0) ∧
    (∃ t, exec .enc encState = .next t ∧ t.env.drawn = 1) ∧
    ∃ t, exec .hide (hideState 440) = .next t ∧ t.env.drawn = 1 := by
  refine ⟨fun i h => ?_, ⟨_, rfl, rfl⟩, _,
    execHide_of_checks (s := hideState 440) (by decide), rfl⟩
  simp only [List.mem_cons, List.not_mem_nil, or_false] at h
  rcases h with rfl | rfl | rfl | rfl | rfl | rfl | rfl | rfl | rfl | rfl <;> exact ⟨_, rfl, rfl⟩

theorem witness_ErrorLeavesOnlyItsContext :
    (∃ t, exec .qnt st8bad = .next t ∧ t.status.err = true) ∧
    ∃ t, exec .qnt st8 = .next t ∧ t.status.err = false :=
  ⟨⟨_, rfl, by decide +kernel⟩, _, rfl, by decide +kernel⟩

/-- A state that differs in all that no command reads. -/
def stOld : State :=
  { st8 with cmd := 0x21, status := .failed .invalidPadding, ie := true, out := bytesOut hello }

theorem witness_ResultsDependOnOperandsOnly :
    stOld.opnd = st8.opnd ∧ stOld.bufs = st8.bufs ∧ stOld.env.par = st8.env.par ∧
    stOld.nextDraw = st8.nextDraw ∧ stOld.out ≠ st8.out := ⟨rfl, rfl, rfl, rfl, by decide⟩

/-- `hideState 440` with other values in the operands a command does not read. -/
def hideWith (o : OperandRegs → OperandRegs) : State :=
  { hideState 440 with opnd := o (hideState 440).opnd }

/-- One pair of states for each command, unequal in an operand it does not read. -/
theorem witness_UnreadOperandsHaveNoEffect :
    (∀ o, (hideWith o).env.par = (hideState 440).env.par ∧
      (hideWith o).nextDraw = (hideState 440).nextDraw) ∧
    ((hideWith fun o => { o with dlen := 9 }).opnd.pwlen = (hideState 440).opnd.pwlen ∧
      (hideWith fun o => { o with dlen := 9 }).password = (hideState 440).password) ∧
    ((hideWith fun o => { o with nbits := 9 }).opnd.dlen = (hideState 440).opnd.dlen ∧
      (hideWith fun o => { o with nbits := 9 }).data = (hideState 440).data) ∧
    ((hideWith fun o => { o with nchan := 440, nfrm := 1 }).sampleCount =
        (hideState 440).sampleCount ∧
      (hideWith fun o => { o with nchan := 440, nfrm := 1 }).samples = (hideState 440).samples ∧
      (hideWith fun o => { o with nchan := 440, nfrm := 1 }).bitBytes = (hideState 440).bitBytes ∧
      (hideWith fun o => { o with nchan := 440, nfrm := 1 }).opnd.maxbits =
        (hideState 440).opnd.maxbits) ∧
    (hideWith fun o => { o with pwlen := 999 }).opnd.arg = (hideState 440).opnd.arg :=
  ⟨fun _ => ⟨rfl, rfl⟩, ⟨rfl, rfl⟩, ⟨rfl, rfl⟩, ⟨by decide, by decide +kernel, rfl, rfl⟩, rfl⟩

/-- Each operand id at its first failing value, the ids before it at their last legal one. -/
theorem witness_OperandRangeErrors :
    (st { regs with pwlen := 257 } bufs []).opnd.pwlen.toNat > State.reset.env.par.pwCap ∧
    (st { regs with pwlen := 256, dlen := 4097 } bufs []).opnd.pwlen.toNat ≤
      State.reset.env.par.pwCap ∧
    (st { regs with pwlen := 256, dlen := 4097 } bufs []).opnd.dlen.toNat >
      State.reset.env.par.dCap ∧
    stWide.opnd.nchan.toNat * stWide.opnd.nfrm.toNat > stWide.env.par.sCap ∧
    stWide.opnd.pwlen.toNat ≤ stWide.env.par.pwCap ∧
    stWide.opnd.dlen.toNat ≤ stWide.env.par.dCap ∧
    (st { regs with dlen := 4080 } bufs []).opnd.dlen.toNat ≤ State.reset.env.par.dCap ∧
    16 * ((st { regs with dlen := 4080 } bufs []).opnd.dlen.toNat / 16 + 2) >
      State.reset.env.par.dCap ∧
    (st { regs with dlen := 4048 } bufs []).opnd.dlen.toNat ≤ State.reset.env.par.dCap ∧
    16 * ((st { regs with dlen := 4048 } bufs []).opnd.dlen.toNat / 16 + 2) + 23 >
      State.reset.env.par.dCap := by decide

theorem witness_KdfCommand :
    (st { regs with pwlen := 256 } bufs []).opnd.pwlen.toNat ≤ State.reset.env.par.pwCap ∧
    (st { regs with pwlen := 257 } bufs []).opnd.pwlen.toNat > State.reset.env.par.pwCap := by
  decide

/-- V-ENC-11, V-ENC-14, V-ENC-13, and V-ENC-12's length with a draw of either kind. -/
theorem witness_EncCommand :
    (∀ d, (st { regs with pwlen := 256, dlen := 4079 } bufs [d]).env.par.ok = true ∧
      (st { regs with pwlen := 256, dlen := 4079 } bufs [d]).nextDraw = d) ∧
    (257#32).toNat > State.reset.env.par.pwCap ∧ (256#32).toNat ≤ State.reset.env.par.pwCap ∧
    (4097#32).toNat > State.reset.env.par.dCap ∧ (4080#32).toNat ≤ State.reset.env.par.dCap ∧
    16 * ((4080#32).toNat / 16 + 2) > State.reset.env.par.dCap ∧
    16 * ((4079#32).toNat / 16 + 2) ≤ State.reset.env.par.dCap ∧
    draw0.ok = true ∧ (Draw.mk false draw0.iv).ok = false :=
  ⟨fun _ => ⟨(by decide : Params.reference.ok = true), rfl⟩, by decide, by decide, by decide,
    by decide, by decide, by decide, rfl, rfl⟩

/-- What CBC decryption of an envelope gives. -/
def plain (e pw : List Byte) : List Byte :=
  cbcDec (keyExpansion (deriveKey pw)) (e.take 16) (e.drop 16)

def lastByte (p : List Byte) : Nat := (p.getD (p.length - 1) 0).toNat

/-- The recovered blocks of V-DEC-1, V-DEC-15, V-DEC-16 and V-DEC-19. -/
theorem plain_blocks :
    plain e1 secret = hello ++ List.replicate 11 0x0b ∧
    plain (e1.set 15 0x0e) secret = hello ++ List.replicate 10 0x0b ++ [0x0a] ∧
    plain (e1.set 15 0x04) secret = hello ++ List.replicate 10 0x0b ++ [0x00] ∧
    plain (e1.set 4 0x84) secret =
      [0x68, 0x65, 0x6c, 0x6c, 0xef] ++ List.replicate 11 0x0b := by decide +kernel

/-- V-DEC-8, V-DEC-9, V-DEC-10, then V-DEC-16, V-DEC-15, V-DEC-19, V-DEC-1. -/
theorem witness_DecryptBytesSteps :
    (e1.take 15).length < 16 ∧ (e1.take 16).length = 16 ∧ 16 ≤ (e1.take 31).length ∧
    (e1.take 31).length % 16 ≠ 0 ∧ 32 ≤ e1.length ∧ e1.length % 16 = 0 ∧
    lastByte (plain (e1.set 15 0x04) secret) < 1 ∧
    lastByte (plain (e1.set 15 0x0e) secret) = 10 ∧
    ((plain (e1.set 15 0x0e) secret).getD 14 0).toNat ≠ 10 ∧
    lastByte (plain e1 secret) = 11 ∧
    ((plain e1 secret).drop 5).all (fun b => b.toNat == 11) = true ∧
    utf8FirstBad ((plain (e1.set 4 0x84) secret).take 5) = some 4 ∧
    utf8FirstBad ((plain e1 secret).take 5) = none := by
  obtain ⟨h1, h2, h3, h4⟩ := plain_blocks
  rw [h1, h2, h3, h4]
  decide

theorem witness_DecCommand :
    (257#32).toNat > decState.env.par.pwCap ∧ (4097#32).toNat > decState.env.par.dCap ∧
    decState.env.par.ok = true ∧ decState.opnd.pwlen.toNat ≤ decState.env.par.pwCap ∧
    decState.opnd.dlen.toNat ≤ decState.env.par.dCap ∧
    decryptBytes decState.data decState.password = .ok hello ∧
    decryptBytes (st regs bufs []).data (st regs bufs []).password =
      .error ⟨.malformedEnvelope, 1, 0⟩ := by decide +kernel

/-- A string of each side of the one-block limit. -/
theorem witness_ShaPaddingShape :
    8 * (List.replicate 55 (0x61 : Byte)).length < 2 ^ 64 ∧
    8 * (List.replicate 56 (0x61 : Byte)).length < 2 ^ 64 := by decide

theorem witness_SboxIsTheAffineImageOfTheInverse :
    ((0 : Byte) = 0 ∧ (0 : Byte) = 0) ∧ gmul 0x01 0x01 = 0x01#8 ∧ gmul 0x53 0xca = 0x01#8 := by
  decide +kernel

theorem witness_InvCipherInvertsCipher : iv0.length = 16 := rfl

/-- For CbcEncChainsTheBlocks too, with `j = 0` and `j = 1` of the two blocks. -/
theorem witness_CbcDecInvertsCbcEnc :
    iv0.length = 16 ∧ 0 < e1.length ∧ e1.length % 16 = 0 ∧ 1 < e1.length / 16 := by decide

/-- V-UNP-3, V-UNP-5, V-UNP-6 and V-UNP-1. -/
theorem witness_UnpadAcceptsExactlyPaddedStrings :
    lastByte (List.replicate 16 0x00) = 0 ∧ lastByte (List.replicate 15 0x41 ++ [0x11]) = 17 ∧
    lastByte (List.replicate 14 0x41 ++ [0x03, 0x02]) = 2 ∧
    ((List.replicate 14 (0x41 : Byte) ++ [0x03, 0x02]).getD 14 0).toNat ≠ 2 ∧
    lastByte (List.replicate 16 0x10) = 16 ∧
    (List.replicate 16 (0x10 : Byte)).all (fun b => b.toNat == 16) = true := by decide

theorem wellFormed_hello : WellFormedUtf8 hello :=
  ⟨[[0x68], [0x65], [0x6c], [0x6c], [0x6f]], rfl, by unfold Utf8Sequence; decide⟩

theorem witness_EncThenDecGivesThePlaintext :
    encState.env.par.ok = true ∧ encState.opnd.pwlen.toNat ≤ encState.env.par.pwCap ∧
    16 * (encState.opnd.dlen.toNat / 16 + 2) ≤ encState.env.par.dCap ∧
    encState.nextDraw.ok = true ∧ WellFormedUtf8 encState.data ∧
    ∀ t : State, ∃ s' : State, s'.env.par = encState.env.par ∧
      s'.opnd.pwlen = encState.opnd.pwlen ∧ s'.bufs.pw = encState.bufs.pw ∧
      s'.opnd.dlen = t.out.olen ∧ s'.bufs.din = t.out.dout :=
  ⟨rfl, by decide, by decide, rfl, wellFormed_hello, fun t =>
    ⟨st { encState.opnd with dlen := t.out.olen } { encState.bufs with din := t.out.dout } [],
      rfl, rfl, rfl, rfl, rfl⟩⟩

/-- A tie: 1/2. -/
theorem witness_RoundIntIsNearestTiesToEven :
    0 < 2 ∧ 2 * |(1 : Int) - roundInt 1 2 * (2 : Nat)| = (2 : Nat) := by decide

/-- 1/3, an overflow, and `1 - 2^-26`, which rounds up to a power of two above the least exponent. -/
theorem witness_RoundFloatIsNearestTiesToEven :
    0 < 1 ∧ 0 < 3 ∧ roundFloat .f32 false 1 3 = .fin false 11184811 (-25) ∧
    roundFloat .f32 true (2 ^ 128) 1 = .inf true ∧
    roundFloat .f32 false (2 ^ 26 - 1) (2 ^ 26) = .fin false (2 ^ 23) (-23) ∧
    1 - (expBias .f32 : Int) - (precision .f32 - 1) < -23 := by decide +kernel

/-- The smallest subnormal and the largest finite number of binary64. -/
theorem witness_PatternHasItsValue :
    (1 : Nat) < 2 ^ precision .f64 ∧ 2 ^ 53 - 1 < 2 ^ precision .f64 ∧
    (1 - (expBias .f64 : Int) - (precision .f64 - 1) ≤ -1074) ∧
    ((-1074 : Int) = 1 - (expBias .f64 : Int) - (precision .f64 - 1)) ∧
    ((971 : Int) ≤ (expBias .f64 : Int) - (precision .f64 - 1)) ∧
    ¬ 2 ^ 53 - 1 < 2 ^ (precision .f64 - 1) := by decide +kernel

theorem witness_QuantInvertsDequant :
    (-32768 : Int) ≤ -32768 ∧ (-32768 : Int) ≤ 32767 ∧ (32767 : Int) ≤ 32767 := by decide

theorem wide_range : stWide.sampleCount > stWide.env.par.sCap := by decide

theorem quantizes_b8 : st8.QuantizesTo q8 := by unfold State.QuantizesTo; decide +kernel

theorem fails_b8 : st8bad.SampleFailsAt 2 .nonfinite := by
  refine ⟨by decide, by decide, fun j hj => ?_, by decide +kernel⟩
  obtain rfl | rfl : j = 0 ∨ j = 1 := by omega
  · exact ⟨16384, by decide +kernel⟩
  · exact ⟨-32767, by decide +kernel⟩

/-- `N = 0` quantizes to nothing. -/
theorem quantizes_nothing : (st regs bufs []).QuantizesTo [] :=
  ⟨by decide, rfl, fun i h => absurd h (Nat.not_lt_zero i)⟩

/-- One pattern for each case of `Quant1`: a NaN, an infinity, an overflowing product, a value
outside the int16 range, 1. -/
theorem witness_quant1_cases :
    floatOf .f64 0x7FF8000000000000 = none ∧
    floatOf .f64 0x7FF0000000000000 = some (.inf false) ∧
    (floatOf .f64 0x7FEFFFFFFFFFFFFF = some (.fin false (2 ^ 53 - 1) 971) ∧
      roundFloat .f64 false ((2 ^ 53 - 1) * 32767 * 2 ^ 971) 1 = .inf false) ∧
    (floatOf .f32 0x40000000 = some (.fin false (2 ^ 23) (-22)) ∧
      roundFloat .f32 false (2 ^ 23 * 32767) (2 ^ 22) = .fin false (65534 * 2 ^ 8) (-8) ∧
      roundInt (65534 * 2 ^ 8) (2 ^ 8) > 32767) ∧
    (floatOf .f32 0x3F800000 = some (.fin false (2 ^ 23) (-23)) ∧
      roundFloat .f32 false (2 ^ 23 * 32767) (2 ^ 23) = .fin false (32767 * 2 ^ 9) (-9) ∧
      roundInt (32767 * 2 ^ 9) (2 ^ 9) = 32767) := by decide +kernel

theorem witness_QntCommand :
    stWide.env.par.ok = true ∧ stWide.sampleCount > stWide.env.par.sCap ∧
    st8bad.env.par.ok = true ∧ st8bad.SampleFailsAt 2 .nonfinite ∧
    st8.env.par.ok = true ∧ st8.QuantizesTo q8 ∧ (st regs bufs []).QuantizesTo [] :=
  ⟨rfl, wide_range, rfl, fails_b8, rfl, quantizes_b8, quantizes_nothing⟩

/-- V-EMB-5 and V-EMB-4: one bit too many, and the exact fit. -/
theorem witness_EmbCommand :
    stWide.sampleCount > stWide.env.par.sCap ∧ st8bad.SampleFailsAt 2 .nonfinite ∧
    (st { reg8 with nbits := 9 } in8 []).QuantizesTo q8 ∧
    (9#32).toNat > (st { reg8 with nbits := 9 } in8 []).sampleCount ∧
    st8.QuantizesTo q8 ∧ st8.opnd.nbits.toNat ≤ st8.sampleCount :=
  ⟨wide_range, fails_b8, by unfold State.QuantizesTo; decide +kernel, by decide, quantizes_b8,
    by decide⟩

theorem witness_ExtCommand :
    stWide.sampleCount > stWide.env.par.sCap ∧ st8bad.SampleFailsAt 2 .nonfinite ∧
    st8.QuantizesTo q8 ∧ min st8.opnd.maxbits.toNat st8.sampleCount = 8 :=
  ⟨wide_range, fails_b8, quantizes_b8, by decide⟩

/-- No delimiter stands in fewer than 23 bytes. -/
theorem no_delimiter_of_short {bs : List Byte} (h : bs.length < 23) (n : Nat) :
    ¬ FirstDelimiterAt bs n := by
  rintro ⟨h1, -⟩
  have h2 := congrArg List.length h1
  simp [delimiter] at h2
  omega

/-- The quantized samples of a carrier of section 2.9. -/
def bitInts (b : List Byte) : List Int :=
  (bitsOf b (8 * b.length)).map (fun x => if x then 1 else 0)

/-- V-XTD-2: the delimiter at offset 0. -/
def stDelim : State := st { regs with nchan := 1, nfrm := 184 } { bufs with sin := carrier delim } []

theorem quantizes_delim : stDelim.QuantizesTo (bitInts delim) :=
  quantizesTo_of_quantized (by decide +kernel)

theorem witness_XtdCommand :
    stWide.sampleCount > stWide.env.par.sCap ∧ st8bad.SampleFailsAt 2 .nonfinite ∧
    (stDelim.QuantizesTo (bitInts delim) ∧
      FirstDelimiterAt (bytesOf ((bitInts delim).map getLsb)) 0) ∧
    st8.QuantizesTo q8 ∧ ∀ n, ¬ FirstDelimiterAt (bytesOf (q8.map getLsb)) n :=
  ⟨wide_range, fails_b8,
    ⟨quantizes_delim, by unfold FirstDelimiterAt; decide +kernel⟩, quantizes_b8,
    no_delimiter_of_short (by decide +kernel)⟩

theorem witness_SetLsbChangesBitZeroOnly :
    (-32768 : Int) ≤ -32768 ∧ (-32768 : Int) ≤ 32767 ∧ (32767 : Int) ≤ 32767 := by decide

theorem witness_EmbThenExtGivesTheBits :
    st8.QuantizesTo q8 ∧ ∃ t s' : State, st8.env.par.ok = true ∧ exec .emb st8 = .next t ∧ t.Succeeded ∧
      s'.env.par = st8.env.par ∧ s'.bufs.sin = t.out.sout ∧ s'.opnd.nchan = st8.opnd.nchan ∧
      s'.opnd.nfrm = st8.opnd.nfrm ∧ s'.opnd.maxbits = st8.opnd.nbits :=
  ⟨quantizes_b8, st8.complete (embResult st8),
    { st8 with bufs := { bufs with sin := (st8.complete (embResult st8)).out.sout } }, rfl, rfl,
    by unfold State.Succeeded; decide +kernel, rfl, rfl, rfl, rfl, rfl⟩

theorem quantizes_silence (n : Nat) (h : n ≤ 32768) :
    (hideState n).QuantizesTo (List.replicate n 0) := by
  have hn : (hideState n).sampleCount = n := by
    show (1#32).toNat * (BitVec.ofNat 32 n).toNat = n
    have : (BitVec.ofNat 32 n).toNat = n := by rw [BitVec.toNat_ofNat]; omega
    rw [this, show (1#32).toNat = 1 from rfl, Nat.one_mul]
  have h0 : quant1 .f64 0 = .ok 0 := by decide +kernel
  refine ⟨by rw [hn]; exact h, by rw [hn, List.length_replicate], fun i hi => ?_⟩
  rw [List.getD_replicate _ (hn ▸ hi)]
  exact h0

/-- A NaN behind the samples the blob needs (V-HIDE-6). -/
def hideBad : State :=
  st (hideState 441).opnd { encState.bufs with sin := [(440, 0x7FF8000000000000)] } [draw0]

theorem fails_hideBad : hideBad.SampleFailsAt 440 .nonfinite := by
  have hn : hideBad.sampleCount = 441 := by decide
  have h0 : quant1 .f64 0 = .ok 0 := by decide +kernel
  refine ⟨by decide, by decide, fun j hj => ⟨0, ?_⟩, by decide +kernel⟩
  have : Memory.read hideBad.bufs.sin j = 0 := by
    show (if j = 440 then _ else _) = _
    rw [if_neg (by omega)]; rfl
  rw [this]
  exact h0

/-- A draw that fails, on the exact fit. -/
def hideNoDraw : State := st (hideState 440).opnd encState.bufs [⟨false, draw0.iv⟩]

/-- The smallest instance, on which the blob of 16 bytes of plaintext does not fit `DOUT`. -/
def hideSmall : State :=
  { st { regs with dlen := 16 } bufs [draw0] with
    env := { State.reset.env with par := ⟨256, 64, 512, .f64⟩, answers := [draw0] } }

/-- What `HIDE` embeds. -/
def blobOf (s : State) : List Byte :=
  s.nextDraw.iv.toList ++
    cbcEnc (keyExpansion (deriveKey s.password)) s.nextDraw.iv.toList (pad s.data) ++ delim

/-- V-HIDE-8 in the small, V-HIDE-5, V-HIDE-6, V-HIDE-3 and V-HIDE-2. -/
theorem witness_HideCommand :
    (257#32).toNat > State.reset.env.par.pwCap ∧ (4097#32).toNat > State.reset.env.par.dCap ∧
    (stWide.opnd.pwlen.toNat ≤ stWide.env.par.pwCap ∧
      stWide.opnd.dlen.toNat ≤ stWide.env.par.dCap ∧
      stWide.sampleCount > stWide.env.par.sCap) ∧
    (hideSmall.env.par.ok = true ∧ hideSmall.opnd.pwlen.toNat ≤ hideSmall.env.par.pwCap ∧
      hideSmall.opnd.dlen.toNat ≤ hideSmall.env.par.dCap ∧
      hideSmall.sampleCount ≤ hideSmall.env.par.sCap ∧
      (blobOf hideSmall).length > hideSmall.env.par.dCap) ∧
    ((hideState 440).env.par.ok = true ∧
      (hideState 440).opnd.pwlen.toNat ≤ (hideState 440).env.par.pwCap ∧
      (hideState 440).sampleCount ≤ (hideState 440).env.par.sCap ∧
      blobOf (hideState 440) = e1 ++ delim ∧
      (e1 ++ delim).length ≤ (hideState 440).env.par.dCap) ∧
    hideNoDraw.nextDraw.ok = false ∧
    (hideState 440).nextDraw.ok = true ∧ hideBad.SampleFailsAt 440 .nonfinite ∧
    ((hideState 439).QuantizesTo (List.replicate 439 0) ∧ 8 * (e1 ++ delim).length > 439) ∧
    (hideState 440).QuantizesTo (List.replicate 440 0) ∧ 8 * (e1 ++ delim).length ≤ 440 :=
  ⟨by decide, by decide, ⟨by decide, by decide, wide_range⟩,
    ⟨by decide, by decide, by decide, by decide, by decide +kernel⟩,
    ⟨by decide, by decide, by decide, by decide +kernel, by decide⟩, rfl, rfl, fails_hideBad,
    ⟨quantizes_silence 439 (by decide), by decide⟩, quantizes_silence 440 (by decide), by decide⟩

theorem bytes_bitInts : bytesOf ((bitInts (e1 ++ delim)).map getLsb) = e1 ++ delim := by
  decide +kernel

/-- Both outcomes behind a found delimiter: the envelope of V-REV-1, and V-REV-5's empty payload. -/
theorem witness_RevealCommand :
    (257#32).toNat > State.reset.env.par.pwCap ∧
    stWide.sampleCount > stWide.env.par.sCap ∧ st8bad.SampleFailsAt 2 .nonfinite ∧
    (st8.QuantizesTo q8 ∧ ∀ n, ¬ FirstDelimiterAt (bytesOf (q8.map getLsb)) n) ∧
    (stDelim.QuantizesTo (bitInts delim) ∧
      FirstDelimiterAt (bytesOf ((bitInts delim).map getLsb)) 0 ∧
      decryptBytes ((bytesOf ((bitInts delim).map getLsb)).take 0) stDelim.password =
        .error ⟨.malformedEnvelope, 1, 0⟩) ∧
    revealState.QuantizesTo (bitInts (e1 ++ delim)) ∧
    FirstDelimiterAt (bytesOf ((bitInts (e1 ++ delim)).map getLsb)) 32 ∧
    decryptBytes ((bytesOf ((bitInts (e1 ++ delim)).map getLsb)).take 32) revealState.password =
      .ok hello :=
  ⟨by decide, wide_range, fails_b8, ⟨quantizes_b8, no_delimiter_of_short (by decide +kernel)⟩,
    ⟨quantizes_delim, by unfold FirstDelimiterAt; decide +kernel, by decide +kernel⟩,
    quantizesTo_of_quantized (by decide +kernel),
    by rw [bytes_bitInts]; unfold FirstDelimiterAt; decide +kernel,
    by rw [bytes_bitInts]; decide +kernel⟩

/-- A state with 440 samples to reveal. -/
def seek (m : Memory 64) : State :=
  st (hideState 440).opnd { encState.bufs with sin := m } []

theorem seek_sin (m : Memory 64) : (seek m).bufs.sin = m := rfl

theorem hidden440_succeeded : hidden440.Succeeded := by
  unfold State.Succeeded; rw [test_hide.2.1]; rfl

theorem hidden440_delimiter :
    FirstDelimiterAt (Memory.readRun hidden440.out.dout 0 hidden440.out.olen.toNat)
      (hidden440.out.olen.toNat - 23) := by
  rw [test_hide.2.2]
  unfold FirstDelimiterAt; decide +kernel

theorem witness_HideThenRevealGivesThePlaintext :
    (hideState 440).env.par.ok = true ∧ exec .hide (hideState 440) = .next hidden440 ∧
    hidden440.Succeeded ∧ WellFormedUtf8 (hideState 440).data ∧
    FirstDelimiterAt (Memory.readRun hidden440.out.dout 0 hidden440.out.olen.toNat)
      (hidden440.out.olen.toNat - 23) ∧
    ∃ s' : State, s'.env.par = (hideState 440).env.par ∧
      s'.opnd.pwlen = (hideState 440).opnd.pwlen ∧ s'.bufs.pw = (hideState 440).bufs.pw ∧
      s'.opnd.nchan = (hideState 440).opnd.nchan ∧ s'.opnd.nfrm = (hideState 440).opnd.nfrm ∧
      s'.bufs.sin = hidden440.out.sout :=
  ⟨by decide, test_hide.1, hidden440_succeeded, wellFormed_hello, hidden440_delimiter,
    seek hidden440.out.sout, rfl, rfl, rfl, rfl, rfl, seek_sin _⟩

/-- V-CAP-5 and V-CAP-6: 440 samples hold the empty plaintext, 448 hold one byte. -/
theorem witness_CapIsSufficient :
    ((0 : Nat) : Int) ≤ maxUsableBytes 440 ∧ ((1 : Nat) : Int) ≤ maxUsableBytes 448 := by decide

end Sys2Proof.Tests
end

/-! The encoding family (30_encoding.md): the decoder by its fields, and O3, O7. -/

namespace Sys2Proof

/-! ### The fields of a command word (R86) -/

/-- The three fields of R86 make up the whole word. -/
theorem word_eq_of_fields {w v : Word} (hz : zeroField w = zeroField v)
    (hm : mbField w = mbField v) (ho : opcField w = opcField v) : w = v := by
  refine BitVec.eq_of_getLsbD_eq fun k hk => ?_
  rcases lt_trichotomy k 8 with hlt | rfl | hgt
  · have h := congrArg (·.getLsbD k) ho
    simpa [opcField, hlt] using h
  · exact hm
  · have h := congrArg (·.getLsbD (k - 9)) hz
    have hk' : k - 9 < 23 := by omega
    have e : 9 + (k - 9) = k := by omega
    simpa [zeroField, hk', e] using h

/-! ### Opcodes (R88) -/

theorem instrOfOpc_of_not_mem {opc : BitVec 8} (mb : Bool) (h : opc ∉ assignedOpcs) :
    instrOfOpc opc mb = none := by
  simp only [assignedOpcs, List.mem_cons, List.not_mem_nil, or_false, not_or] at h
  simp only [instrOfOpc, h, if_false]

/-- The row of R88 for an assigned `OPC`: the command it selects has that `OPC`, and `MB` in its word
when it is `EXT`. -/
theorem exists_instrOfOpc_of_mem {opc : BitVec 8} (mb : Bool) (h : opc ∈ assignedOpcs) :
    ∃ i, instrOfOpc opc mb = some i ∧ opcField (encode i) = opc ∧
      mbField (encode i) = (mb && opc == 0x12#8) := by
  simp only [assignedOpcs, List.mem_cons, List.not_mem_nil, or_false] at h
  rcases h with rfl | rfl | rfl | rfl | rfl | rfl | rfl | rfl | rfl | rfl | rfl <;>
    exact ⟨_, rfl, by cases mb <;> decide⟩

/-- The table of R88 has a command for the eleven assigned `OPC` values and for no other. -/
theorem exists_instrOfOpc_iff (opc : BitVec 8) (mb : Bool) :
    (∃ i, instrOfOpc opc mb = some i) ↔ opc ∈ assignedOpcs := by
  constructor
  · rintro ⟨i, h⟩
    by_contra hn
    simp [instrOfOpc_of_not_mem mb hn] at h
  · intro h
    obtain ⟨i, hi, -⟩ := exists_instrOfOpc_of_mem mb h
    exact ⟨i, hi⟩

/-- Whatever command is selected has the `OPC` that selected it, and `MB` in its word when it is
`EXT`. -/
theorem encode_fields_of_instrOfOpc {opc : BitVec 8} {mb : Bool} {i : Instr}
    (h : instrOfOpc opc mb = some i) :
    opcField (encode i) = opc ∧ mbField (encode i) = (mb && opc == 0x12#8) := by
  obtain ⟨j, hj, hfields⟩ := exists_instrOfOpc_of_mem mb ((exists_instrOfOpc_iff opc mb).1 ⟨i, h⟩)
  cases h.symm.trans hj
  exact hfields

/-! ### The decoder (R89) and the encoder -/

/-- No command's word has a bit set above bit 8. -/
theorem zeroField_encode (i : Instr) : zeroField (encode i) = 0#23 := by
  cases i with
  | ext mb => cases mb <;> decide
  | _ => decide

theorem decode_encode (i : Instr) : decode (encode i) = .ok i := by
  cases i with
  | ext mb => cases mb <;> rfl
  | _ => rfl

/-- What `decode` answers, said by the fields of the word. -/
theorem decode_eq_ok_iff_fields {w : Word} {i : Instr} :
    decode w = .ok i ↔
      zeroField w = 0#23 ∧ instrOfOpc (opcField w) (mbField w) = some i ∧
        (mbField w = false ∨ opcField w = 0x12#8) := by
  unfold decode
  by_cases hz : zeroField w = 0#23
  · cases hi : instrOfOpc (opcField w) (mbField w) with
    | none => simp [hz]
    | some j => cases hm : mbField w <;> by_cases ho : opcField w = 0x12#8 <;> simp [hz, ho]
  · simp [hz]

/-- `decode` accepts a command's word and no other as that command. -/
theorem decode_eq_ok_iff {w : Word} {i : Instr} : decode w = .ok i ↔ w = encode i := by
  constructor
  · intro h
    obtain ⟨hz, hi, hext⟩ := decode_eq_ok_iff_fields.1 h
    obtain ⟨hopc, hmb⟩ := encode_fields_of_instrOfOpc hi
    have hm : mbField w = (mbField w && opcField w == 0x12#8) := by
      rcases hext with hm | ho
      · simp [hm]
      · simp [ho]
    exact word_eq_of_fields (hz.trans (zeroField_encode i).symm) (hm.trans hmb.symm) hopc.symm
  · rintro rfl
    exact decode_encode i

/-- The three conditions of R89, each about one field. -/
theorem exists_decode_iff_fields (w : Word) :
    (∃ i, decode w = .ok i) ↔
      zeroField w = 0#23 ∧ opcField w ∈ assignedOpcs ∧
        (mbField w = false ∨ opcField w = 0x12#8) := by
  simp only [decode_eq_ok_iff_fields, exists_and_left, exists_and_right, exists_instrOfOpc_iff]

/-- The twelve words of the table of R88, in its order. -/
def tableWords : List Word :=
  [0x1#32, 0x2#32, 0x3#32, 0x10#32, 0x11#32, 0x12#32, 0x112#32, 0x13#32, 0x20#32, 0x21#32,
    0x30#32, 0x31#32]

theorem encode_mem_tableWords (i : Instr) : encode i ∈ tableWords := by
  cases i with
  | ext mb => cases mb <;> decide
  | _ => decide

theorem exists_decode_of_mem_tableWords {w : Word} (h : w ∈ tableWords) :
    ∃ i, decode w = .ok i := by
  simp only [tableWords, List.mem_cons, List.not_mem_nil, or_false] at h
  rcases h with rfl | rfl | rfl | rfl | rfl | rfl | rfl | rfl | rfl | rfl | rfl | rfl <;>
    exact ⟨_, rfl⟩

theorem exists_decode_iff_mem_tableWords (w : Word) :
    (∃ i, decode w = .ok i) ↔ w ∈ tableWords := by
  constructor
  · rintro ⟨i, h⟩
    rw [decode_eq_ok_iff.1 h]
    exact encode_mem_tableWords i
  · exact exists_decode_of_mem_tableWords

/-- Settles O3: the three conditions are those of the decoder's fields, and a decoded word is its
command's word, so it is in the table and keeps its `OPC`. -/
theorem legalWordsAreTheThreeConditions : Obligations.LegalWordsAreTheThreeConditions := by
  intro w
  refine ⟨exists_decode_iff_fields w, fun i h => ?_, exists_decode_iff_mem_tableWords w⟩
  rw [decode_eq_ok_iff.1 h]

namespace Machine

/-! ### Host writes while a command runs (R63, R97) -/

/-- While a command runs only a write of `CTRL` has an effect. -/
theorem hostWrite_of_busy {sp : Space} {n : Nat} {s : State} (v : BitVec 64)
    (hb : s.status.busy = true) (hn : ¬(sp = .reg ∧ n = 2)) : s.hostWrite sp n v = s := by
  simp only [State.hostWrite, hb, if_true, if_neg hn]

/-- Settles O7: `CMD` is register 0, and a running core ignores every write but one of `CTRL`. -/
theorem cmdWriteWhileRunningIsIgnored : Obligations.CmdWriteWhileRunningIsIgnored := by
  intro s v es hp hb hi
  have hw : s.popInput.hostWrite .reg 0 v = s.popInput := hostWrite_of_busy v hb (by decide)
  rw [step_of_input hp hi, State.takeInput, hw]

end Machine

end Sys2Proof

/-! The key derivation and hash family (40_kdf_sha256.md): the padded message and O35; the words,
schedule, rounds and blocks of SHA-256, the completions that deliver a byte string or fail, and O31. -/

namespace Sys2Proof.Machine

/-! ### The padded message (R106) -/

/-- The bit length of a message of `len` bytes as 8 bytes, most significant first (`LEN8`). -/
def bitLengthBytes (len : Nat) : List Byte :=
  (List.range 8).map fun k => BitVec.ofNat 8 (8 * len / 2 ^ (8 * (7 - k)))

@[simp] theorem length_bitLengthBytes (len : Nat) : (bitLengthBytes len).length = 8 := rfl

/-- Read back big-endian, `LEN8` is the bit length when that fits 64 bits. -/
theorem foldl_bitLengthBytes {len : Nat} (h : 8 * len < 2 ^ 64) :
    (bitLengthBytes len).foldl (fun a b => 256 * a + b.toNat) 0 = 8 * len := by
  simp only [bitLengthBytes, List.range, List.range.loop, List.map_cons, List.map_nil,
    List.foldl_cons, List.foldl_nil, BitVec.toNat_ofNat]
  omega

/-- The padded message in its three parts: what stands before the zeros, the zeros, `LEN8`. -/
theorem shaPadded_eq (m : List Byte) :
    shaPadded m = m ++ [0x80#8] ++ List.replicate ((55 + 64 - m.length % 64) % 64) 0#8 ++
      bitLengthBytes m.length := by
  simp [shaPadded, shaPadding, bitLengthBytes]

theorem length_shaPadded (m : List Byte) :
    (shaPadded m).length = m.length + 9 + (55 + 64 - m.length % 64) % 64 := by
  rw [shaPadded, List.length_append, length_shaPadding, Nat.add_assoc]

theorem length_shaPadded_mod (m : List Byte) : (shaPadded m).length % 64 = 0 := by
  rw [length_shaPadded]; omega

theorem take_shaPadded (m : List Byte) : (shaPadded m).take m.length = m :=
  List.take_left' rfl

theorem getD_shaPadded_marker (m : List Byte) : (shaPadded m).getD m.length 0 = 0x80#8 := by
  rw [shaPadded, List.getD_append_right _ _ _ _ le_rfl, Nat.sub_self]
  rfl

/-- Between the byte 0x80 and `LEN8` every byte is 0. -/
theorem getD_shaPadded_zeros {m : List Byte} {k : Nat} (h1 : m.length < k)
    (h2 : k + 8 < (shaPadded m).length) : (shaPadded m).getD k 0 = 0#8 := by
  rw [length_shaPadded] at h2
  have before : (m ++ [0x80#8]).length = m.length + 1 := by simp
  rw [shaPadded_eq, List.getD_append _ _ _ _ (by simp; omega),
    List.getD_append_right _ _ _ _ (by omega)]
  exact List.getD_replicate _ (by omega)

theorem drop_shaPadded (m : List Byte) :
    (shaPadded m).drop ((shaPadded m).length - 8) = bitLengthBytes m.length := by
  have hl := length_shaPadded m
  rw [shaPadded_eq, List.drop_left']
  rw [← shaPadded_eq, hl]
  simp; omega

/-- Settles O35: the parts of the padded message, one lemma each. -/
theorem shaPaddingShape : Obligations.ShaPaddingShape := by
  intro m hm
  have hl := length_shaPadded m
  refine ⟨length_shaPadded_mod m, by omega, by omega, take_shaPadded m, getD_shaPadded_marker m,
    fun k => getD_shaPadded_zeros, ?_⟩
  rw [drop_shaPadded, foldl_bitLengthBytes hm]

/-! ### The words of a block (R107, R108) -/

/-- Four bytes weighed big-endian are the bytes side by side. -/
theorem ofNat_bytes_eq_append (a b c d : Byte) :
    BitVec.ofNat 32 (a.toNat * 2 ^ 24 + b.toNat * 2 ^ 16 + c.toNat * 2 ^ 8 + d.toNat) =
      a ++ b ++ c ++ d := by
  refine BitVec.eq_of_toNat_eq ?_
  rw [BitVec.toNat_append, BitVec.toNat_append, BitVec.toNat_append, BitVec.toNat_ofNat,
    ← Nat.shiftLeft_add_eq_or_of_lt b.isLt, ← Nat.shiftLeft_add_eq_or_of_lt c.isLt,
    ← Nat.shiftLeft_add_eq_or_of_lt d.isLt]
  simp only [Nat.shiftLeft_eq]
  omega

/-- Word `t` of a string is its bytes `4t .. 4t+3`, when the string has them. -/
theorem getD_shaWords (p : List Byte) (t : Nat) (h : 4 * t + 4 ≤ p.length) :
    (shaWords p).getD t 0 =
      p.getD (4 * t) 0#8 ++ p.getD (4 * t + 1) 0#8 ++ p.getD (4 * t + 2) 0#8 ++
        p.getD (4 * t + 3) 0#8 := by
  fun_induction shaWords p generalizing t with
  | case1 b0 b1 b2 b3 rest ih =>
    cases t with
    | zero => exact ofNat_bytes_eq_append b0 b1 b2 b3
    | succ t =>
      simp only [List.length_cons] at h
      exact ih t (by omega)
  | case2 p hp =>
    match p, hp with
    | [], _ | [_], _ | [_, _], _ | [_, _, _], _ =>
      simp only [List.length_cons, List.length_nil] at h; omega
    | _ :: _ :: _ :: _ :: _, hp => exact absurd rfl (hp _ _ _ _ _)

/-- The sixteen words of block `j` of a string of words. -/
def shaBlock (ws : List Word) (j : Nat) : List Word := (ws.drop (16 * j)).take 16

theorem getD_shaBlock (ws : List Word) (j : Nat) {t : Nat} (ht : t < 16) :
    (shaBlock ws j).getD t 0 = ws.getD (16 * j + t) 0 := by
  simp [shaBlock, List.getD_eq_getElem?_getD, ht]

theorem length_shaWords (p : List Byte) : (shaWords p).length = p.length / 4 := by
  fun_induction shaWords p with
  | case1 b0 b1 b2 b3 rest ih => simp [ih]; omega
  | case2 p hp =>
    match p, hp with
    | [], _ | [_], _ | [_, _], _ | [_, _, _], _ => simp
    | _ :: _ :: _ :: _ :: _, hp => exact absurd rfl (hp _ _ _ _ _)

/-- A block that lies inside the string has its sixteen words. -/
theorem length_shaBlock {p : List Byte} {j : Nat} (h : j < p.length / 64) :
    (shaBlock (shaWords p) j).length = 16 := by
  rw [shaBlock, List.length_take, List.length_drop, length_shaWords]
  omega

/-- The model's rotation is the library's, below the word's width. -/
theorem rotr32_eq_rotateRight (x : Word) {n : Nat} (h : n < 32) : rotr32 x n = x.rotateRight n :=
  (BitVec.rotateRight_eq_rotateRightAux_of_lt h).symm

/-! ### The message schedule (R111) -/

/-- The schedule after `n` of its 48 made words. -/
def shaScheduleUpTo (m : List Word) (n : Nat) : List Word :=
  (List.range' 16 n).foldl (fun w t => w ++ [shaScheduleWord w t]) m

theorem shaScheduleUpTo_succ (m : List Word) (n : Nat) :
    shaScheduleUpTo m (n + 1) =
      shaScheduleUpTo m n ++ [shaScheduleWord (shaScheduleUpTo m n) (16 + n)] := by
  rw [shaScheduleUpTo, List.range'_1_concat, List.foldl_append]
  rfl

theorem length_shaScheduleUpTo (m : List Word) (n : Nat) :
    (shaScheduleUpTo m n).length = m.length + n := by
  induction n with
  | zero => rfl
  | succ n ih => rw [shaScheduleUpTo_succ, List.length_append, ih]; rfl

/-- Words appended from place `t` on do not change the word made at `t`. -/
theorem shaScheduleWord_append {w : List Word} (w' : List Word) {t : Nat} (h16 : 16 ≤ t)
    (ht : t ≤ w.length) : shaScheduleWord (w ++ w') t = shaScheduleWord w t := by
  have old : ∀ k, 0 < k → (w ++ w').getD (t - k) 0 = w.getD (t - k) 0 := fun k hk =>
    List.getD_append _ _ _ _ (by omega)
  simp only [shaScheduleWord, old 2 (by omega), old 7 (by omega), old 15 (by omega),
    old 16 (by omega)]

/-- The first sixteen words of the schedule are the block's. -/
theorem getD_shaScheduleUpTo_of_lt {m : List Word} (n : Nat) {t : Nat} (ht : t < m.length) :
    (shaScheduleUpTo m n).getD t 0 = m.getD t 0 := by
  induction n with
  | zero => rfl
  | succ n ih =>
    rw [shaScheduleUpTo_succ, List.getD_append _ _ _ _ (by rw [length_shaScheduleUpTo]; omega), ih]

/-- Every later word of the schedule is made from the schedule itself. -/
theorem getD_shaScheduleUpTo_of_ge {m : List Word} (hm : m.length = 16) {n t : Nat} (h16 : 16 ≤ t)
    (ht : t < 16 + n) :
    (shaScheduleUpTo m n).getD t 0 = shaScheduleWord (shaScheduleUpTo m n) t := by
  induction n with
  | zero => omega
  | succ n ih =>
    have hl : (shaScheduleUpTo m n).length = 16 + n := by rw [length_shaScheduleUpTo, hm]
    rw [shaScheduleUpTo_succ, shaScheduleWord_append _ h16 (by omega)]
    rcases Nat.lt_or_ge t (16 + n) with hlt | hge
    · rw [List.getD_append _ _ _ _ (by omega), ih hlt]
    · obtain rfl : t = 16 + n := by omega
      rw [List.getD_append_right _ _ _ _ (by omega), hl, Nat.sub_self]
      rfl

theorem length_shaSchedule {m : List Word} (hm : m.length = 16) : (shaSchedule m).length = 64 := by
  exact (length_shaScheduleUpTo m 48).trans (by rw [hm])

/-- R111 for `t < 16`. -/
theorem getD_shaSchedule_of_lt {m : List Word} (hm : m.length = 16) {t : Nat} (ht : t < 16) :
    (shaSchedule m).getD t 0 = m.getD t 0 :=
  getD_shaScheduleUpTo_of_lt 48 (by omega)

/-- R111 for `16 ≤ t < 64`. -/
theorem getD_shaSchedule_of_ge {m : List Word} (hm : m.length = 16) {t : Nat} (h16 : 16 ≤ t)
    (ht : t < 64) : (shaSchedule m).getD t 0 = shaScheduleWord (shaSchedule m) t :=
  getD_shaScheduleUpTo_of_ge (n := 48) hm h16 ht

/-- The schedule word with its rotations written as the library's. -/
theorem shaScheduleWord_eq (w : List Word) (t : Nat) :
    shaScheduleWord w t =
      ((w.getD (t - 2) 0).rotateRight 17 ^^^ (w.getD (t - 2) 0).rotateRight 19 ^^^
          w.getD (t - 2) 0 >>> 10) + w.getD (t - 7) 0 +
        ((w.getD (t - 15) 0).rotateRight 7 ^^^ (w.getD (t - 15) 0).rotateRight 18 ^^^
          w.getD (t - 15) 0 >>> 3) + w.getD (t - 16) 0 := by
  simp [shaScheduleWord, ssig0, ssig1, rotr32_eq_rotateRight]

/-! ### The rounds of a block (R109, R112) -/

/-- The working variables before round `t` of the compression of the block `m` into `hv`. -/
def shaVars (hv : HashValue) (m : List Word) (t : Nat) : HashValue :=
  ((shaK.zip (shaSchedule m)).take t).foldl (fun v kw => shaRound v kw.1 kw.2) hv

theorem shaVars_zero (hv : HashValue) (m : List Word) : shaVars hv m 0 = hv := rfl

theorem length_shaK : shaK.length = 64 := rfl

/-- Round `t` takes the constant and the schedule word of its number. -/
theorem shaVars_succ (hv : HashValue) {m : List Word} (hm : m.length = 16) {t : Nat} (ht : t < 64) :
    shaVars hv m (t + 1) =
      shaRound (shaVars hv m t) (shaK.getD t 0) ((shaSchedule m).getD t 0) := by
  have hk : t < shaK.length := by rw [length_shaK]; exact ht
  have hs : t < (shaSchedule m).length := by rw [length_shaSchedule hm]; exact ht
  have hz : t < (shaK.zip (shaSchedule m)).length := by rw [List.length_zip]; omega
  rw [shaVars, ← List.take_concat_get' _ _ hz, List.foldl_append, List.getElem_zip,
    List.getD_eq_getElem _ _ hk, List.getD_eq_getElem _ _ hs]
  rfl

/-- One round with its two sums written out and its rotations as the library's. -/
theorem shaRound_eq {x : HashValue} {k w t1 t2 : Word}
    (h1 : t1 = x.h + (x.e.rotateRight 6 ^^^ x.e.rotateRight 11 ^^^ x.e.rotateRight 25) +
      ((x.e &&& x.f) ^^^ (~~~x.e &&& x.g)) + k + w)
    (h2 : t2 = (x.a.rotateRight 2 ^^^ x.a.rotateRight 13 ^^^ x.a.rotateRight 22) +
      ((x.a &&& x.b) ^^^ (x.a &&& x.c) ^^^ (x.b &&& x.c))) :
    shaRound x k w = ⟨t1 + t2, x.a, x.b, x.c, x.d + t1, x.e, x.f, x.g⟩ := by
  simp [h1, h2, shaRound, bsig0, bsig1, shaCh, shaMaj, rotr32_eq_rotateRight]

/-- The addition at a block's end is to the working variables after round 63. -/
theorem shaCompress_eq (hv : HashValue) {m : List Word} (hm : m.length = 16) :
    shaCompress hv m =
      ⟨hv.a + (shaVars hv m 64).a, hv.b + (shaVars hv m 64).b, hv.c + (shaVars hv m 64).c,
        hv.d + (shaVars hv m 64).d, hv.e + (shaVars hv m 64).e, hv.f + (shaVars hv m 64).f,
        hv.g + (shaVars hv m 64).g, hv.h + (shaVars hv m 64).h⟩ := by
  have all : (shaK.zip (shaSchedule m)).take 64 = shaK.zip (shaSchedule m) :=
    List.take_of_length_le (by rw [List.length_zip, length_shaK, length_shaSchedule hm]; omega)
  rw [shaVars, all]
  rfl

/-! ### The blocks of a message (R113) -/

/-- The hash value after one block more is that block compressed into the one before. -/
theorem shaFold_succ (j : Nat) (hv : HashValue) (ws : List Word) :
    shaFold (j + 1) hv ws = shaCompress (shaFold j hv ws) (shaBlock ws j) := by
  induction j generalizing hv ws with
  | zero => rfl
  | succ j ih =>
    rw [shaFold, ih, shaFold]
    congr 1
    rw [shaBlock, shaBlock, List.drop_drop, Nat.mul_succ, Nat.add_comm]

/-- A hash value written out is its eight words, each big-endian. -/
theorem hashBytes_eq_flatMap (hv : HashValue) :
    hv.bytes = [hv.a, hv.b, hv.c, hv.d, hv.e, hv.f, hv.g, hv.h].flatMap be32 := by
  simp [HashValue.bytes]

/-- Block `j` of the padded message. -/
def paddedBlock (m : List Byte) (j : Nat) : List Word := shaBlock (shaWords (shaPadded m)) j

/-- The hash value of a message after `j` of its blocks. -/
def hashAfter (m : List Byte) (j : Nat) : HashValue := shaFold j shaInit (shaWords (shaPadded m))

theorem length_paddedBlock {m : List Byte} {j : Nat} (h : j < (shaPadded m).length / 64) :
    (paddedBlock m j).length = 16 := length_shaBlock h

/-- R107 for the words of a block inside the padded message. -/
theorem getD_paddedBlock {m : List Byte} {j t : Nat} (hj : j < (shaPadded m).length / 64)
    (ht : t < 16) :
    (paddedBlock m j).getD t 0 =
      (shaPadded m).getD (64 * j + 4 * t) 0#8 ++ (shaPadded m).getD (64 * j + 4 * t + 1) 0#8 ++
        (shaPadded m).getD (64 * j + 4 * t + 2) 0#8 ++
          (shaPadded m).getD (64 * j + 4 * t + 3) 0#8 := by
  have e : 64 * j + 4 * t = 4 * (16 * j + t) := by omega
  rw [paddedBlock, getD_shaBlock _ _ ht, getD_shaWords _ _ (by omega), e]

theorem hashAfter_succ (m : List Byte) (j : Nat) :
    hashAfter m (j + 1) = shaCompress (hashAfter m j) (paddedBlock m j) := shaFold_succ j _ _

/-- The digest is the hash value after all blocks, written out. -/
theorem sha256_eq (m : List Byte) :
    sha256 m = (hashAfter m ((shaPadded m).length / 64)).bytes := rfl

/-! ### The round constants (R109) -/

/-- The first 64 primes. -/
def shaPrimes : List Nat :=
  [2, 3, 5, 7, 11, 13, 17, 19, 23, 29, 31, 37, 41, 43, 47, 53, 59, 61, 67, 71, 73, 79, 83,
    89, 97, 101, 103, 107, 109, 113, 127, 131, 137, 139, 149, 151, 157, 163, 167, 173, 179, 181,
    191, 193, 197, 199, 211, 223, 227, 229, 233, 239, 241, 251, 257, 263, 269, 271, 277, 281,
    283, 293, 307, 311]

/-- The integer part of the cube root of a number below 343. -/
def cubeRootFloor (q : Nat) : Nat := ((List.range' 1 6).filter (fun c => c ^ 3 ≤ q)).length

/-- The cube root of prime number `t`, in units of `2^-32`: its integer part, then the constant. -/
def shaCubeRoot (t : Nat) : Nat :=
  cubeRootFloor (shaPrimes.getD t 0) * 2 ^ 32 + (shaK.getD t 0).toNat

theorem shaCubeRoot_mod (t : Nat) : (shaK.getD t 0).toNat = shaCubeRoot t % 2 ^ 32 := by
  have := (shaK.getD t 0).isLt
  rw [shaCubeRoot]
  omega

/-- Each of the 64 constants continues its prime's cube root, rounded down. -/
theorem shaCubeRoot_bounds : ∀ t < 64,
    shaCubeRoot t ^ 3 ≤ shaPrimes.getD t 0 * 2 ^ 96 ∧
      shaPrimes.getD t 0 * 2 ^ 96 < (shaCubeRoot t + 1) ^ 3 := by decide +kernel

/-! ### Completions -/

/-- A completion changes `STATUS`, the outputs and the hidden state only. -/
theorem untouched_complete (r : CmdResult) (s : State) : Untouched s (s.complete r) :=
  ⟨rfl, rfl, rfl, rfl, rfl, rfl, rfl, rfl⟩

theorem noDraw_complete (r : CmdResult) (s : State) : NoDraw s (s.complete r) := rfl

theorem allZero_cleared {w : Nat} : AllZero (Memory.cleared : Memory w) := fun _ => rfl

theorem succeeded_complete_ok (o : Outputs) (s : State) : (s.complete (.ok o)).Succeeded := by
  unfold State.Succeeded
  rw [State.complete_status, resultStatus_ok]
  decide

/-- A completion with a byte string delivers it, when its length fits `OLEN`. -/
theorem delivers_complete_bytesOut {b : List Byte} (h : b.length < 2 ^ 32) (s : State) :
    (s.complete (.ok (bytesOut b))).Delivers b := by
  refine ⟨succeeded_complete_ok _ s, ?_, fun k => ?_, rfl, rfl, rfl, rfl, ⟨rfl, rfl⟩,
    allZero_cleared, allZero_cleared⟩
  · exact (BitVec.toNat_ofNat _ _).trans (Nat.mod_eq_of_lt h)
  · exact Memory.read_writeRun_cleared b k

theorem failed_word (k : ErrKind) :
    (Status.failed k).word = 0x6#32 ||| k.code.setWidth 32 <<< 8 := by
  cases k <;> decide

theorem toNat_satWord (n : Nat) : (satWord n).toNat = min n (2 ^ 32 - 1) := by
  rw [satWord, BitVec.toNat_ofNat]
  omega

/-- A completion with an error reports its kind and context numbers and delivers nothing. -/
theorem failedWith_complete_error (e : CmdErr) (s : State) :
    (s.complete (.error e)).FailedWith e.kind.code e.info0 e.info1 :=
  ⟨failed_word e.kind, toNat_satWord e.info0, toNat_satWord e.info1, rfl, rfl, rfl, rfl, rfl,
    allZero_cleared, allZero_cleared, allZero_cleared⟩

/-! ### `KDF` (R119) -/

theorem checkPassword_of_gt {s : State} (h : s.opnd.pwlen.toNat > s.env.par.pwCap) :
    s.checkPassword = .error ⟨.operandRange, 1, s.opnd.pwlen.toNat⟩ := if_pos h

theorem kdfResult_of_le {s : State} (h : s.opnd.pwlen.toNat ≤ s.env.par.pwCap) :
    kdfResult s = .ok (bytesOut (deriveKey s.password)) := by
  rw [kdfResult, checkPassword_eq_ok (u := ()).2 h, except_ok_bind]
  rfl

theorem kdfResult_of_gt {s : State} (h : s.opnd.pwlen.toNat > s.env.par.pwCap) :
    kdfResult s = .error ⟨.operandRange, 1, s.opnd.pwlen.toNat⟩ := by
  rw [kdfResult, checkPassword_of_gt h, except_error_bind]

theorem exec_kdf (s : State) : exec .kdf s = .next (s.complete (kdfResult s)) := rfl

theorem length_deriveKey (p : List Byte) : (deriveKey p).length = 16 := by simp [deriveKey]

/-- `KDF` with a password that fits delivers its key. -/
theorem exec_kdf_of_le {s : State} (h : s.opnd.pwlen.toNat ≤ s.env.par.pwCap) :
    ∃ t, exec .kdf s = .next t ∧ t.Delivers (deriveKey s.password) ∧ t.out.olen = 16 ∧
      Untouched s t ∧ NoDraw s t := by
  have hl := length_deriveKey s.password
  refine ⟨_, exec_kdf s, ?_, ?_, untouched_complete _ s, noDraw_complete _ s⟩
  · rw [kdfResult_of_le h]
    exact delivers_complete_bytesOut (by omega) s
  · rw [kdfResult_of_le h, State.complete_out, resultOutputs_ok, bytesOut, hl]
    rfl

/-- `KDF` with a password that does not fit reports operand 1. -/
theorem exec_kdf_of_gt {s : State} (h : s.opnd.pwlen.toNat > s.env.par.pwCap) :
    ∃ t, exec .kdf s = .next t ∧ t.FailedWith 9 1 s.opnd.pwlen.toNat ∧ Untouched s t ∧
      NoDraw s t := by
  refine ⟨_, exec_kdf s, ?_, untouched_complete _ s, noDraw_complete _ s⟩
  rw [kdfResult_of_gt h]
  exact failedWith_complete_error _ s

/-- Settles O31: the command by its check; the hash with the schedule of each block for `w`, the
working variables of each round for `v` and the hash value after `j` blocks for `h`; the
constants by their cube roots. -/
theorem kdfCommand : Obligations.KdfCommand := by
  refine ⟨rfl, fun s => ⟨exec_kdf_of_le, exec_kdf_of_gt⟩, ?_, ?_⟩
  · rintro m p nb rfl rfl
    refine ⟨fun j t => (shaSchedule (paddedBlock m j)).getD t 0,
      fun j t => shaVars (hashAfter m j) (paddedBlock m j) t, hashAfter m, rfl, fun j hj => ?_, ?_⟩
    · have hb := length_paddedBlock hj
      refine ⟨fun t ht => ?words, fun t h16 ht => ?schedule, shaVars_zero _ _, ?rounds, ?addition⟩
      case words => exact (getD_shaSchedule_of_lt hb ht).trans (getD_paddedBlock hj ht)
      case schedule => exact (getD_shaSchedule_of_ge hb h16 ht).trans (shaScheduleWord_eq _ t)
      case rounds =>
        rintro t ht x t1 t2 rfl h1 h2
        exact (shaVars_succ _ hb ht).trans (shaRound_eq h1 h2)
      case addition => exact (hashAfter_succ m j).trans (shaCompress_eq _ hb)
    · exact (sha256_eq m).trans (hashBytes_eq_flatMap _)
  · rintro t q ht rfl
    obtain ⟨hle, hlt⟩ := shaCubeRoot_bounds t ht
    exact ⟨shaCubeRoot t, hle, hlt, shaCubeRoot_mod t⟩

end Sys2Proof.Machine

/-! The AES block family (41_aes_block.md): each step of the inverse cipher undoes its step of the
cipher and the other way round, then the rounds, then O38. -/

namespace Sys2Proof.Machine

/-! ### Multiplication in the field of R126 -/

/-- One bit of the sum of `gmul`. -/
def gmulStep (a b acc : Byte) (i : Nat) : Byte :=
  if b.getLsbD i then acc ^^^ xtimes i a else acc

theorem gmul_eq_foldl (a b : Byte) : gmul a b = (List.range 8).foldl (gmulStep a b) 0#8 := rfl

theorem gmulStep_xor (a x y p q : Byte) (i : Nat) :
    gmulStep a (x ^^^ y) (p ^^^ q) i = gmulStep a x p i ^^^ gmulStep a y q i := by
  generalize ht : xtimes i a = t
  have first : p ^^^ q ^^^ t = p ^^^ t ^^^ q := by ac_rfl
  have both : p ^^^ q = p ^^^ t ^^^ (q ^^^ t) := by
    rw [← BitVec.xor_assoc, ← first, BitVec.xor_assoc _ t t, BitVec.xor_self, BitVec.xor_zero]
  simp only [gmulStep, BitVec.getLsbD_xor, ht]
  cases x.getLsbD i <;> cases y.getLsbD i
  · rfl
  · exact BitVec.xor_assoc p q t
  · exact first
  · exact both

theorem foldl_gmulStep_xor (a x y : Byte) (l : List Nat) (p q : Byte) :
    l.foldl (gmulStep a (x ^^^ y)) (p ^^^ q) =
      l.foldl (gmulStep a x) p ^^^ l.foldl (gmulStep a y) q := by
  induction l generalizing p q with
  | nil => rfl
  | cons i l ih => rw [List.foldl_cons, gmulStep_xor, ih]; rfl

/-- Multiplication distributes over addition. -/
theorem gmul_xor (a x y : Byte) : gmul a (x ^^^ y) = gmul a x ^^^ gmul a y :=
  foldl_gmulStep_xor a x y (List.range 8) 0#8 0#8

theorem gmul_one_left : ∀ a : Byte, gmul 0x01 a = a := by decide

theorem gmul_two_left : ∀ a : Byte, gmul 0x02 a = mul2 a := by decide

theorem gmul_three_left : ∀ a : Byte, gmul 0x03 a = mul3 a := by decide

/-- A function on bytes that distributes over addition. -/
def XorLinear (f : Byte → Byte) : Prop := ∀ x y, f (x ^^^ y) = f x ^^^ f y

theorem XorLinear.zero {f : Byte → Byte} (hf : XorLinear f) : f 0#8 = 0#8 :=
  (hf 0#8 0#8).trans BitVec.xor_self

/-- The sum of bits that makes up a byte, carried through two functions that agree on each bit. -/
theorem foldl_gmulStep_congr {f g : Byte → Byte} (hf : XorLinear f) (hg : XorLinear g) (a : Byte)
    {l : List Nat} (h : ∀ i ∈ l, f (xtimes i 0x01) = g (xtimes i 0x01)) {acc : Byte}
    (hacc : f acc = g acc) :
    f (l.foldl (gmulStep 0x01 a) acc) = g (l.foldl (gmulStep 0x01 a) acc) := by
  induction l generalizing acc with
  | nil => exact hacc
  | cons i l ih =>
    refine ih (fun j hj => h j (.tail i hj)) ?_
    unfold gmulStep
    split_ifs
    · rw [hf, hg, hacc, h i (.head l)]
    · exact hacc

/-- Two linear functions that agree on the eight bits agree on every byte. -/
theorem XorLinear.ext {f g : Byte → Byte} (hf : XorLinear f) (hg : XorLinear g)
    (h : ∀ i ∈ List.range 8, f (xtimes i 0x01) = g (xtimes i 0x01)) (a : Byte) : f a = g a := by
  rw [← gmul_one_left a, gmul_eq_foldl]
  exact foldl_gmulStep_congr hf hg a h (hf.zero.trans hg.zero.symm)

/-! ### `MixColumns` and `InvMixColumns` (R135, R140)

Both multiply each column by a circulant matrix, so one row of coefficients says all of it: row `i`
of the product is the first row applied to the column rotated by `i`. -/

/-- A row of coefficients applied to a column. -/
def mixRow (c : Fin 4 → Byte) (a0 a1 a2 a3 : Byte) : Byte :=
  gmul (c 0) a0 ^^^ gmul (c 1) a1 ^^^ gmul (c 2) a2 ^^^ gmul (c 3) a3

/-- The circulant matrix of first row `c` applied to each column. -/
def mixBy (c : Fin 4 → Byte) : List Byte → List Byte
  | a0 :: a1 :: a2 :: a3 :: rest =>
    mixRow c a0 a1 a2 a3 :: mixRow c a1 a2 a3 a0 :: mixRow c a2 a3 a0 a1 :: mixRow c a3 a0 a1 a2 ::
      mixBy c rest
  | _ => []

/-- The first row of the matrix of `MixColumns`. -/
def mixCoeffs : Fin 4 → Byte := ![0x02, 0x03, 0x01, 0x01]

/-- The first row of the matrix of `InvMixColumns`. -/
def invMixCoeffs : Fin 4 → Byte := ![0x0e, 0x0b, 0x0d, 0x09]

theorem mixRow_mixCoeffs (a0 a1 a2 a3 : Byte) :
    mixRow mixCoeffs a0 a1 a2 a3 = mul2 a0 ^^^ mul3 a1 ^^^ a2 ^^^ a3 := by
  change gmul 0x02 a0 ^^^ gmul 0x03 a1 ^^^ gmul 0x01 a2 ^^^ gmul 0x01 a3 = _
  rw [gmul_two_left, gmul_three_left, gmul_one_left, gmul_one_left]

theorem mixRow_invMixCoeffs (a0 a1 a2 a3 : Byte) :
    mixRow invMixCoeffs a0 a1 a2 a3 =
      gmul 0x0e a0 ^^^ gmul 0x0b a1 ^^^ gmul 0x0d a2 ^^^ gmul 0x09 a3 := rfl

theorem mixColumns_eq_mixBy : ∀ s : List Byte, mixColumns s = mixBy mixCoeffs s
  | [] | [_] | [_, _] | [_, _, _] => rfl
  | a0 :: a1 :: a2 :: a3 :: rest => by
    simp only [mixColumns, mixBy, mixRow_mixCoeffs, mixColumns_eq_mixBy rest, List.cons.injEq,
      and_true, true_and]
    refine ⟨?_, ?_, ?_⟩ <;> ac_rfl

theorem invMixColumns_eq_mixBy : ∀ s : List Byte, invMixColumns s = mixBy invMixCoeffs s
  | [] | [_] | [_, _] | [_, _, _] => rfl
  | a0 :: a1 :: a2 :: a3 :: rest => by
    simp only [invMixColumns, mixBy, mixRow_invMixCoeffs, invMixColumns_eq_mixBy rest,
      List.cons.injEq, and_true, true_and]
    refine ⟨?_, ?_, ?_⟩ <;> ac_rfl

/-- Entry `k` of the first row of the product of two circulant matrices, applied to a byte. -/
def mixProduct (c d : Fin 4 → Byte) (k : Fin 4) (a : Byte) : Byte :=
  gmul (c 0) (gmul (d k) a) ^^^ gmul (c 1) (gmul (d (k - 1)) a) ^^^
    gmul (c 2) (gmul (d (k - 2)) a) ^^^ gmul (c 3) (gmul (d (k - 3)) a)

theorem xorLinear_mixProduct (c d : Fin 4 → Byte) (k : Fin 4) : XorLinear (mixProduct c d k) := by
  intro x y
  simp only [mixProduct, gmul_xor]
  ac_rfl

/-- Entry `k` of the first row of the identity matrix, applied to a byte. -/
def unitProduct (k : Fin 4) (a : Byte) : Byte := if k = 0 then a else 0#8

theorem xorLinear_unitProduct (k : Fin 4) : XorLinear (unitProduct k) := by
  intro x y
  by_cases hk : k = 0
  · simp only [unitProduct, if_pos hk]
  · simp only [unitProduct, if_neg hk, BitVec.xor_zero]

/-- The product of two circulant matrices is the identity. -/
def MixInverse (c d : Fin 4 → Byte) : Prop :=
  ∀ (k : Fin 4) (a : Byte), mixProduct c d k a = unitProduct k a

/-- Whether two circulant matrices are inverse is seen on the eight bits of a byte. -/
theorem mixInverse_of_bits {c d : Fin 4 → Byte}
    (h : ∀ k, ∀ i ∈ List.range 8,
      mixProduct c d k (xtimes i 0x01) = unitProduct k (xtimes i 0x01)) :
    MixInverse c d :=
  fun k => (xorLinear_mixProduct c d k).ext (xorLinear_unitProduct k) (h k)

theorem mixInverse_invMixCoeffs : MixInverse invMixCoeffs mixCoeffs :=
  mixInverse_of_bits (by decide)

theorem mixInverse_mixCoeffs : MixInverse mixCoeffs invMixCoeffs :=
  mixInverse_of_bits (by decide)

/-- A row applied to a mixed column applies the product's entries to the bytes of the column. -/
theorem mixRow_mixRow (c d : Fin 4 → Byte) (a0 a1 a2 a3 : Byte) :
    mixRow c (mixRow d a0 a1 a2 a3) (mixRow d a1 a2 a3 a0) (mixRow d a2 a3 a0 a1)
        (mixRow d a3 a0 a1 a2) =
      mixProduct c d 0 a0 ^^^ mixProduct c d 1 a1 ^^^ mixProduct c d 2 a2 ^^^
        mixProduct c d 3 a3 := by
  simp only [mixRow, mixProduct, gmul_xor, Fin.reduceSub]
  ac_rfl

theorem mixRow_mixRow_of_inverse {c d : Fin 4 → Byte} (h : MixInverse c d) (a0 a1 a2 a3 : Byte) :
    mixRow c (mixRow d a0 a1 a2 a3) (mixRow d a1 a2 a3 a0) (mixRow d a2 a3 a0 a1)
        (mixRow d a3 a0 a1 a2) = a0 := by
  rw [mixRow_mixRow, h, h, h, h]
  simp [unitProduct]

/-- On a string of whole columns, mixing by a matrix and then by its inverse changes nothing. -/
theorem mixBy_mixBy {c d : Fin 4 → Byte} (h : MixInverse c d) :
    ∀ {s : List Byte}, s.length % 4 = 0 → mixBy c (mixBy d s) = s
  | [], _ => rfl
  | [_], hs | [_, _], hs | [_, _, _], hs => by simp at hs
  | _ :: _ :: _ :: _ :: rest, hs => by
    have hr : rest.length % 4 = 0 := by simp only [List.length_cons] at hs; omega
    simp only [mixBy, mixRow_mixRow_of_inverse h, mixBy_mixBy h hr]

theorem invMixColumns_mixColumns {s : List Byte} (hs : s.length % 4 = 0) :
    invMixColumns (mixColumns s) = s := by
  rw [mixColumns_eq_mixBy, invMixColumns_eq_mixBy, mixBy_mixBy mixInverse_invMixCoeffs hs]

theorem mixColumns_invMixColumns {s : List Byte} (hs : s.length % 4 = 0) :
    mixColumns (invMixColumns s) = s := by
  rw [mixColumns_eq_mixBy, invMixColumns_eq_mixBy, mixBy_mixBy mixInverse_mixCoeffs hs]

/-! ### `SubBytes` and `InvSubBytes` (R128, R133, R138) -/

theorem invSbox_sbox : ∀ a : Byte, invSbox (sbox a) = a := by decide

/-- On finitely many bytes a left inverse is a right inverse. -/
theorem sbox_invSbox : ∀ a : Byte, sbox (invSbox a) = a :=
  have inj : Function.Injective sbox := Function.LeftInverse.injective invSbox_sbox
  Function.LeftInverse.rightInverse_of_surjective invSbox_sbox (Finite.surjective_of_injective inj)

theorem invSubBytes_subBytes (s : List Byte) : invSubBytes (subBytes s) = s := by
  rw [invSubBytes, subBytes, List.map_map, Function.LeftInverse.comp_eq_id invSbox_sbox,
    List.map_id]

theorem subBytes_invSubBytes (s : List Byte) : subBytes (invSubBytes s) = s := by
  rw [invSubBytes, subBytes, List.map_map, Function.LeftInverse.comp_eq_id sbox_invSbox,
    List.map_id]

/-! ### `ShiftRows` and `InvShiftRows` (R134, R139) -/

/-- The byte that `ShiftRows` moves to place `k`. -/
def shiftSource (k : Nat) : Nat := k % 4 + 4 * ((k / 4 + k % 4) % 4)

/-- The byte that `InvShiftRows` moves to place `k`. -/
def invShiftSource (k : Nat) : Nat := k % 4 + 4 * ((k / 4 + 4 - k % 4) % 4)

/-- A block rearranged: its byte `f k` at place `k`. -/
def rearrange (f : Nat → Nat) (s : List Byte) : List Byte :=
  (List.range 16).map fun k => s.getD (f k) 0#8

theorem shiftRows_eq (s : List Byte) : shiftRows s = rearrange shiftSource s := rfl

theorem invShiftRows_eq (s : List Byte) : invShiftRows s = rearrange invShiftSource s := rfl

theorem getD_rearrange (f : Nat → Nat) (s : List Byte) {k : Nat} (hk : k < 16) :
    (rearrange f s).getD k 0#8 = s.getD (f k) 0#8 := by
  simp [rearrange, List.getD_eq_getElem?_getD, hk]

/-- Rearranging a block twice changes nothing when each byte comes back to its place. -/
theorem rearrange_rearrange {f g : Nat → Nat} (hf : ∀ k < 16, f k < 16 ∧ g (f k) = k)
    {s : List Byte} (hs : s.length = 16) : rearrange f (rearrange g s) = s := by
  refine List.ext_getElem (by simp [rearrange, hs]) fun k h1 h2 => ?_
  have hk : k < 16 := hs ▸ h2
  obtain ⟨hlt, hback⟩ := hf k hk
  rw [← List.getD_eq_getElem _ 0#8 h1, ← List.getD_eq_getElem _ 0#8 h2, getD_rearrange f _ hk,
    getD_rearrange g _ hlt, hback]

theorem invShiftRows_shiftRows {s : List Byte} (hs : s.length = 16) :
    invShiftRows (shiftRows s) = s := by
  rw [shiftRows_eq, invShiftRows_eq, rearrange_rearrange (by decide) hs]

theorem shiftRows_invShiftRows {s : List Byte} (hs : s.length = 16) :
    shiftRows (invShiftRows s) = s := by
  rw [shiftRows_eq, invShiftRows_eq, rearrange_rearrange (by decide) hs]

/-! ### `AddRoundKey` (R136) -/

theorem xorBytes_xorBytes : ∀ {a k : List Byte}, a.length ≤ k.length →
    xorBytes (xorBytes a k) k = a
  | [], _, _ => rfl
  | x :: a, y :: k, h => by
    have ih : xorBytes (xorBytes a k) k = a := xorBytes_xorBytes (Nat.le_of_succ_le_succ h)
    have hd : x ^^^ y ^^^ y = x := by rw [BitVec.xor_assoc, BitVec.xor_self, BitVec.xor_zero]
    exact congrArg₂ List.cons hd ih

/-! ### The rounds (R137, R142) -/

/-- The two steps that every round of `Cipher` begins with. -/
def substitute (s : List Byte) : List Byte := shiftRows (subBytes s)

/-- The two steps that every round of `InvCipher` begins with. -/
def invSubstitute (s : List Byte) : List Byte := invSubBytes (invShiftRows s)

@[simp] theorem length_substitute (s : List Byte) : (substitute s).length = 16 := by
  simp [substitute]

@[simp] theorem length_invSubstitute (s : List Byte) : (invSubstitute s).length = 16 := by
  simp [invSubstitute]

theorem invSubstitute_substitute {s : List Byte} (hs : s.length = 16) :
    invSubstitute (substitute s) = s := by
  rw [invSubstitute, substitute, invShiftRows_shiftRows (by simpa using hs), invSubBytes_subBytes]

theorem substitute_invSubstitute {s : List Byte} (hs : s.length = 16) :
    substitute (invSubstitute s) = s := by
  rw [invSubstitute, substitute, subBytes_invSubBytes, shiftRows_invShiftRows hs]

/-- A run of steps `f`, seen through `e`, is undone by the steps `g` in reverse order when each step
is undone so. -/
theorem foldl_reverse_undo {σ ι : Type} {f g : σ → ι → σ} {e : σ → σ} {l : List ι}
    (undo : ∀ s, ∀ i ∈ l, g (e (f s i)) i = e s) (s : σ) :
    l.reverse.foldl g (e (l.foldl f s)) = e s := by
  induction l generalizing s with
  | nil => rfl
  | cons i l ih =>
    rw [List.foldl_cons, List.reverse_cons, List.foldl_append,
      ih fun s j hj => undo s j (.tail i hj)]
    exact undo s i (.head l)

theorem cipherRound_eq (rk : List (List Byte)) (s : List Byte) (r : Nat) :
    cipherRound rk s r = addRoundKey rk r (mixColumns (substitute s)) := rfl

theorem invCipherRound_eq (rk : List (List Byte)) (s : List Byte) (r : Nat) :
    invCipherRound rk s r = invMixColumns (addRoundKey rk r (invSubstitute s)) := rfl

theorem cipher_eq (rk : List (List Byte)) (b : List Byte) :
    cipher rk b = addRoundKey rk 10
      (substitute ((List.range' 1 9).foldl (cipherRound rk) (addRoundKey rk 0 b))) := rfl

theorem invCipher_eq (rk : List (List Byte)) (b : List Byte) :
    invCipher rk b = addRoundKey rk 0
      (invSubstitute ((List.range' 1 9).reverse.foldl (invCipherRound rk) (addRoundKey rk 10 b))) :=
  rfl

/-- Every middle round has its round key. -/
theorem round_lt : ∀ r ∈ List.range' 1 9, r < 11 := by decide

section
variable {rk : List (List Byte)} (hrk : Schedule rk)
include hrk

theorem addRoundKey_addRoundKey {r : Nat} (hr : r < 11) {s : List Byte} (hs : s.length = 16) :
    addRoundKey rk r (addRoundKey rk r s) = s :=
  xorBytes_xorBytes (by rw [hs, hrk r hr])

/-- Seen between the substitutions, a round of `InvCipher` undoes that round of `Cipher`. -/
theorem invCipherRound_substitute_cipherRound {r : Nat} (hr : r < 11) (s : List Byte) :
    invCipherRound rk (substitute (cipherRound rk s r)) r = substitute s := by
  have hs : (substitute s).length % 4 = 0 := by rw [length_substitute]
  have hm : (mixColumns (substitute s)).length = 16 := by
    rw [length_mixColumns hs, length_substitute]
  rw [invCipherRound_eq, invSubstitute_substitute (length_cipherRound hrk hr s), cipherRound_eq,
    addRoundKey_addRoundKey hrk hr hm, invMixColumns_mixColumns hs]

/-- Seen between the substitutions, a round of `Cipher` undoes that round of `InvCipher`. -/
theorem cipherRound_invSubstitute_invCipherRound {r : Nat} (hr : r < 11) (s : List Byte) :
    cipherRound rk (invSubstitute (invCipherRound rk s r)) r = invSubstitute s := by
  have hs : (addRoundKey rk r (invSubstitute s)).length % 4 = 0 := by
    rw [length_addRoundKey hrk hr (length_invSubstitute s)]
  rw [cipherRound_eq, substitute_invSubstitute (length_invCipherRound hrk hr s), invCipherRound_eq,
    mixColumns_invMixColumns hs, addRoundKey_addRoundKey hrk hr (length_invSubstitute s)]

theorem invCipher_cipher {b : List Byte} (hb : b.length = 16) :
    invCipher rk (cipher rk b) = b := by
  have rounds := foldl_reverse_undo (e := substitute) (l := List.range' 1 9) fun s r hr =>
    invCipherRound_substitute_cipherRound hrk (round_lt r hr) s
  have h0 : (addRoundKey rk 0 b).length = 16 := length_addRoundKey hrk (by decide) hb
  rw [cipher_eq, invCipher_eq, addRoundKey_addRoundKey hrk (by decide) (length_substitute _),
    rounds, invSubstitute_substitute h0, addRoundKey_addRoundKey hrk (by decide) hb]

theorem cipher_invCipher {b : List Byte} (hb : b.length = 16) :
    cipher rk (invCipher rk b) = b := by
  have rounds := foldl_reverse_undo (e := invSubstitute) (l := (List.range' 1 9).reverse)
    fun s r hr =>
      cipherRound_invSubstitute_invCipherRound hrk (round_lt r (List.mem_reverse.1 hr)) s
  rw [List.reverse_reverse] at rounds
  have h10 : (addRoundKey rk 10 b).length = 16 := length_addRoundKey hrk (by decide) hb
  rw [cipher_eq, invCipher_eq, addRoundKey_addRoundKey hrk (by decide) (length_invSubstitute _),
    rounds, substitute_invSubstitute h10, addRoundKey_addRoundKey hrk (by decide) hb]

end

/-- Settles O38: the key expansion makes a schedule, and under any schedule each cipher undoes the
other, round by round. -/
theorem invCipherInvertsCipher : Obligations.InvCipherInvertsCipher := by
  intro key b hk hb
  have hrk : Schedule (keyExpansion key) := schedule_keyExpansion hk
  exact ⟨invCipher_cipher hrk hb, cipher_invCipher hrk hb⟩

end Sys2Proof.Machine

/-! The envelope family (42_cbc_envelope.md), its blocks: the cipher's states byte by byte, the
words of the key expansion, the blocks of CBC, then O39 and O40. -/

namespace Sys2Proof.Machine

/-! ### Bytes of a block -/

/-- A byte of a bytewise XOR, at a place that both strings have. -/
theorem getD_xorBytes {a b : List Byte} {k : Nat} (ha : k < a.length) (hb : k < b.length) :
    (xorBytes a b).getD k 0 = a.getD k 0 ^^^ b.getD k 0 := by
  simp [xorBytes, List.getD_eq_getElem?_getD, ha, hb]

theorem getD_subBytes {s : List Byte} {k : Nat} (hk : k < s.length) :
    (subBytes s).getD k 0 = sbox (s.getD k 0) := by
  simp [subBytes, List.getD_eq_getElem?_getD, hk]

/-- Four consecutive elements of a list, written out. -/
theorem take_four_drop {α : Type} (d : α) {l : List α} {n : Nat} (h : n + 4 ≤ l.length) :
    (l.drop n).take 4 = [l.getD n d, l.getD (n + 1) d, l.getD (n + 2) d, l.getD (n + 3) d] := by
  have hl : 4 ≤ (l.drop n).length := by rw [List.length_drop]; omega
  have hget : ∀ k, l.getD (n + k) d = (l.drop n).getD k d := fun k => by
    simp [List.getD_eq_getElem?_getD]
  rw [← Nat.add_zero n, hget, Nat.add_zero, hget, hget, hget]
  match l.drop n, hl with
  | _ :: _ :: _ :: _ :: _, _ => rfl

/-- Row `k`, column `c` after the substitutions of a round (R133, R134). -/
theorem getD_substitute {s : List Byte} (hs : s.length = 16) {k c : Nat} (hk : k < 4) (hc : c < 4) :
    (substitute s).getD (k + 4 * c) 0 = sbox (s.getD (k + 4 * ((c + k) % 4)) 0) := by
  have hrow : (k + 4 * c) % 4 = k := by omega
  have hcol : (k + 4 * c) / 4 = c := by omega
  have source : shiftSource (k + 4 * c) = k + 4 * ((c + k) % 4) := by
    rw [shiftSource, hrow, hcol]
  rw [substitute, shiftRows_eq]
  refine (getD_rearrange shiftSource _ (by omega)).trans ?_
  rw [source]
  exact getD_subBytes (by omega)

/-- Row `i`, column `c` of a mixed string: the matrix row applied to the column rotated by `i`. -/
theorem getD_mixBy (co : Fin 4 → Byte) {i : Nat} (hi : i < 4) (c : Nat) :
    ∀ {s : List Byte}, 4 * c + 4 ≤ s.length →
      (mixBy co s).getD (i + 4 * c) 0 =
        mixRow co (s.getD (i % 4 + 4 * c) 0) (s.getD ((i + 1) % 4 + 4 * c) 0)
          (s.getD ((i + 2) % 4 + 4 * c) 0) (s.getD ((i + 3) % 4 + 4 * c) 0)
  | [], h | [_], h | [_, _], h | [_, _, _], h => by simp at h
  | a0 :: a1 :: a2 :: a3 :: rest, h => by
    cases c with
    | zero => interval_cases i <;> rfl
    | succ c => exact getD_mixBy co hi c (s := rest) (by simp only [List.length_cons] at h; omega)

/-- R135 for the byte of row `i`, column `c`. -/
theorem getD_mixColumns {s : List Byte} {i c : Nat} (hi : i < 4) (h : 4 * c + 4 ≤ s.length) :
    (mixColumns s).getD (i + 4 * c) 0 =
      gmul 0x02 (s.getD (i % 4 + 4 * c) 0) ^^^ gmul 0x03 (s.getD ((i + 1) % 4 + 4 * c) 0) ^^^
        s.getD ((i + 2) % 4 + 4 * c) 0 ^^^ s.getD ((i + 3) % 4 + 4 * c) 0 := by
  rw [mixColumns_eq_mixBy, getD_mixBy mixCoeffs hi c h, mixRow_mixCoeffs, gmul_two_left,
    gmul_three_left]

section
variable {rk : List (List Byte)} (hrk : Schedule rk)
include hrk

theorem getD_addRoundKey {r k : Nat} (hr : r < 11) {s : List Byte} (hs : s.length = 16)
    (hk : k < 16) :
    (addRoundKey rk r s).getD k 0 = s.getD k 0 ^^^ (rk.getD r []).getD k 0 :=
  getD_xorBytes (by omega) (by rw [hrk r hr]; exact hk)

/-- A middle round, byte by byte: `x` is the column `c` after the substitutions. -/
theorem getD_cipherRound {r i c : Nat} (hr : r < 11) {s : List Byte} (hs : s.length = 16)
    (hi : i < 4) (hc : c < 4) {x : Nat → Byte}
    (hx : ∀ k, x k = sbox (s.getD (k % 4 + 4 * ((c + k % 4) % 4)) 0)) :
    (cipherRound rk s r).getD (i + 4 * c) 0 =
      gmul 0x02 (x i) ^^^ gmul 0x03 (x (i + 1)) ^^^ x (i + 2) ^^^ x (i + 3) ^^^
        (rk.getD r []).getD (i + 4 * c) 0 := by
  have hsub : (substitute s).length = 16 := length_substitute s
  have hmix : (mixColumns (substitute s)).length = 16 := by rw [length_mixColumns] <;> rw [hsub]
  have column : ∀ k, (substitute s).getD (k % 4 + 4 * c) 0 = x k := fun k => by
    rw [hx, getD_substitute hs (Nat.mod_lt _ (by decide)) hc]
  rw [cipherRound_eq, getD_addRoundKey hrk hr hmix (by omega), getD_mixColumns hi (by omega),
    column, column, column, column]

/-- The last round has no `MixColumns`. -/
theorem getD_lastRound {i c : Nat} {s : List Byte} (hs : s.length = 16) (hi : i < 4) (hc : c < 4) :
    (addRoundKey rk 10 (substitute s)).getD (i + 4 * c) 0 =
      sbox (s.getD (i + 4 * ((c + i) % 4)) 0) ^^^ (rk.getD 10 []).getD (i + 4 * c) 0 := by
  rw [getD_addRoundKey hrk (by decide) (length_substitute s) (by omega), getD_substitute hs hi hc]

end

/-! ### The states of the cipher (R137) -/

/-- The state of `Cipher` after the first `AddRoundKey` and `n` middle rounds. -/
def cipherState (rk : List (List Byte)) (b : List Byte) (n : Nat) : List Byte :=
  (List.range' 1 n).foldl (cipherRound rk) (addRoundKey rk 0 b)

theorem cipherState_zero (rk : List (List Byte)) (b : List Byte) :
    cipherState rk b 0 = addRoundKey rk 0 b := rfl

theorem cipherState_succ (rk : List (List Byte)) (b : List Byte) (n : Nat) :
    cipherState rk b (n + 1) = cipherRound rk (cipherState rk b n) (n + 1) := by
  rw [cipherState, List.range'_1_concat, List.foldl_append, Nat.add_comm n 1]
  rfl

theorem cipher_eq_lastRound (rk : List (List Byte)) (b : List Byte) :
    cipher rk b = addRoundKey rk 10 (substitute (cipherState rk b 9)) := cipher_eq rk b

theorem length_cipherState {rk : List (List Byte)} (hrk : Schedule rk) {b : List Byte}
    (hb : b.length = 16) {n : Nat} (hn : n ≤ 9) : (cipherState rk b n).length = 16 := by
  cases n with
  | zero => exact length_addRoundKey hrk (by decide) hb
  | succ n =>
    rw [cipherState_succ]
    exact length_cipherRound hrk (by omega) _

/-! ### The words of the key expansion (R131) -/

/-- The words of the key expansion after `n` of its 40 made words. -/
def keyWordsUpTo (key : List Byte) (n : Nat) : List (List Byte) :=
  (List.range' 4 n).foldl
    (fun w i => w ++ [xorBytes (w.getD (i - 4) []) (keyTemp i (w.getD (i - 1) []))])
    (pieces 4 4 key)

theorem keyWords_eq (key : List Byte) : keyWords key = keyWordsUpTo key 40 := rfl

/-- The word made at place `i` from the words before it. -/
def nextKeyWord (w : List (List Byte)) (i : Nat) : List Byte :=
  xorBytes (w.getD (i - 4) []) (keyTemp i (w.getD (i - 1) []))

theorem keyWordsUpTo_succ (key : List Byte) (n : Nat) :
    keyWordsUpTo key (n + 1) =
      keyWordsUpTo key n ++ [nextKeyWord (keyWordsUpTo key n) (4 + n)] := by
  rw [keyWordsUpTo, List.range'_1_concat, List.foldl_append]
  rfl

theorem length_keyWordsUpTo (key : List Byte) (n : Nat) : (keyWordsUpTo key n).length = 4 + n := by
  induction n with
  | zero => exact length_pieces 4 4 key
  | succ n ih => rw [keyWordsUpTo_succ, List.length_append, ih]; rfl

/-- Words appended from place `i` on do not change the word made at `i`. -/
theorem nextKeyWord_append {w : List (List Byte)} (w' : List (List Byte)) {i : Nat} (h4 : 4 ≤ i)
    (hi : i ≤ w.length) : nextKeyWord (w ++ w') i = nextKeyWord w i := by
  rw [nextKeyWord, List.getD_append _ _ _ _ (by omega), List.getD_append _ _ _ _ (by omega)]
  rfl

theorem getD_keyWordsUpTo_of_lt (key : List Byte) (n : Nat) {i : Nat} (hi : i < 4) :
    (keyWordsUpTo key n).getD i [] = (pieces 4 4 key).getD i [] := by
  induction n with
  | zero => rfl
  | succ n ih =>
    rw [keyWordsUpTo_succ, List.getD_append _ _ _ _ (by rw [length_keyWordsUpTo]; omega), ih]

theorem getD_keyWordsUpTo_of_ge (key : List Byte) {n i : Nat} (h4 : 4 ≤ i) (hi : i < 4 + n) :
    (keyWordsUpTo key n).getD i [] = nextKeyWord (keyWordsUpTo key n) i := by
  induction n with
  | zero => omega
  | succ n ih =>
    have hl : (keyWordsUpTo key n).length = 4 + n := length_keyWordsUpTo key n
    rw [keyWordsUpTo_succ, nextKeyWord_append _ h4 (by omega)]
    rcases Nat.lt_or_ge i (4 + n) with hlt | hge
    · rw [List.getD_append _ _ _ _ (by omega), ih hlt]
    · obtain rfl : i = 4 + n := by omega
      rw [List.getD_append_right _ _ _ _ (by omega), hl, Nat.sub_self]
      rfl

/-- Word `i` of the key expansion of `key`. -/
def keyWord (key : List Byte) (i : Nat) : List Byte := (keyWords key).getD i []

/-- Piece `j` of a string cut up. -/
theorem getD_pieces (k : Nat) {n j : Nat} (hj : j < n) (b : List Byte) :
    (pieces k n b).getD j [] = (b.drop (k * j)).take k := by
  induction n generalizing j b with
  | zero => omega
  | succ n ih =>
    cases j with
    | zero => rfl
    | succ j =>
      rw [pieces, List.getD_cons_succ, ih (by omega), List.drop_drop, Nat.mul_succ, Nat.add_comm]

/-- The first four words are the key's. -/
theorem keyWord_of_lt {key : List Byte} (hk : key.length = 16) {i : Nat} (hi : i < 4) :
    keyWord key i =
      [key.getD (4 * i) 0, key.getD (4 * i + 1) 0, key.getD (4 * i + 2) 0,
        key.getD (4 * i + 3) 0] := by
  rw [keyWord, keyWords_eq, getD_keyWordsUpTo_of_lt _ _ hi, getD_pieces 4 hi,
    take_four_drop 0 (by omega)]

theorem keyWord_of_ge (key : List Byte) {i : Nat} (h4 : 4 ≤ i) (hi : i < 44) :
    keyWord key i = xorBytes (keyWord key (i - 4)) (keyTemp i (keyWord key (i - 1))) :=
  getD_keyWordsUpTo_of_ge key h4 hi

theorem length_keyWords (key : List Byte) : (keyWords key).length = 44 :=
  length_keyWordsUpTo key 40

theorem length_of_mem_keyWords {key p : List Byte} (hk : key.length = 16) (hp : p ∈ keyWords key) :
    p.length = 4 := (keyWords_step 40 le_rfl hk).2 p hp

theorem length_keyWord {key : List Byte} (hk : key.length = 16) {i : Nat} (hi : i < 44) :
    (keyWord key i).length = 4 := by
  have hl := length_keyWords key
  rw [keyWord, List.getD_eq_getElem _ _ (by omega)]
  exact length_of_mem_keyWords hk (List.getElem_mem _)

/-- The ten values of `RCON` (R130). -/
def rconTable : List Byte :=
  [0x01#8, 0x02#8, 0x04#8, 0x08#8, 0x10#8, 0x20#8, 0x40#8, 0x80#8, 0x1b#8, 0x36#8]

theorem rcon_eq_getD : ∀ j < 11, 1 ≤ j → rcon j = rconTable.getD (j - 1) 0 := by decide

/-- What is XORed into a word to give the word four places on. -/
theorem keyTemp_eq {u : List Byte} (hu : u.length = 4) {i : Nat} (h4 : 4 ≤ i) (hi : i < 44) :
    keyTemp i u =
      if i % 4 = 0 then
        [sbox (u.getD 1 0) ^^^ rconTable.getD (i / 4 - 1) 0, sbox (u.getD 2 0), sbox (u.getD 3 0),
          sbox (u.getD 0 0)]
      else u := by
  rw [keyTemp, ← rcon_eq_getD _ (by omega) (by omega)]
  match u, hu with
  | [_, _, _, _], _ => rfl

/-- A run of pieces cut out of pieces of one length laid end to end. -/
theorem take_drop_flatten {k : Nat} {l : List (List Byte)} (hl : ∀ p ∈ l, p.length = k)
    (m n : Nat) : (l.flatten.drop (k * n)).take (k * m) = ((l.drop n).take m).flatten := by
  induction l generalizing m n with
  | nil => simp
  | cons p l ih =>
    have hp : p.length = k := hl p (.head l)
    have ih := ih fun q hq => hl q (.tail p hq)
    cases n with
    | zero =>
      cases m with
      | zero => simp
      | succ m =>
        have h0 := ih m 0
        rw [Nat.mul_zero, List.drop_zero, List.drop_zero] at h0
        rw [Nat.mul_zero, List.drop_zero, List.drop_zero, List.flatten_cons, List.take_append,
          List.take_of_length_le (by rw [hp, Nat.mul_succ]; omega), hp, Nat.mul_succ,
          Nat.add_sub_cancel, h0]
        rfl
    | succ n =>
      rw [List.flatten_cons, List.drop_append, hp, Nat.mul_succ, Nat.add_sub_cancel,
        List.drop_of_length_le (by rw [hp]; omega), List.nil_append, ih]
      rfl

/-- A round key is four words of the key expansion. -/
theorem getD_keyExpansion {key : List Byte} (hk : key.length = 16) {r : Nat} (hr : r < 11) :
    (keyExpansion key).getD r [] =
      keyWord key (4 * r) ++ keyWord key (4 * r + 1) ++ keyWord key (4 * r + 2) ++
        keyWord key (4 * r + 3) := by
  have hl := length_keyWords key
  have e : 16 * r = 4 * (4 * r) := by omega
  rw [keyExpansion, getD_pieces 16 hr, e,
    take_drop_flatten (m := 4) (fun p hp => length_of_mem_keyWords hk hp),
    take_four_drop [] (by omega)]
  simp [keyWord]

/-! ### The blocks of CBC (R155, R156) -/

/-- Block `j` of a byte string. -/
def block (b : List Byte) (j : Nat) : List Byte := (b.drop (16 * j)).take 16

theorem block_append_zero {c : List Byte} (hc : c.length = 16) (d : List Byte) :
    block (c ++ d) 0 = c := List.take_left' hc

theorem block_append_succ {c : List Byte} (hc : c.length = 16) (d : List Byte) (j : Nat) :
    block (c ++ d) (j + 1) = block d j := by
  rw [block, Nat.mul_succ, Nat.add_comm, ← List.drop_drop, List.drop_left' hc, block]

theorem block_drop (b : List Byte) (j : Nat) : block (b.drop 16) j = block b (j + 1) := by
  rw [block, block, List.drop_drop, Nat.mul_succ, Nat.add_comm]

section
variable {rk : List (List Byte)} (hrk : Schedule rk)
include hrk

/-- Each ciphertext block is made from its plaintext block and the ciphertext block before it. -/
theorem block_cbcEncBlocks {n j : Nat} (hj : j < n) (prev p : List Byte) :
    block (cbcEncBlocks rk n prev p) j =
      cipher rk (xorBytes (block p j)
        (if j = 0 then prev else block (cbcEncBlocks rk n prev p) (j - 1))) := by
  induction n generalizing j prev p with
  | zero => omega
  | succ n ih =>
    have hc : (cipher rk (xorBytes (p.take 16) prev)).length = 16 := length_cipher hrk _
    rw [cbcEncBlocks]
    cases j with
    | zero => exact block_append_zero hc _
    | succ j =>
      rw [block_append_succ hc, ih (by omega), block_drop, if_neg (Nat.succ_ne_zero j),
        Nat.add_sub_cancel]
      cases j with
      | zero => rw [block_append_zero hc, if_pos rfl]
      | succ j => rw [block_append_succ hc, if_neg (Nat.succ_ne_zero j), Nat.add_sub_cancel]

theorem length_cbcEnc {p : List Byte} (hp : p.length % 16 = 0) (iv : List Byte) :
    (cbcEnc rk iv p).length = p.length := by
  rw [cbcEnc, length_cbcEncBlocks hrk]
  omega

/-- Block by block, decryption undoes encryption: both chain the same ciphertext block. -/
theorem cbcDecBlocks_cbcEncBlocks {n : Nat} {prev p : List Byte} (hprev : prev.length = 16)
    (hp : p.length = 16 * n) : cbcDecBlocks rk n prev (cbcEncBlocks rk n prev p) = p := by
  induction n generalizing prev p with
  | zero => exact (List.eq_nil_of_length_eq_zero hp).symm
  | succ n ih =>
    have hc : (cipher rk (xorBytes (p.take 16) prev)).length = 16 := length_cipher hrk _
    have hfirst : (p.take 16).length = 16 := by rw [List.length_take]; omega
    have hrest : (p.drop 16).length = 16 * n := by rw [List.length_drop]; omega
    have hx : (xorBytes (p.take 16) prev).length = 16 := by rw [length_xorBytes, hfirst, hprev]; rfl
    rw [cbcEncBlocks, cbcDecBlocks, List.take_left' hc, List.drop_left' hc, ih hc hrest,
      invCipher_cipher hrk hx, xorBytes_xorBytes (by rw [hfirst, hprev]), List.take_append_drop]

theorem cbcDec_cbcEnc {iv p : List Byte} (hiv : iv.length = 16) (hp : p.length % 16 = 0) :
    cbcDec rk iv (cbcEnc rk iv p) = p := by
  rw [cbcDec, length_cbcEnc hrk hp, cbcEnc]
  exact cbcDecBlocks_cbcEncBlocks hrk hiv (by omega)

end

/-- Settles O39: the chain block by block, the words of the key expansion for `w`, the states of the
cipher for `r`. -/
theorem cbcEncChainsTheBlocks : Obligations.CbcEncChainsTheBlocks := by
  refine ⟨?chain, ?keys, ?rounds⟩
  case chain =>
    rintro key iv p hk - - hp c rfl
    have hrk := schedule_keyExpansion hk
    exact ⟨length_cbcEnc hrk hp iv, fun j hj => block_cbcEncBlocks hrk hj iv p⟩
  case keys =>
    intro key hk
    refine ⟨length_pieces 16 11 _, keyWord key, fun i hi => keyWord_of_lt hk hi, ?_,
      fun r hr => getD_keyExpansion hk hr⟩
    intro i u h4 hi hu
    have hl : u.length = 4 := by rw [hu]; exact length_keyWord hk (by omega)
    rw [keyWord_of_ge key h4 hi, ← hu, keyTemp_eq hl h4 hi, xorBytes, rconTable]
  case rounds =>
    rintro key b hk hb rk rfl
    have hrk := schedule_keyExpansion hk
    refine ⟨cipherState (keyExpansion key) b, cipherState_zero _ b, ?_, length_cipher hrk b, ?_⟩
    · intro n i c h1 h9 hi hc x hx
      obtain ⟨n, rfl⟩ := Nat.exists_eq_add_of_le' h1
      refine ⟨length_cipherState hrk hb h9, ?_⟩
      rw [cipherState_succ]
      exact getD_cipherRound hrk (by omega) (length_cipherState hrk hb (by omega)) hi hc hx
    · intro i c hi hc
      rw [cipher_eq_lastRound]
      exact getD_lastRound hrk (length_cipherState hrk hb le_rfl) hi hc

/-- Settles O40, under the schedule that the key expansion makes. -/
theorem cbcDecInvertsCbcEnc : Obligations.CbcDecInvertsCbcEnc := by
  intro key iv p hk hiv _ hp
  exact cbcDec_cbcEnc (schedule_keyExpansion hk) hiv hp

end Sys2Proof.Machine

/-! The envelope family (42_cbc_envelope.md), its padding and its text: what `Unpad` and the UTF-8
scan answer, then O41 and O42. -/

namespace Sys2Proof.Machine

/-! ### Padding (R151, R152) -/

/-- The padding of `v` bytes. -/
def padding (v : Nat) : List Byte := List.replicate v (BitVec.ofNat 8 v)

@[simp] theorem length_padding (v : Nat) : (padding v).length = v := List.length_replicate

theorem pad_eq (m : List Byte) : pad m = m ++ padding (16 - m.length % 16) := rfl

/-- A padded string of whole blocks is a padded message by the one padding that fills its last
block. -/
theorem append_padding_eq_pad {m : List Byte} {v : Nat} (h1 : 1 ≤ v) (h16 : v ≤ 16)
    (h : (m ++ padding v).length % 16 = 0) : m ++ padding v = pad m := by
  rw [List.length_append, length_padding] at h
  have hv : 16 - m.length % 16 = v := by omega
  rw [pad_eq, hv]

theorem length_pad_mod (m : List Byte) : (pad m).length % 16 = 0 := by
  rw [length_pad]; omega

/-- Whether a byte from place `n` on is unlike `x`, said by its place. -/
theorem any_ne_drop_eq_true {p : List Byte} {n : Nat} {x : Byte} :
    (p.drop n).any (· != x) = true ↔ ∃ k, n ≤ k ∧ k < p.length ∧ p.getD k 0 ≠ x := by
  simp only [List.any_eq_true, bne_iff_ne, List.mem_drop_iff_getElem]
  constructor
  · rintro ⟨_, ⟨i, hi, rfl⟩, hne⟩
    exact ⟨n + i, by omega, by omega, by rwa [List.getD_eq_getElem _ _ (by omega)]⟩
  · rintro ⟨k, hn, hk, hne⟩
    rw [List.getD_eq_getElem _ _ hk] at hne
    obtain ⟨i, rfl⟩ := Nat.exists_eq_add_of_le hn
    exact ⟨_, ⟨i, by omega, rfl⟩, hne⟩

/-- How many bytes of padding a string claims to have: its last byte. -/
def padCount (p : List Byte) : Nat := (p.getD (p.length - 1) 0).toNat

theorem toNat_getLastD (p : List Byte) : (p.getLastD 0#8).toNat = padCount p := by
  rw [padCount, List.getLastD_eq_getLast?, List.getLast?_eq_getElem?, List.getD_eq_getElem?_getD]
  rfl

/-- Some byte of the padding that a string claims to have is not the claimed count. -/
def PaddingBroken (p : List Byte) : Prop :=
  ∃ k, p.length - padCount p ≤ k ∧ k < p.length ∧ (p.getD k 0).toNat ≠ padCount p

theorem unpad_eq (p : List Byte) [Decidable (PaddingBroken p)] :
    unpad p =
      if padCount p < 1 ∨ padCount p > 16 then .error ⟨.invalidPadding, 1, 0⟩
      else if PaddingBroken p then .error ⟨.invalidPadding, 2, 0⟩
      else .ok (p.take (p.length - padCount p)) := by
  have broken : (p.drop (p.length - padCount p)).any (· != p.getLastD 0#8) = true ↔
      PaddingBroken p := by
    rw [any_ne_drop_eq_true, PaddingBroken, ← toNat_getLastD]
    simp only [ne_eq, BitVec.toNat_inj]
  simp only [unpad, toNat_getLastD, broken]

theorem unpad_of_count_out {p : List Byte} (h : padCount p < 1 ∨ padCount p > 16) :
    unpad p = .error ⟨.invalidPadding, 1, 0⟩ := by
  classical rw [unpad_eq, if_pos h]

theorem unpad_of_broken {p : List Byte} (h1 : 1 ≤ padCount p) (h16 : padCount p ≤ 16)
    (h : PaddingBroken p) : unpad p = .error ⟨.invalidPadding, 2, 0⟩ := by
  classical rw [unpad_eq, if_neg (by omega), if_pos h]

theorem unpad_of_not_broken {p : List Byte} (h1 : 1 ≤ padCount p) (h16 : padCount p ≤ 16)
    (h : ¬ PaddingBroken p) : unpad p = .ok (p.take (p.length - padCount p)) := by
  classical rw [unpad_eq, if_neg (by omega), if_neg h]

/-- What a string without broken padding ends in. -/
theorem drop_of_not_broken {p : List Byte} (hp : padCount p ≤ p.length) (h : ¬ PaddingBroken p) :
    p.drop (p.length - padCount p) = padding (padCount p) := by
  have alike : ∀ x ∈ p.drop (p.length - padCount p), x.toNat = padCount p := by
    intro x hx
    obtain ⟨i, hi, rfl⟩ := List.mem_drop_iff_getElem.1 hx
    by_contra hne
    refine h ⟨p.length - padCount p + i, by omega, by omega, ?_⟩
    rwa [List.getD_eq_getElem _ _ (by omega)]
  refine List.eq_replicate_iff.2 ⟨by rw [List.length_drop]; omega, fun x hx => ?_⟩
  rw [← alike x hx, BitVec.ofNat_toNat, BitVec.setWidth_eq]

theorem toNat_getD_append_padding (m : List Byte) {v k : Nat} (h16 : v ≤ 16) (h1 : m.length ≤ k)
    (h2 : k < m.length + v) : ((m ++ padding v).getD k 0).toNat = v := by
  have hv : v % 2 ^ 8 = v := Nat.mod_eq_of_lt (by omega)
  rw [List.getD_append_right _ _ _ _ h1, padding, List.getD_replicate _ (by omega),
    BitVec.toNat_ofNat, hv]

/-- `Unpad` answers `m` exactly for `m` with 1 to 16 bytes of padding. -/
theorem unpad_eq_ok_iff {p m : List Byte} (hp : 16 ≤ p.length) :
    unpad p = .ok m ↔ ∃ v, 1 ≤ v ∧ v ≤ 16 ∧ p = m ++ padding v := by
  constructor
  · intro h
    by_cases hout : padCount p < 1 ∨ padCount p > 16
    · rw [unpad_of_count_out hout] at h; cases h
    by_cases hb : PaddingBroken p
    · rw [unpad_of_broken (by omega) (by omega) hb] at h; cases h
    rw [unpad_of_not_broken (by omega) (by omega) hb] at h
    cases h
    refine ⟨padCount p, by omega, by omega, ?_⟩
    rw [← drop_of_not_broken (by omega) hb, List.take_append_drop]
  · rintro ⟨v, h1, h16, rfl⟩
    have hl : (m ++ padding v).length = m.length + v := by
      rw [List.length_append, length_padding]
    have hc : padCount (m ++ padding v) = v :=
      toNat_getD_append_padding m h16 (by omega) (by omega)
    have hb : ¬ PaddingBroken (m ++ padding v) := by
      rintro ⟨k, hk1, hk2, hne⟩
      rw [hc] at hk1 hne
      exact hne (toNat_getD_append_padding m h16 (by omega) (by omega))
    rw [unpad_of_not_broken (by omega) (by omega) hb, hc, hl, Nat.add_sub_cancel,
      List.take_left' rfl]

/-- R152: on strings of whole blocks `Unpad` is the inverse of `Pad`. -/
theorem unpad_eq_ok_iff_eq_pad {p m : List Byte} (h0 : 0 < p.length) (hp : p.length % 16 = 0) :
    unpad p = .ok m ↔ p = pad m := by
  rw [unpad_eq_ok_iff (by omega)]
  constructor
  · rintro ⟨v, h1, h16, rfl⟩
    exact append_padding_eq_pad h1 h16 hp
  · rintro rfl
    exact ⟨16 - m.length % 16, by omega, by omega, pad_eq m⟩

theorem unpad_pad (m : List Byte) : unpad (pad m) = .ok m :=
  (unpad_eq_ok_iff_eq_pad (by rw [length_pad]; omega) (length_pad_mod m)).2 rfl

/-- Settles O41: the three ways `Unpad` can end, by the count its last byte claims. -/
theorem unpadAcceptsExactlyPaddedStrings : Obligations.UnpadAcceptsExactlyPaddedStrings := by
  intro p h0 hp
  refine ⟨fun m => unpad_eq_ok_iff_eq_pad h0 hp, ?_⟩
  rintro v rfl
  refine ⟨unpad_of_count_out, unpad_of_broken, fun h1 h16 h => unpad_of_not_broken h1 h16 ?_⟩
  rintro ⟨k, hk1, hk2, hne⟩
  exact hne (h k hk1 hk2)

/-! ### The rows of UTF-8 (R158) -/

/-- The string `b` is one that a row admits: as long, and each byte in its range. -/
def Admits (row : List (Byte × Byte)) (b : List Byte) : Prop :=
  List.Forall₂ (fun x r => r.1.toNat ≤ x.toNat ∧ x.toNat ≤ r.2.toNat) b row

theorem utf8Sequence_iff_admits (b : List Byte) :
    Utf8Sequence b ↔ ∃ row ∈ utf8Table, Admits row b := by
  refine exists_congr fun row => and_congr_right fun _ => ?_
  rw [Admits, List.forall₂_iff_get]
  refine and_congr_right fun hl => ⟨fun h k hb hr => ?_, fun h k hr => ?_⟩
  · have hk := h k hr
    rwa [List.getD_eq_getElem _ _ hr, List.getD_eq_getElem _ _ hb] at hk
  · rw [List.getD_eq_getElem _ _ hr, List.getD_eq_getElem _ _ (hl ▸ hr)]
    exact h k (hl ▸ hr) hr

/-- A row with its bounds as numbers. -/
def rowBounds (row : List (Byte × Byte)) : List (Nat × Nat) :=
  row.map fun r => (r.1.toNat, r.2.toNat)

theorem utf8Sequence_iff_bounds (b : List Byte) :
    Utf8Sequence b ↔ ∃ row ∈ utf8Table.map rowBounds,
      List.Forall₂ (fun x r => r.1 ≤ x.toNat ∧ x.toNat ≤ r.2) b row := by
  simp only [utf8Sequence_iff_admits, Admits, List.mem_map, exists_exists_and_eq_and, rowBounds,
    List.forall₂_map_right_iff]

/-- A row matches at the start of `m` when it admits as many bytes of `m` as it has. -/
theorem rowMatches_eq_true {row : List (Byte × Byte)} {m : List Byte} :
    rowMatches row m = true ↔ Admits row (m.take row.length) := by
  unfold Admits
  induction row generalizing m with
  | nil => simp [rowMatches]
  | cons r row ih =>
    cases m with
    | nil => simp [rowMatches]
    | cons x m => simp [rowMatches, inRange, ih]

/-- Two rows of the table whose ranges of the first byte meet are one row. -/
theorem row_eq_of_first_meets : ∀ row ∈ utf8Table, ∀ row' ∈ utf8Table,
    (row.headD (0, 0)).1.toNat ≤ (row'.headD (0, 0)).2.toNat →
      (row'.headD (0, 0)).1.toNat ≤ (row.headD (0, 0)).2.toNat → row = row' := by decide

theorem row_ne_nil : ∀ row ∈ utf8Table, row ≠ [] := by decide

/-- The first byte of what a row admits is in the row's first range. -/
theorem first_of_admits {row : List (Byte × Byte)} {m : List Byte} {k : Nat} (hrow : row ≠ [])
    (h : Admits row (m.take k)) :
    (row.headD (0, 0)).1.toNat ≤ (m.headD 0).toNat ∧
      (m.headD 0).toNat ≤ (row.headD (0, 0)).2.toNat := by
  match row, m, k, hrow, h with
  | _ :: _, [], _, _, h => simp [Admits] at h
  | _ :: _, _ :: _, _ + 1, _, h => exact (List.forall₂_cons.1 h).1

/-- At most one row of the table admits the start of a string. -/
theorem row_eq_of_admits {row row' : List (Byte × Byte)} {m : List Byte} {k k' : Nat}
    (hrow : row ∈ utf8Table) (hrow' : row' ∈ utf8Table) (h : Admits row (m.take k))
    (h' : Admits row' (m.take k')) : row = row' := by
  obtain ⟨hlo, hhi⟩ := first_of_admits (row_ne_nil row hrow) h
  obtain ⟨hlo', hhi'⟩ := first_of_admits (row_ne_nil row' hrow') h'
  exact row_eq_of_first_meets row hrow row' hrow' (hlo.trans hhi') (hlo'.trans hhi)

theorem admits_of_find {row : List (Byte × Byte)} {m : List Byte}
    (h : utf8Table.find? (rowMatches · m) = some row) :
    row ∈ utf8Table ∧ Admits row (m.take row.length) :=
  ⟨List.mem_of_find?_eq_some h, rowMatches_eq_true.1 (List.find?_some (p := (rowMatches · m)) h)⟩

/-- The row found at the start of `m` has length `k` exactly when the first `k` bytes of `m` are a
sequence. -/
theorem utf8RowLength_eq_some {m : List Byte} {k : Nat} :
    utf8RowLength m = some k ↔ k ≤ m.length ∧ Utf8Sequence (m.take k) := by
  rw [utf8RowLength, Option.map_eq_some_iff, utf8Sequence_iff_admits]
  constructor
  · rintro ⟨row, hfind, rfl⟩
    obtain ⟨hrow, hadm⟩ := admits_of_find hfind
    have hl : (m.take row.length).length = row.length := hadm.length_eq
    rw [List.length_take] at hl
    exact ⟨by omega, row, hrow, hadm⟩
  · rintro ⟨hk, row, hrow, hadm⟩
    have hl : k = row.length := by
      rw [← List.length_take_of_le hk]
      exact hadm.length_eq
    have hmatch : rowMatches row m = true := rowMatches_eq_true.2 (hl ▸ hadm)
    obtain ⟨row', hfind⟩ := Option.isSome_iff_exists.1
      (List.find?_isSome (p := (rowMatches · m)).2 ⟨row, hrow, hmatch⟩)
    obtain ⟨hrow', hadm'⟩ := admits_of_find hfind
    obtain rfl := row_eq_of_admits hrow hrow' hadm hadm'
    exact ⟨row, hfind, hl.symm⟩

/-- A sequence has at least one byte. -/
theorem utf8Sequence_ne_nil {b : List Byte} (h : Utf8Sequence b) : b ≠ [] := by
  rintro rfl
  obtain ⟨row, hrow, hadm⟩ := (utf8Sequence_iff_admits []).1 h
  exact row_ne_nil row hrow (List.forall₂_nil_left_iff.1 hadm)

theorem utf8RowLength_eq_none {m : List Byte} :
    utf8RowLength m = none ↔ ∀ k, ¬ Utf8Sequence (m.take k) := by
  rw [Option.eq_none_iff_forall_ne_some]
  simp only [ne_eq, utf8RowLength_eq_some, not_and]
  refine ⟨fun h k hs => ?_, fun h k _ => h k⟩
  rcases Nat.le_total k m.length with hk | hk
  · exact h k hk hs
  · rw [List.take_of_length_le hk, ← List.take_length (l := m)] at hs
    exact h m.length le_rfl hs

theorem utf8RowLength_pos {m : List Byte} {k : Nat} (h : utf8RowLength m = some k) : 0 < k := by
  have hne := utf8Sequence_ne_nil (utf8RowLength_eq_some.1 h).2
  exact Nat.pos_of_ne_zero fun hk => hne (by rw [hk, List.take_zero])

/-- A row found in a string cut short is found in the string. -/
theorem utf8RowLength_take {m : List Byte} {i k : Nat} (hi : i ≤ m.length) :
    utf8RowLength (m.take i) = some k ↔ k ≤ i ∧ utf8RowLength m = some k := by
  rw [utf8RowLength_eq_some, utf8RowLength_eq_some, List.length_take_of_le hi, List.take_take]
  constructor
  · rintro ⟨hk, hs⟩
    exact ⟨hk, by omega, by rwa [Nat.min_eq_left hk] at hs⟩
  · rintro ⟨hk, -, hs⟩
    exact ⟨hk, by rwa [Nat.min_eq_left hk]⟩

/-! ### Well-formed strings (R158) -/

theorem wellFormedUtf8_nil : WellFormedUtf8 [] := ⟨[], rfl, by simp⟩

theorem wellFormedUtf8_append {p m : List Byte} (hp : Utf8Sequence p) :
    WellFormedUtf8 m → WellFormedUtf8 (p ++ m) := by
  rintro ⟨parts, rfl, hparts⟩
  refine ⟨p :: parts, rfl, fun q hq => ?_⟩
  rcases List.mem_cons.1 hq with rfl | hq
  · exact hp
  · exact hparts q hq

/-- A well-formed string is empty, or a row is found at its start and what is behind it is
well-formed. -/
theorem wellFormedUtf8_cases {m : List Byte} (h : WellFormedUtf8 m) :
    m = [] ∨ ∃ k, utf8RowLength m = some k ∧ WellFormedUtf8 (m.drop k) := by
  obtain ⟨parts, rfl, hparts⟩ := h
  cases parts with
  | nil => exact .inl rfl
  | cons p parts =>
    refine .inr ⟨p.length, utf8RowLength_eq_some.2 ⟨?_, ?_⟩, ?_⟩
    · simp
    · rw [List.flatten_cons, List.take_left' rfl]
      exact hparts p (.head parts)
    · rw [List.flatten_cons, List.drop_left' rfl]
      exact ⟨parts, rfl, fun q hq => hparts q (.tail p hq)⟩

theorem wellFormedUtf8_iff_drop {m : List Byte} {k : Nat} (h : utf8RowLength m = some k) :
    WellFormedUtf8 m ↔ WellFormedUtf8 (m.drop k) := by
  constructor
  · intro hm
    rcases wellFormedUtf8_cases hm with rfl | ⟨k', h', hd⟩
    · rwa [List.drop_nil]
    · cases h.symm.trans h'
      exact hd
  · intro hd
    have hm := wellFormedUtf8_append (utf8RowLength_eq_some.1 h).2 hd
    rwa [List.take_append_drop] at hm

theorem not_wellFormedUtf8_of_none {m : List Byte} (hm : m ≠ []) (h : utf8RowLength m = none) :
    ¬ WellFormedUtf8 m := by
  intro hw
  rcases wellFormedUtf8_cases hw with rfl | ⟨k, hk, -⟩
  · exact hm rfl
  · cases h.symm.trans hk

/-! ### The scan (R159) -/

/-- Bytes of a row that are left do not count. -/
theorem utf8Scan_skip (skip i : Nat) (m : List Byte) :
    utf8Scan skip i m = utf8Scan 0 (i + skip) (m.drop skip) := by
  induction skip generalizing i m with
  | zero => rfl
  | succ skip ih =>
    cases m with
    | nil => rfl
    | cons x m =>
      rw [utf8Scan, ih, List.drop_succ_cons, Nat.add_assoc, Nat.add_comm 1 skip]

theorem utf8Scan_of_none {m : List Byte} (hm : m ≠ []) (h : utf8RowLength m = none) (i : Nat) :
    utf8Scan 0 i m = some i := by
  match m, hm with
  | x :: m, _ => simp only [utf8Scan, h]

theorem utf8Scan_of_some {m : List Byte} {k : Nat} (h : utf8RowLength m = some k) (i : Nat) :
    utf8Scan 0 i m = utf8Scan 0 (i + k) (m.drop k) := by
  have hk := utf8RowLength_pos h
  obtain ⟨k, rfl⟩ := Nat.exists_eq_add_of_le' hk
  cases m with
  | nil => rfl
  | cons x m =>
    simp only [utf8Scan, h]
    rw [utf8Scan_skip, List.drop_succ_cons, Nat.add_sub_cancel, Nat.add_assoc, Nat.add_comm 1 k]

/-- Induction along the scan: nothing left, no row matches, or the string behind a row. -/
theorem utf8Scan_induction {motive : List Byte → Prop} (nil : motive [])
    (bad : ∀ m, m ≠ [] → utf8RowLength m = none → motive m)
    (row : ∀ m k, utf8RowLength m = some k → motive (m.drop k) → motive m) :
    ∀ m, motive m := by
  intro m
  induction hn : m.length using Nat.strong_induction_on generalizing m with
  | _ n ih =>
    by_cases hm : m = []
    · exact hm ▸ nil
    cases h : utf8RowLength m with
    | none => exact bad m hm h
    | some k =>
      have hpos := utf8RowLength_pos h
      have hlen := List.length_pos_iff.2 hm
      have hshort : (m.drop k).length < n := by rw [List.length_drop]; omega
      exact row m k h (ih _ hshort _ rfl)

theorem utf8Scan_eq_none_iff (m : List Byte) (i : Nat) :
    utf8Scan 0 i m = none ↔ WellFormedUtf8 m := by
  induction m using utf8Scan_induction generalizing i with
  | nil => exact iff_of_true rfl wellFormedUtf8_nil
  | bad m hm h =>
    rw [utf8Scan_of_none hm h]
    exact iff_of_false (by simp) (not_wellFormedUtf8_of_none hm h)
  | row m k h ih => rw [utf8Scan_of_some h, ih, wellFormedUtf8_iff_drop h]

/-- Offset `i` lies in `m` behind a well-formed string, and no row matches there. -/
def BadAt (m : List Byte) (i : Nat) : Prop :=
  i < m.length ∧ WellFormedUtf8 (m.take i) ∧ utf8RowLength (m.drop i) = none

/-- Where no row matches at the start, the start is the one bad offset. -/
theorem badAt_of_none {m : List Byte} (hm : m ≠ []) (h : utf8RowLength m = none) (i : Nat) :
    BadAt m i ↔ i = 0 := by
  constructor
  · rintro ⟨hi, hw, -⟩
    rcases wellFormedUtf8_cases hw with hnil | ⟨k, hk, -⟩
    · exact (List.take_eq_nil_iff.1 hnil).resolve_right hm
    · cases h.symm.trans ((utf8RowLength_take hi.le).1 hk).2
  · rintro rfl
    exact ⟨List.length_pos_iff.2 hm, wellFormedUtf8_nil, h⟩

/-- Where a row matches, the bad offsets are those of the string behind it. -/
theorem badAt_of_some {m : List Byte} {k : Nat} (h : utf8RowLength m = some k) (i : Nat) :
    BadAt m i ↔ ∃ j, i = k + j ∧ BadAt (m.drop k) j := by
  have hk := (utf8RowLength_eq_some.1 h).1
  have behind : ∀ j, BadAt m (k + j) ↔ BadAt (m.drop k) j := fun j => by
    unfold BadAt
    rw [List.length_drop, List.drop_drop, ← Nat.lt_sub_iff_add_lt']
    refine and_congr_right fun hj => and_congr_left' ?_
    have hrow : utf8RowLength (m.take (k + j)) = some k :=
      (utf8RowLength_take (by omega)).2 ⟨Nat.le_add_right k j, h⟩
    rw [wellFormedUtf8_iff_drop hrow, List.drop_take, Nat.add_sub_cancel_left]
  constructor
  · intro hbad
    have hki : k ≤ i := by
      obtain ⟨hi, hw, hnone⟩ := hbad
      rcases wellFormedUtf8_cases hw with hnil | ⟨k', hk', -⟩
      · have hm : m ≠ [] := List.ne_nil_of_length_pos (Nat.zero_lt_of_lt hi)
        have h0 : i = 0 := (List.take_eq_nil_iff.1 hnil).resolve_right hm
        rw [h0, List.drop_zero] at hnone
        cases hnone.symm.trans h
      · obtain ⟨hle, h'⟩ := (utf8RowLength_take hi.le).1 hk'
        cases h.symm.trans h'
        exact hle
    obtain ⟨j, rfl⟩ := Nat.exists_eq_add_of_le hki
    exact ⟨j, rfl, (behind j).1 hbad⟩
  · rintro ⟨j, rfl, hj⟩
    exact (behind j).2 hj

theorem utf8Scan_eq_some_iff (m : List Byte) (i n : Nat) :
    utf8Scan 0 i m = some n ↔ ∃ j, n = i + j ∧ BadAt m j := by
  induction m using utf8Scan_induction generalizing i with
  | nil => simp [utf8Scan, BadAt]
  | bad m hm h =>
    simp only [utf8Scan_of_none hm h, badAt_of_none hm h, Option.some.injEq, exists_eq_right,
      Nat.add_zero, eq_comm]
  | row m k h ih =>
    simp only [utf8Scan_of_some h, ih, badAt_of_some h]
    constructor
    · rintro ⟨j, rfl, hj⟩
      exact ⟨k + j, Nat.add_assoc i k j, j, rfl, hj⟩
    · rintro ⟨_, rfl, j, rfl, hj⟩
      exact ⟨j, (Nat.add_assoc i k j).symm, hj⟩

theorem utf8FirstBad_eq_none_iff (m : List Byte) : utf8FirstBad m = none ↔ WellFormedUtf8 m :=
  utf8Scan_eq_none_iff m 0

theorem utf8FirstBad_eq_some_iff (m : List Byte) (i : Nat) :
    utf8FirstBad m = some i ↔ BadAt m i := by
  rw [utf8FirstBad, utf8Scan_eq_some_iff]
  simp only [Nat.zero_add, exists_eq_left']

/-- Settles O42: the table with its bounds as numbers, and the scan by induction along its rows. -/
theorem utf8ScanDecidesWellFormedness : Obligations.Utf8ScanDecidesWellFormedness := by
  refine ⟨utf8Sequence_iff_bounds, fun m => Iff.rfl, fun m =>
    ⟨utf8FirstBad_eq_none_iff m, fun i => ?_⟩⟩
  rw [utf8FirstBad_eq_some_iff, BadAt, utf8RowLength_eq_none]

end Sys2Proof.Machine

/-! The envelope family (42_cbc_envelope.md), its commands: `ENC` and O32, then `DEC` on what `ENC`
delivers and O43. -/

namespace Sys2Proof.Machine

/-! ### The envelope (R150, R162, R166) -/

/-- The envelope of the plaintext `m` under the password `pw` and the vector `iv` (R150). -/
def envelope (iv pw m : List Byte) : List Byte :=
  iv ++ cbcEnc (keyExpansion (deriveKey pw)) iv (pad m)

theorem schedule_deriveKey (pw : List Byte) : Schedule (keyExpansion (deriveKey pw)) :=
  schedule_keyExpansion (length_deriveKey pw)

theorem length_envelope {iv : List Byte} (hiv : iv.length = 16) (pw m : List Byte) :
    (envelope iv pw m).length = envelopeSize m.length := by
  rw [envelope, List.length_append, length_cbcEnc (schedule_deriveKey pw) (length_pad_mod m),
    length_pad, hiv, envelopeSize]
  omega

theorem encryptBytes_of_ok {d : Draw} (h : d.ok = true) (pw m : List Byte) :
    encryptBytes d pw m = .ok (envelope d.iv.toList pw m) := if_pos h

theorem encryptBytes_of_not_ok {d : Draw} (h : d.ok = false) (pw m : List Byte) :
    encryptBytes d pw m = .error ⟨.encryptionError, 1, 0⟩ := by
  rw [encryptBytes, h]
  rfl

/-- An envelope of at least one whole block behind the vector is decrypted as far as `Unpad`. -/
theorem decryptBytes_of_blocks {e pw m : List Byte} (h32 : 32 ≤ e.length)
    (hmod : e.length % 16 = 0)
    (hpad : unpad (cbcDec (keyExpansion (deriveKey pw)) (e.take 16) (e.drop 16)) = .ok m)
    (hutf : utf8FirstBad m = none) : decryptBytes e pw = .ok m := by
  have hblocks : ¬((e.drop 16).length = 0 ∨ (e.drop 16).length % 16 ≠ 0) := by
    rw [List.length_drop]; omega
  rw [decryptBytes, if_neg (by omega), if_neg hblocks]
  simp only [hpad, hutf]

/-- Decryption turns an envelope back into its plaintext: the vector leads it, CBC is undone, the
padding is taken off. -/
theorem decryptBytes_envelope {iv : List Byte} (hiv : iv.length = 16) (pw : List Byte)
    {m : List Byte} (hm : WellFormedUtf8 m) : decryptBytes (envelope iv pw m) pw = .ok m := by
  have hl : (envelope iv pw m).length = 16 * (m.length / 16 + 2) := length_envelope hiv pw m
  refine decryptBytes_of_blocks (by omega) (by omega) ?_ ((utf8FirstBad_eq_none_iff m).2 hm)
  rw [envelope, List.take_left' hiv, List.drop_left' hiv,
    cbcDec_cbcEnc (schedule_deriveKey pw) hiv (length_pad_mod m), unpad_pad]

/-- The size of `DOUT` fits a result register, with room to spare (R9). -/
theorem dCap_lt {p : Params} (h : p.ok = true) : p.dCap < 2 ^ 28 := by
  simp only [Params.ok, Params.dCapOk, Bool.and_eq_true, decide_eq_true_eq] at h
  omega

/-! ### The operand checks (R255) -/

theorem checkData_of_gt {s : State} (h : s.opnd.dlen.toNat > s.env.par.dCap) :
    s.checkData = .error ⟨.operandRange, 2, s.opnd.dlen.toNat⟩ := if_pos h

theorem checkOutput_of_gt {s : State} {size : Nat} (h : size > s.env.par.dCap) :
    s.checkOutput size = .error ⟨.operandRange, 5, size⟩ := if_pos h

theorem encChecks_of_password_gt {s : State} (h : s.opnd.pwlen.toNat > s.env.par.pwCap) :
    encChecks s = .error ⟨.operandRange, 1, s.opnd.pwlen.toNat⟩ := by
  rw [encChecks, checkPassword_of_gt h, except_error_bind]

section
variable {s : State} (hpw : s.opnd.pwlen.toNat ≤ s.env.par.pwCap)
include hpw

theorem encChecks_of_data_gt (h : s.opnd.dlen.toNat > s.env.par.dCap) :
    encChecks s = .error ⟨.operandRange, 2, s.opnd.dlen.toNat⟩ := by
  rw [encChecks, checkPassword_eq_ok (u := ()).2 hpw, except_ok_bind, checkData_of_gt h,
    except_error_bind]

theorem encChecks_of_output_gt (hd : s.opnd.dlen.toNat ≤ s.env.par.dCap)
    (h : envelopeSize s.opnd.dlen.toNat > s.env.par.dCap) :
    encChecks s = .error ⟨.operandRange, 5, envelopeSize s.opnd.dlen.toNat⟩ := by
  rw [encChecks, checkPassword_eq_ok (u := ()).2 hpw, except_ok_bind,
    checkData_eq_ok (u := ()).2 hd, except_ok_bind, checkOutput_of_gt h]

/-- An envelope that fits leaves no operand check to fail: the plaintext is shorter. -/
theorem encChecks_of_fits (h : envelopeSize s.opnd.dlen.toNat ≤ s.env.par.dCap) :
    encChecks s = .ok () := by
  refine encChecks_eq_ok.2 ⟨hpw, ?_, h⟩
  rw [envelopeSize] at h
  omega

end

/-! ### `ENC` (R162) -/

theorem exec_enc (s : State) : exec .enc s = execEnc s := rfl

/-- A failed operand check ends `ENC` before its draw. -/
theorem exec_enc_of_check {s : State} {id value : Nat}
    (h : encChecks s = .error ⟨.operandRange, id, value⟩) :
    ∃ t, exec .enc s = .next t ∧ t.FailedWith 9 id value ∧ Untouched s t ∧ NoDraw s t := by
  refine ⟨s.complete (.error ⟨.operandRange, id, value⟩), ?_, failedWith_complete_error _ s,
    untouched_complete _ s, noDraw_complete _ s⟩
  rw [exec_enc, execEnc, h]
  rfl

/-- A completion behind a draw leaves the same as one without it. -/
theorem untouched_afterDraw_complete (r : CmdResult) (s : State) :
    Untouched s (s.afterDraw.complete r) :=
  ⟨rfl, rfl, rfl, rfl, rfl, rfl, rfl, rfl⟩

theorem oneDraw_afterDraw_complete (r : CmdResult) (s : State) :
    OneDraw s (s.afterDraw.complete r) := ⟨rfl, rfl⟩

/-- What `ENC` delivers when its draw answers `ok = 1`. -/
def encEnvelope (s : State) : List Byte := envelope s.nextDraw.iv.toList s.password s.data

theorem length_encEnvelope (s : State) :
    (encEnvelope s).length = envelopeSize s.opnd.dlen.toNat := by
  rw [encEnvelope, length_envelope s.nextDraw.iv.length_toList, length_data]

section
variable {s : State} (hpw : s.opnd.pwlen.toNat ≤ s.env.par.pwCap)
  (hfit : envelopeSize s.opnd.dlen.toNat ≤ s.env.par.dCap)
include hpw hfit

theorem exec_enc_of_ok (hok : s.nextDraw.ok = true) :
    exec .enc s = .next (s.afterDraw.complete (.ok (bytesOut (encEnvelope s)))) := by
  rw [exec_enc, execEnc_of_checks (encChecks_of_fits hpw hfit), encResult, encryptBytes_of_ok hok]
  rfl

theorem exec_enc_of_not_ok (hok : s.nextDraw.ok = false) :
    exec .enc s = .next (s.afterDraw.complete (.error ⟨.encryptionError, 1, 0⟩)) := by
  rw [exec_enc, execEnc_of_checks (encChecks_of_fits hpw hfit), encResult,
    encryptBytes_of_not_ok hok]
  rfl

end

/-- `OLEN` holds the length of a delivered string that fits it. -/
theorem toNat_bytesOut_olen {b : List Byte} (h : b.length < 2 ^ 32) :
    (bytesOut b).olen.toNat = b.length :=
  (BitVec.toNat_ofNat _ _).trans (Nat.mod_eq_of_lt h)

/-- Settles O32: the checks in their order, then the two answers of the draw. -/
theorem encCommand : Obligations.EncCommand := by
  refine ⟨rfl, fun s hp => ⟨fun hpw => ?password, fun hpw hd => ?data, fun hpw hd hsize => ?output,
    fun hpw hfit => ⟨fun hok => ?delivers, fun hok => ?fails⟩⟩⟩
  case password => exact exec_enc_of_check (encChecks_of_password_gt hpw)
  case data => exact exec_enc_of_check (encChecks_of_data_gt hpw hd)
  case output => exact exec_enc_of_check (encChecks_of_output_gt hpw hd hsize)
  case delivers =>
    have hl := length_encEnvelope s
    have hlt : (encEnvelope s).length < 2 ^ 32 := by
      have := dCap_lt hp
      rw [envelopeSize] at hl
      omega
    exact ⟨_, exec_enc_of_ok hpw hfit hok, delivers_complete_bytesOut hlt _,
      (toNat_bytesOut_olen hlt).trans hl, untouched_afterDraw_complete _ s,
      oneDraw_afterDraw_complete _ s⟩
  case fails =>
    exact ⟨_, exec_enc_of_not_ok hpw hfit hok, failedWith_complete_error _ _,
      untouched_afterDraw_complete _ s, oneDraw_afterDraw_complete _ s⟩

/-! ### `DEC` (R166) -/

theorem exec_dec (s : State) : exec .dec s = .next (s.complete (decResult s)) := rfl

theorem decResult_of_ok {s : State} {m : List Byte} (hpw : s.opnd.pwlen.toNat ≤ s.env.par.pwCap)
    (hd : s.opnd.dlen.toNat ≤ s.env.par.dCap) (h : decryptBytes s.data s.password = .ok m) :
    decResult s = .ok (bytesOut m) := by
  rw [decResult, checkPassword_eq_ok (u := ()).2 hpw, except_ok_bind,
    checkData_eq_ok (u := ()).2 hd, except_ok_bind, h]
  rfl

/-- A state whose `DIN` and `DLEN` are the `DOUT` and `OLEN` of a delivery has the delivered string
as its data. -/
theorem data_of_bytesOut {s : State} {b : List Byte} (hb : b.length < 2 ^ 32)
    (hlen : s.opnd.dlen = (bytesOut b).olen) (hdin : s.bufs.din = (bytesOut b).dout) :
    s.data = b := by
  rw [State.data, hlen, toNat_bytesOut_olen hb, hdin]
  exact Memory.readRun_writeRun_cleared b

theorem password_congr {s s' : State} (hlen : s'.opnd.pwlen = s.opnd.pwlen)
    (hpw : s'.bufs.pw = s.bufs.pw) : s'.password = s.password := by
  rw [State.password, hlen, hpw, State.password]

/-- Settles O43: `DEC` finds the envelope as its data, and decryption turns it back. -/
theorem encThenDecGivesThePlaintext : Obligations.EncThenDecGivesThePlaintext := by
  intro s hp hpw hfit hok hutf
  refine ⟨_, exec_enc_of_ok hpw hfit hok, succeeded_complete_ok _ _, ?_⟩
  intro s' hpar hpwlen hpwbuf hdlen hdin
  have hl : (encEnvelope s).length = 16 * (s.opnd.dlen.toNat / 16 + 2) := length_encEnvelope s
  have hcap := dCap_lt hp
  have hdata : s'.data = encEnvelope s := data_of_bytesOut (by omega) hdlen hdin
  have hdec : decryptBytes s'.data s'.password = .ok s.data := by
    rw [hdata, password_congr hpwlen hpwbuf]
    exact decryptBytes_envelope s.nextDraw.iv.length_toList s.password hutf
  have hd : s'.opnd.dlen.toNat ≤ s'.env.par.dCap := by
    rw [← length_data, hdata, hpar]
    omega
  refine ⟨_, exec_dec s', ?_⟩
  rw [decResult_of_ok (by rw [hpwlen, hpar]; exact hpw) hd hdec]
  exact delivers_complete_bytesOut (by rw [length_data]; exact s.opnd.dlen.isLt) s'

end Sys2Proof.Machine

/-! The LSB quantizer family (43_lsb_quantizer.md), its roundings and its command: `RoundInt` and
O44; `Quant` sample by sample, `QNT` and O48. -/

namespace Sys2Proof.Machine

/-! ### `RoundInt` (R179) -/

/-- The three outcomes of `RoundInt`, by twice the remainder against the denominator. -/
theorem roundInt_cases (n : Int) (d : Nat) :
    2 * (n % d) < d ∧ roundInt n d = n / d ∨
    2 * (n % d) > d ∧ roundInt n d = n / d + 1 ∨
    2 * (n % d) = d ∧ roundInt n d % 2 = 0 ∧ (roundInt n d = n / d ∨ roundInt n d = n / d + 1) := by
  simp only [roundInt]
  split_ifs with hlt hgt heven
  · exact .inl ⟨hlt, rfl⟩
  · exact .inr (.inl ⟨hgt, rfl⟩)
  · exact .inr (.inr ⟨by omega, heven, .inl rfl⟩)
  · exact .inr (.inr ⟨by omega, by omega, .inr rfl⟩)

/-- The distance from the floor of `n / d`, and from the integer above it, in units of `1 / d`. -/
theorem sub_ediv_mul (n : Int) (d : Nat) :
    n - n / d * d = n % d ∧ n - (n / d + 1) * d = n % d - d := by
  have h := Int.emod_add_mul_ediv n d
  constructor <;> linarith

/-- Settles O44: the remainder decides which neighbour is nearer, and it is half the denominator at
a tie only. -/
theorem roundIntIsNearestTiesToEven : Obligations.RoundIntIsNearestTiesToEven := by
  intro n d hd
  obtain ⟨hfloor, hceil⟩ := sub_ediv_mul n d
  have hpos : 0 ≤ n % (d : Int) := Int.emod_nonneg _ (by omega)
  have hlt : n % (d : Int) < d := Int.emod_lt_of_pos _ (by omega)
  rcases roundInt_cases n d with ⟨h, hr⟩ | ⟨h, hr⟩ | ⟨h, heven, hr | hr⟩
  case inl =>
    rw [hr, hfloor, abs_of_nonneg hpos]
    exact ⟨by omega, fun _ => by omega⟩
  case inr.inl =>
    rw [hr, hceil, abs_of_neg (by omega)]
    exact ⟨by omega, fun _ => by omega⟩
  case inr.inr.inl =>
    refine ⟨?_, fun _ => heven⟩
    rw [hr, hfloor, abs_of_nonneg hpos]
    omega
  case inr.inr.inr =>
    refine ⟨?_, fun _ => heven⟩
    rw [hr, hceil, abs_of_neg (by omega)]
    omega

/-! ### `Quant1` by its cases (R181) -/

section
variable {f : Flen} {a : Sample} {neg : Bool} {m : Nat} {k : Int}

theorem quant1_of_nan (h : floatOf f a = none) : quant1 f a = .error .nonfinite := by
  simp only [quant1, h]

theorem quant1_of_inf (h : floatOf f a = some (.inf neg)) : quant1 f a = .error .nonfinite := by
  simp only [quant1, h]

theorem quant1_of_prodFloat_inf {neg' : Bool} (h : floatOf f a = some (.fin neg m k))
    (hy : prodFloat f neg m k = .inf neg') : quant1 f a = .error .range := by
  simp only [quant1, h, hy]

theorem quant1_of_prodFloat_fin {neg' : Bool} {m' : Nat} {k' : Int}
    (h : floatOf f a = some (.fin neg m k)) (hy : prodFloat f neg m k = .fin neg' m' k') :
    quant1 f a = if roundFinite neg' m' k' < -32768 ∨ roundFinite neg' m' k' > 32767
      then .error .range else .ok (roundFinite neg' m' k') := by
  simp only [quant1, h, hy]

end

/-! ### `Quant` sample by sample (R183) -/

theorem quantFrom_cons_of_ok {f : Flen} {a : Sample} {q : Int} (h : quant1 f a = .ok q) (i : Nat)
    (as : List Sample) : quantFrom f i (a :: as) = (quantFrom f (i + 1) as).map (q :: ·) := by
  simp only [quantFrom, h]
  cases quantFrom f (i + 1) as <;> rfl

theorem quantFrom_cons_of_error {f : Flen} {a : Sample} {e : QuantFail} (h : quant1 f a = .error e)
    (i : Nat) (as : List Sample) :
    quantFrom f i (a :: as) = .error ⟨.sampleOverflow, i, e.info⟩ := by
  simp only [quantFrom, h]

/-- When every sample quantizes, `Quant` answers the quantized samples. -/
theorem quantFrom_eq_ok {f : Flen} {as : List Sample} {qs : List Int} (i : Nat)
    (hl : qs.length = as.length)
    (h : ∀ k, k < as.length → quant1 f (as.getD k 0) = .ok (qs.getD k 0)) :
    quantFrom f i as = .ok qs := by
  induction as generalizing i qs with
  | nil => rw [List.length_eq_zero_iff.1 hl]; rfl
  | cons a as ih =>
    cases qs with
    | nil => cases hl
    | cons q qs =>
      have htail := ih (i + 1) (Nat.succ.inj hl) fun k hk => h (k + 1) (Nat.succ_lt_succ hk)
      have hhead : quant1 f a = .ok q := h 0 (Nat.succ_pos _)
      rw [quantFrom_cons_of_ok hhead, htail]
      rfl

/-- `Quant` reports the lowest failing sample. -/
theorem quantFrom_eq_error {f : Flen} {as : List Sample} {k : Nat} {e : QuantFail} (i : Nat)
    (hk : k < as.length) (hok : ∀ j, j < k → ∃ q, quant1 f (as.getD j 0) = .ok q)
    (he : quant1 f (as.getD k 0) = .error e) :
    quantFrom f i as = .error ⟨.sampleOverflow, i + k, e.info⟩ := by
  induction as generalizing i k with
  | nil => simp at hk
  | cons a as ih =>
    cases k with
    | zero => exact quantFrom_cons_of_error he i as
    | succ k =>
      obtain ⟨q, hhead⟩ : ∃ q, quant1 f a = .ok q := hok 0 (Nat.succ_pos k)
      have htail := ih (i + 1) (Nat.lt_of_succ_lt_succ hk)
        (fun j hj => hok (j + 1) (Nat.succ_lt_succ hj)) he
      rw [quantFrom_cons_of_ok hhead, htail, Nat.succ_add_eq_add_succ]
      rfl

/-! ### The samples of a state (R183, R255) -/

theorem getD_samples {s : State} {i : Nat} (hi : i < s.sampleCount) :
    s.samples.getD i 0 = Memory.read s.bufs.sin i :=
  (Memory.getD_readRun s.bufs.sin s.sampleCount i).trans (if_pos hi)

theorem checkSamples_of_gt {s : State} (h : s.sampleCount > s.env.par.sCap) :
    s.checkSamples = .error ⟨.operandRange, 3, min s.sampleCount (2 ^ 32 - 1)⟩ := if_pos h

theorem quantized_of_gt {s : State} (h : s.sampleCount > s.env.par.sCap) :
    s.quantized = .error ⟨.operandRange, 3, min s.sampleCount (2 ^ 32 - 1)⟩ := by
  rw [State.quantized, checkSamples_of_gt h, except_error_bind]

theorem quantized_of_le {s : State} (h : s.sampleCount ≤ s.env.par.sCap) :
    s.quantized = quantFrom s.env.par.flen 0 s.samples := by
  rw [State.quantized, checkSamples_eq_ok (u := ()).2 h, except_ok_bind, quant]

theorem quantized_of_quantizesTo {s : State} {qs : List Int} (h : s.QuantizesTo qs) :
    s.quantized = .ok qs := by
  obtain ⟨hle, hl, hq⟩ := h
  rw [quantized_of_le hle]
  refine quantFrom_eq_ok 0 (by rw [hl, length_samples]) fun k hk => ?_
  rw [length_samples] at hk
  rw [getD_samples hk]
  exact hq k hk

theorem quantized_of_sampleFailsAt {s : State} {i0 : Nat} {e : QuantFail}
    (h : s.SampleFailsAt i0 e) : s.quantized = .error ⟨.sampleOverflow, i0, overflowInfo e⟩ := by
  obtain ⟨hle, hi, hok, he⟩ := h
  have hinfo : e.info = overflowInfo e := by cases e <;> rfl
  rw [quantized_of_le hle, ← hinfo, ← Nat.zero_add i0]
  refine quantFrom_eq_error 0 (by rwa [length_samples]) (fun j hj => ?_) ?_
  · rw [getD_samples (hj.trans hi)]
    exact hok j hj
  · rw [getD_samples hi]
    exact he

/-- A completion that reports too many samples: the context number is saturated twice over. -/
theorem failedWith_complete_sampleRange (s : State) :
    (s.complete (.error ⟨.operandRange, 3, min s.sampleCount (2 ^ 32 - 1)⟩)).FailedWith 9 3
      s.sampleCount := by
  have h := failedWith_complete_error ⟨.operandRange, 3, min s.sampleCount (2 ^ 32 - 1)⟩ s
  unfold State.FailedWith at h ⊢
  rwa [min_assoc, min_self] at h

/-- The samples that fit `SIN` are counted by a result register, with room to spare (R10). -/
theorem sCap_lt {p : Params} (h : p.ok = true) : p.sCap < 2 ^ 31 := by
  have hd := dCap_lt h
  simp only [Params.ok, Params.sCapOk, Bool.and_eq_true, decide_eq_true_eq] at h
  omega

/-! ### `QNT` (R188) -/

theorem exec_qnt (s : State) : exec .qnt s = .next (s.complete (qntResult s)) := rfl

/-- The outputs of a `QNT` that succeeds. -/
def qntOut (qs : List Int) : Outputs :=
  { Outputs.zero with
    ons := BitVec.ofNat 32 qs.length
    qout := Memory.writeRun Memory.cleared 0 (qs.map u16) }

theorem qntResult_of_ok {s : State} {qs : List Int} (h : s.quantized = .ok qs) :
    qntResult s = .ok (qntOut qs) := by
  rw [qntResult, h, except_ok_bind]
  rfl

theorem qntResult_of_error {s : State} {e : CmdErr} (h : s.quantized = .error e) :
    qntResult s = .error e := by
  rw [qntResult, h, except_error_bind]

theorem read_qntOut_qout (qs : List Int) (i : Nat) :
    Memory.read (qntOut qs).qout i =
      if i < qs.length then BitVec.ofInt 16 (qs.getD i 0) else 0 := by
  rw [qntOut, Memory.read_writeRun_cleared]
  split_ifs with hi
  · rw [List.getD_eq_getElem _ _ (by simpa using hi), List.getD_eq_getElem _ _ hi,
      List.getElem_map, u16]
  · rw [List.getD_eq_default _ _ (by simpa using hi)]
    rfl

/-- Settles O48: the samples that do not fit, that fail and that quantize; and `Quant1` by its
cases. -/
theorem qntCommand : Obligations.QntCommand := by
  refine ⟨rfl, fun s hp => ⟨fun h => ?count, fun i0 e h => ?sample, fun qs h => ?quantized⟩,
    fun f a => ⟨quant1_of_nan, fun neg => quant1_of_inf, ?_⟩⟩
  case count =>
    refine ⟨_, exec_qnt s, ?_, untouched_complete _ s, noDraw_complete _ s⟩
    rw [qntResult_of_error (quantized_of_gt h)]
    exact failedWith_complete_sampleRange s
  case sample =>
    refine ⟨_, exec_qnt s, ?_, untouched_complete _ s, noDraw_complete _ s⟩
    rw [qntResult_of_error (quantized_of_sampleFailsAt h)]
    exact failedWith_complete_error _ s
  case quantized =>
    have hres := qntResult_of_ok (quantized_of_quantizesTo h)
    obtain ⟨hle, hl, -⟩ := h
    have hcap := sCap_lt hp
    refine ⟨s.complete (.ok (qntOut qs)), hres ▸ exec_qnt s, succeeded_complete_ok _ s, ?_, ?_,
      rfl, rfl, rfl, rfl, ⟨rfl, rfl⟩, allZero_cleared, allZero_cleared, untouched_complete _ s,
      noDraw_complete _ s⟩
    · rw [← hl]
      exact (BitVec.toNat_ofNat _ _).trans (Nat.mod_eq_of_lt (by omega))
    · rw [← hl]
      exact read_qntOut_qout qs
  · rintro neg m k h y rfl
    refine ⟨fun neg' hy => quant1_of_prodFloat_inf h hy, ?_⟩
    rintro neg' m' k' hy r rfl
    have hq := quant1_of_prodFloat_fin h hy
    exact ⟨fun hout => hq.trans (if_pos hout), fun h1 h2 => hq.trans (if_neg (by
      unfold roundFinite; omega))⟩

end Sys2Proof.Machine

/-! The LSB quantizer family (43_lsb_quantizer.md), its inversion (R187): `RoundF` in the normal range
by its relative error, the pattern of a normal number, and O47. -/

namespace Sys2Proof.Machine

/-! ### `RoundInt` as a distance -/

theorem abs_roundInt_sub_le (n : Int) {d : Nat} (hd : 0 < d) :
    |(roundInt n d : ℚ) - n / d| ≤ 1 / 2 := by
  have hd' : (0 : ℚ) < d := by exact_mod_cast hd
  have hnear := (roundIntIsNearestTiesToEven n d hd).1
  have hnear' : 2 * |(n : ℚ) - roundInt n d * d| ≤ d := by exact_mod_cast hnear
  have hdist : (roundInt n d : ℚ) - n / d = -((n - roundInt n d * d) / d) := by field_simp; ring
  rw [hdist, abs_neg, abs_div, abs_of_pos hd', div_le_iff₀ hd']
  linarith

/-- The integer nearer than a half is the one `RoundInt` gives. -/
theorem roundInt_eq_of_abs_lt {n q : Int} {d : Nat} (hd : 0 < d)
    (h : |(n : ℚ) / d - q| < 1 / 2) : roundInt n d = q := by
  have hdist : |(roundInt n d : ℚ) - q| < 1 :=
    calc |(roundInt n d : ℚ) - q| ≤ |(roundInt n d : ℚ) - n / d| + |(n : ℚ) / d - q| :=
          abs_sub_le _ _ _
      _ < 1 := by linarith [abs_roundInt_sub_le n hd]
  have hdist' : |roundInt n d - q| < 1 := by exact_mod_cast hdist
  rw [Int.abs_lt_one_iff] at hdist'
  omega

/-! ### Powers of two -/

/-- A scaling by `2^k` is written as a fraction of natural numbers. -/
theorem mul_two_pow_div (a b : ℚ) (k : Int) :
    a * 2 ^ k.toNat / (b * 2 ^ (-k).toNat) = a / b * (2 : ℚ) ^ k := by
  obtain ⟨n, rfl | rfl⟩ := k.eq_nat_or_neg
  · simp [mul_div_right_comm]
  · simp only [neg_neg, Int.toNat_natCast, Int.toNat_neg_natCast, pow_zero, mul_one, zpow_neg,
      zpow_natCast, div_mul_eq_div_div, div_eq_mul_inv (a / b)]

theorem two_pow_log2_le {n : Nat} (hn : 0 < n) : (2 : ℚ) ^ (n.log2 : Int) ≤ n := by
  rw [zpow_natCast]
  exact_mod_cast Nat.log2_self_le hn.ne'

theorem lt_two_pow_log2 (n : Nat) : (n : ℚ) < 2 ^ ((n.log2 : Int) + 1) := by
  have h : ((n.log2 : Int) + 1) = ((n.log2 + 1 : Nat) : Int) := rfl
  rw [h, zpow_natCast]
  exact_mod_cast Nat.lt_log2_self

theorem floorLog2_bounds {n d : Nat} (hn : 0 < n) (hd : 0 < d) :
    (2 : ℚ) ^ floorLog2 n d ≤ n / d ∧ (n : ℚ) / d < 2 ^ (floorLog2 n d + 1) := by
  have hd' : (0 : ℚ) < d := by exact_mod_cast hd
  have two_ne : (2 : ℚ) ≠ 0 := two_ne_zero
  generalize hk : (n.log2 : Int) - d.log2 = k
  have hlow : (2 : ℚ) ^ (k - 1) ≤ n / d := by
    rw [le_div_iff₀ hd']
    calc (2 : ℚ) ^ (k - 1) * d ≤ 2 ^ (k - 1) * 2 ^ ((d.log2 : Int) + 1) := by
          gcongr; exact (lt_two_pow_log2 d).le
      _ = 2 ^ (n.log2 : Int) := by rw [← zpow_add₀ two_ne]; congr 1; omega
      _ ≤ n := two_pow_log2_le hn
  have hhigh : (n : ℚ) / d < 2 ^ (k + 1) := by
    rw [div_lt_iff₀ hd']
    calc (n : ℚ) < 2 ^ ((n.log2 : Int) + 1) := lt_two_pow_log2 n
      _ = 2 ^ (k + 1) * 2 ^ (d.log2 : Int) := by rw [← zpow_add₀ two_ne]; congr 1; omega
      _ ≤ 2 ^ (k + 1) * d := by gcongr; exact two_pow_log2_le hd
  have htest : d * 2 ^ k.toNat ≤ n * 2 ^ (-k).toNat ↔ (2 : ℚ) ^ k ≤ n / d := by
    have hscale : (d : ℚ) * 2 ^ k.toNat / 2 ^ (-k).toNat = d * 2 ^ k := by
      simpa using mul_two_pow_div d 1 k
    rw [le_div_iff₀ hd', mul_comm _ (d : ℚ), ← hscale, div_le_iff₀ (by positivity)]
    exact_mod_cast Iff.rfl
  simp only [floorLog2, hk]
  split_ifs with h
  · exact ⟨htest.1 h, hhigh⟩
  · rw [sub_add_cancel]
    exact ⟨hlow, not_le.1 (mt htest.2 h)⟩

/-! ### Normal numbers (R176, R177) -/

/-- `m * 2^k` is a normal number of the format: a full significand, and an exponent in its range. -/
structure NormalNumber (f : Flen) (m : Nat) (k : Int) : Prop where
  low : 2 ^ (precision f - 1) ≤ m
  high : m < 2 ^ precision f
  expLow : 1 - (expBias f : Int) - (precision f - 1) ≤ k
  expHigh : k ≤ (expBias f : Int) - (precision f - 1)

theorem two_pow_precision (f : Flen) : 2 ^ precision f = 2 * 2 ^ (precision f - 1) := by
  cases f <;> rfl

theorem two_pow_lt (f : Flen) : 2 ^ (precision f - 1) < 2 ^ precision f := by
  cases f <;> decide

/-- Fraction, exponent field and sign fill the bits of the format. -/
theorem bits_eq (f : Flen) : f.bits = precision f - 1 + expWidth f + 1 := by cases f <;> rfl

/-- The exponent fields of normal numbers are all but the first and the last. -/
theorem two_pow_expWidth (f : Flen) : 2 ^ expWidth f = 2 * expBias f + 2 := by cases f <;> rfl

/-- The value of a pattern by its fields: sign, exponent field of a normal number, fraction. -/
theorem floatOf_of_fields {f : Flen} {a : Sample} {neg : Bool} {e fr : Nat}
    (ha : a.toNat = (neg.toNat * 2 ^ expWidth f + e) * 2 ^ (precision f - 1) + fr)
    (h1 : 1 ≤ e) (he : e ≤ 2 * expBias f) (hfr : fr < 2 ^ (precision f - 1)) :
    floatOf f a = some (.fin neg (2 ^ (precision f - 1) + fr)
      (e - expBias f - (precision f - 1))) := by
  have hw := two_pow_expWidth f
  obtain ⟨hupper, hfrac⟩ := (Nat.div_mod_unique (Nat.two_pow_pos (precision f - 1))).2
    ⟨show fr + 2 ^ (precision f - 1) * (neg.toNat * 2 ^ expWidth f + e) = a.toNat by rw [ha]; ring,
      hfr⟩
  obtain ⟨hneg, hexp⟩ := (Nat.div_mod_unique (Nat.two_pow_pos (expWidth f))).2
    ⟨show e + 2 ^ expWidth f * neg.toNat = a.toNat / 2 ^ (precision f - 1) by rw [hupper]; ring,
      by omega⟩
  have hsign : a.getLsbD (f.bits - 1) = neg := by
    rw [BitVec.getLsbD, Nat.testBit_eq_decide_div_mod_eq, bits_eq, Nat.add_sub_cancel, Nat.pow_add,
      ← Nat.div_div_eq_div_mul, hneg]
    cases neg <;> rfl
  have htop : e ≠ 2 ^ expWidth f - 1 := by omega
  simp only [floatOf, hsign, hexp, hfrac, if_neg htop, if_neg (Nat.one_le_iff_ne_zero.1 h1)]

section
variable {f : Flen} {m : Nat} {k : Int} (h : NormalNumber f m k) (neg : Bool)
include h

/-- The pattern made for a normal number, by its fields. -/
theorem patternNat_of_normal :
    patternNat f (.fin neg m k) =
      (neg.toNat * 2 ^ expWidth f + (k + expBias f + (precision f - 1)).toNat) *
        2 ^ (precision f - 1) + (m - 2 ^ (precision f - 1)) := by
  simp only [patternNat, if_neg (not_lt.2 h.low), bits_eq, Nat.add_sub_cancel, Nat.add_mul,
    Nat.pow_add]
  cases neg <;> simp [Nat.mul_comm]

theorem patternNat_lt_of_normal : patternNat f (.fin neg m k) < 2 ^ f.bits := by
  rw [patternNat_of_normal h]
  obtain ⟨hlow, hhigh, hexpLow, hexpHigh⟩ := h
  generalize he : (k + expBias f + (precision f - 1)).toNat = e
  have hfrac : m - 2 ^ (precision f - 1) < 2 ^ (precision f - 1) := by
    have := two_pow_precision f
    omega
  have hupper : neg.toNat * 2 ^ expWidth f + e + 1 ≤ 2 * 2 ^ expWidth f := by
    have hsign := Nat.mul_le_mul_right (2 ^ expWidth f) (Bool.toNat_le neg)
    have hw := two_pow_expWidth f
    omega
  calc (neg.toNat * 2 ^ expWidth f + e) * 2 ^ (precision f - 1) + (m - 2 ^ (precision f - 1))
      < (neg.toNat * 2 ^ expWidth f + e + 1) * 2 ^ (precision f - 1) := by
        rw [Nat.succ_mul]
        exact Nat.add_lt_add_left hfrac _
    _ ≤ 2 * 2 ^ expWidth f * 2 ^ (precision f - 1) := Nat.mul_le_mul_right _ hupper
    _ = 2 ^ f.bits := by rw [bits_eq]; ring

/-- The pattern of a normal number has it as its value. -/
theorem floatOf_patternOf_of_normal :
    floatOf f (patternOf f (.fin neg m k)) = some (.fin neg m k) := by
  have hbits : 2 ^ f.bits ≤ 2 ^ 64 := by cases f <;> decide
  have hlt := patternNat_lt_of_normal h neg
  have hfields : (patternOf f (.fin neg m k)).toNat = patternNat f (.fin neg m k) := by
    rw [patternOf, BitVec.toNat_ofNat, Nat.mod_eq_of_lt hlt, Nat.mod_eq_of_lt (hlt.trans_le hbits)]
  rw [patternNat_of_normal h] at hfields
  obtain ⟨hlow, hhigh, hexpLow, hexpHigh⟩ := h
  have hp := two_pow_precision f
  rw [floatOf_of_fields hfields (by omega) (by omega) (by omega), Nat.add_sub_of_le hlow]
  have hk : ((k + expBias f + (precision f - 1)).toNat : Int) - expBias f - (precision f - 1) =
      k := by omega
  rw [hk]

end

/-! ### `RoundF` in the normal range (R178) -/

/-- The exponent of the last place of a `p`-digit significand whose first place has exponent `e`. -/
def lastPlace (f : Flen) (e : Int) : Int := e - (precision f - 1)

theorem normalNumber_lastPlace {f : Flen} {m : Nat} {e : Int} (hlow : 2 ^ (precision f - 1) ≤ m)
    (hhigh : m < 2 ^ precision f) (helow : 1 - (expBias f : Int) ≤ e) (hehigh : e ≤ expBias f) :
    NormalNumber f m (lastPlace f e) :=
  ⟨hlow, hhigh, sub_le_sub_right helow _, sub_le_sub_right hehigh _⟩

theorem lastPlace_add_one (f : Flen) (e : Int) : lastPlace f (e + 1) = lastPlace f e + 1 :=
  add_sub_right_comm _ _ _

theorem add_neg_lastPlace (f : Flen) (e : Int) :
    e + -lastPlace f e = ((precision f - 1 : Nat) : Int) := by
  rw [lastPlace]
  cases f <;> simp only [precision] <;> omega

/-- `RoundF` where the exponent `e` of the value is one of normal numbers: the significand is
rounded, and a carry out of it goes into the exponent. -/
theorem roundFloat_of_floorLog2 {f : Flen} {num den r : Nat} {e : Int} (hnum : 0 < num)
    (he : floorLog2 num den = e) (hlow : 1 - (expBias f : Int) ≤ e) (hhigh : e < expBias f)
    (hr : roundInt (num * 2 ^ (-lastPlace f e).toNat : Nat)
      (den * 2 ^ (lastPlace f e).toNat) = r) (neg : Bool) :
    roundFloat f neg num den =
      if r = 2 ^ precision f then .fin neg (2 ^ (precision f - 1)) (lastPlace f (e + 1))
      else .fin neg r (lastPlace f e) := by
  simp only [lastPlace] at hr ⊢
  simp only [roundFloat, if_neg hnum.ne', he, max_eq_left hlow, hr, Int.toNat_natCast]
  split_ifs with hcarry
  · omega
  · rfl
  · omega
  · rfl

/-- A value scaled by its own exponent: `p` digits stand before the binary point. -/
theorem scaled_bounds (f : Flen) {x : ℚ} {e : Int} (hlow : (2 : ℚ) ^ e ≤ x)
    (hhigh : x < 2 ^ (e + 1)) :
    (2 : ℚ) ^ (precision f - 1) ≤ x * 2 ^ (-lastPlace f e) ∧
      x * 2 ^ (-lastPlace f e) < (2 : ℚ) ^ precision f := by
  have two_ne : (2 : ℚ) ≠ 0 := two_ne_zero
  constructor
  · calc (2 : ℚ) ^ (precision f - 1) = 2 ^ e * 2 ^ (-lastPlace f e) := by
          rw [← zpow_natCast, ← zpow_add₀ two_ne, add_neg_lastPlace]
      _ ≤ x * 2 ^ (-lastPlace f e) := by gcongr
  · calc x * 2 ^ (-lastPlace f e) < 2 ^ (e + 1) * 2 ^ (-lastPlace f e) := by gcongr
      _ = (2 : ℚ) ^ precision f := by
          rw [← zpow_natCast, ← zpow_add₀ two_ne, lastPlace]; congr 1; omega

/-- The integer nearest to a number between two natural numbers is one between them. -/
theorem nearest_between {r : Int} {u : ℚ} {a b : Nat} (ha : (a : ℚ) ≤ u) (hb : u < b)
    (hr : |(r : ℚ) - u| ≤ 1 / 2) : ∃ s : Nat, r = s ∧ a ≤ s ∧ s ≤ b := by
  obtain ⟨hr1, hr2⟩ := abs_le.1 hr
  have hra : ((a : Int) : ℚ) < ((r + 1 : Int) : ℚ) := by push_cast; linarith
  have hrb : (r : ℚ) < ((b + 1 : Int) : ℚ) := by push_cast; linarith
  have hra' := Int.cast_lt.1 hra
  have hrb' := Int.cast_lt.1 hrb
  exact ⟨r.toNat, by omega, by omega, by omega⟩

/-- Half a unit of a `p`-digit significand, in proportion to the value. -/
theorem abs_sub_le_of_scaled {f : Flen} {x r : ℚ} {e : Int} (hx : (2 : ℚ) ^ e ≤ x)
    (hr : |r - x * 2 ^ (-lastPlace f e)| ≤ 1 / 2) :
    |r * 2 ^ lastPlace f e - x| ≤ x / 2 ^ precision f := by
  have hpow : (2 : ℚ) ^ (lastPlace f e) = 2 * (2 ^ e / 2 ^ precision f) := by
    rw [lastPlace, sub_sub_eq_add_sub, add_sub_right_comm, zpow_add_one₀ two_ne_zero,
      zpow_sub₀ two_ne_zero, zpow_natCast, mul_comm]
  have hpos : (0 : ℚ) < 2 ^ lastPlace f e := by positivity
  calc |r * 2 ^ lastPlace f e - x|
      = |r - x * 2 ^ (-lastPlace f e)| * 2 ^ lastPlace f e := by
        rw [← abs_of_pos hpos, ← abs_mul, abs_of_pos hpos, sub_mul, mul_assoc, zpow_neg,
          inv_mul_cancel₀ hpos.ne', mul_one]
    _ ≤ 1 / 2 * 2 ^ lastPlace f e := by gcongr
    _ = 2 ^ e / 2 ^ precision f := by rw [hpow]; ring
    _ ≤ x / 2 ^ precision f := by gcongr

/-- In the range of normal numbers `RoundF` gives one, within `2^-p` of the value in proportion
to it. -/
theorem roundFloat_normal {f : Flen} {num den : Nat} (hnum : 0 < num) (hden : 0 < den)
    (hlow : (2 : ℚ) ^ (1 - (expBias f : Int)) ≤ num / den)
    (hhigh : (num : ℚ) / den < 2 ^ (expBias f : Int)) (neg : Bool) :
    ∃ m k, roundFloat f neg num den = .fin neg m k ∧ NormalNumber f m k ∧
      |(m : ℚ) * 2 ^ k - num / den| ≤ num / den / 2 ^ precision f := by
  obtain ⟨hxlow, hxhigh⟩ := floorLog2_bounds hnum hden
  generalize he : floorLog2 num den = e at hxlow hxhigh
  generalize hx : (num : ℚ) / den = x at hlow hhigh hxlow hxhigh ⊢
  have helow : 1 - (expBias f : Int) < e + 1 :=
    (zpow_lt_zpow_iff_right₀ one_lt_two).1 (hlow.trans_lt hxhigh)
  have hehigh : e < expBias f := (zpow_lt_zpow_iff_right₀ one_lt_two).1 (hxlow.trans_lt hhigh)
  obtain ⟨hulow, huhigh⟩ := scaled_bounds f hxlow hxhigh
  have hnear := abs_roundInt_sub_le (num * 2 ^ (-lastPlace f e).toNat : Nat)
    (show 0 < den * 2 ^ (lastPlace f e).toNat by positivity)
  have hscaled := mul_two_pow_div num den (-lastPlace f e)
  rw [neg_neg, hx] at hscaled
  push_cast at hnear
  rw [hscaled] at hnear
  obtain ⟨r, hr, hrlow, hrhigh⟩ :=
    nearest_between (by exact_mod_cast hulow) (by exact_mod_cast huhigh) hnear
  rw [hr, Int.cast_natCast] at hnear
  have herr := abs_sub_le_of_scaled hxlow hnear
  have hfloat := roundFloat_of_floorLog2 hnum he (by omega) hehigh (by exact_mod_cast hr) neg
  split_ifs at hfloat with hcarry
  · refine ⟨_, _, hfloat, normalNumber_lastPlace le_rfl (two_pow_lt f) (by omega) (by omega), ?_⟩
    have hvalue : ((2 ^ (precision f - 1) : Nat) : ℚ) * 2 ^ (lastPlace f (e + 1)) =
        r * 2 ^ lastPlace f e := by
      rw [hcarry, two_pow_precision, lastPlace_add_one, zpow_add_one₀ two_ne_zero]
      push_cast
      ring
    rwa [hvalue]
  · exact ⟨_, _, hfloat, normalNumber_lastPlace hrlow (by omega) (by omega) (by omega), herr⟩

/-! ### Quantizing what dequantization gives (R187) -/

/-- Rounding where int16 values and their 32767ths lie: a normal number, within `2^-24` of the value
in proportion to it, in both formats. -/
theorem roundFloat_near {f : Flen} {num den : Nat} {x : ℚ} (hx : (num : ℚ) / den = x)
    (hden : 0 < den) (hlow : 1 / 32768 ≤ x) (hhigh : x < 65536) (neg : Bool) :
    ∃ m k, roundFloat f neg num den = .fin neg m k ∧ NormalNumber f m k ∧
      |(m : ℚ) * 2 ^ k - x| ≤ x / 2 ^ 24 := by
  subst hx
  have hnum : 0 < num := by
    rcases Nat.eq_zero_or_pos num with rfl | h
    · norm_num at hlow
    · exact h
  have hmin : (2 : ℚ) ^ (1 - (expBias f : Int)) ≤ 2 ^ (-15 : Int) :=
    zpow_le_zpow_right₀ one_le_two (by cases f <;> decide)
  have hmax : (2 : ℚ) ^ (16 : Int) ≤ 2 ^ (expBias f : Int) :=
    zpow_le_zpow_right₀ one_le_two (by cases f <;> decide)
  have hprec : (2 : ℚ) ^ 24 ≤ 2 ^ precision f :=
    pow_le_pow_right₀ one_le_two (by cases f <;> decide)
  obtain ⟨m, k, hfloat, hnormal, herr⟩ := roundFloat_normal hnum hden
    (hmin.trans (le_trans (by norm_num) hlow)) (hhigh.trans_le (le_trans (by norm_num) hmax)) neg
  exact ⟨m, k, hfloat, hnormal, herr.trans (by gcongr)⟩

/-- `RoundInt` of a finite number is the integer it is nearer to than a half. -/
theorem roundFinite_eq_of_abs_lt {m n : Nat} {k : Int} (neg : Bool)
    (h : |(m : ℚ) * 2 ^ k - n| < 1 / 2) :
    roundFinite neg m k = (if neg then -1 else 1) * (n : Int) := by
  refine roundInt_eq_of_abs_lt (by positivity) ?_
  have hvalue : (m : ℚ) * 2 ^ k.toNat / 2 ^ (-k).toNat = m * 2 ^ k := by
    simpa using mul_two_pow_div m 1 k
  push_cast
  rw [mul_div_assoc, hvalue, ← mul_sub, abs_mul]
  cases neg <;> simpa using h

theorem sign_mul_natAbs (q : Int) : (if decide (q < 0) then -1 else 1) * (q.natAbs : Int) = q := by
  simp only [decide_eq_true_eq]
  split_ifs <;> omega

/-- A product with 32767 near a positive int16 magnitude rounds near it again. -/
theorem prodFloat_near {f : Flen} {m n : Nat} {k : Int} (h1 : 1 ≤ n) (hn : n ≤ 32768)
    (h : |(m : ℚ) * 2 ^ k - n / 32767| ≤ n / 32767 / 2 ^ 24) (neg : Bool) :
    ∃ m' k', prodFloat f neg m k = .fin neg m' k' ∧ |(m' : ℚ) * 2 ^ k' - n| < 1 / 2 := by
  have h1' : (1 : ℚ) ≤ n := by exact_mod_cast h1
  have hn' : (n : ℚ) ≤ 32768 := by exact_mod_cast hn
  obtain ⟨hlow, hhigh⟩ := abs_le.1 h
  have hvalue : ((m * 32767 * 2 ^ k.toNat : Nat) : ℚ) / (2 ^ (-k).toNat : Nat) =
      32767 * (m * 2 ^ k) := by
    have := mul_two_pow_div (m * 32767) 1 k
    rw [one_mul, div_one] at this
    push_cast
    rw [this]
    ring
  obtain ⟨m', k', hfloat, -, herr⟩ :=
    roundFloat_near (f := f) hvalue (by positivity) (by linarith) (by linarith) neg
  obtain ⟨hlow', hhigh'⟩ := abs_le.1 herr
  exact ⟨m', k', hfloat, abs_lt.2 ⟨by linarith, by linarith⟩⟩

/-- The two roundings, of `q / 32767` and of its product with 32767, stay nearer to `q` than a
half. -/
theorem quant1_dequant1_of_ne_zero (f : Flen) {q : Int} (h0 : q ≠ 0) (hlow : -32768 ≤ q)
    (hhigh : q ≤ 32767) : quant1 f (dequant1 f q) = .ok q := by
  have h1 : (1 : ℚ) ≤ q.natAbs := by exact_mod_cast (by omega : 1 ≤ q.natAbs)
  have hn : (q.natAbs : ℚ) ≤ 32768 := by exact_mod_cast (by omega : q.natAbs ≤ 32768)
  obtain ⟨m, k, hfloat, hnormal, herr⟩ := roundFloat_near (f := f)
    (show (q.natAbs : ℚ) / (32767 : Nat) = q.natAbs / 32767 by norm_num) (by decide)
    (by linarith) (by linarith) (decide (q < 0))
  obtain ⟨m', k', hprod, hnear⟩ :=
    prodFloat_near (f := f) (by omega) (by omega) herr (decide (q < 0))
  have hsample : floatOf f (dequant1 f q) = some (.fin (decide (q < 0)) m k) := by
    rw [dequant1, hfloat]
    exact floatOf_patternOf_of_normal hnormal _
  rw [quant1_of_prodFloat_fin hsample hprod, roundFinite_eq_of_abs_lt _ hnear, sign_mul_natAbs,
    if_neg (by omega)]

theorem quant1_dequant1_zero (f : Flen) : quant1 f (dequant1 f 0) = .ok 0 := by
  cases f <;> decide +kernel

/-- Settles O47: both roundings are near enough, and 0 is exact. -/
theorem quantInvertsDequant : Obligations.QuantInvertsDequant := by
  intro f q hlow hhigh
  rcases eq_or_ne q 0 with rfl | h0
  · exact quant1_dequant1_zero f
  · exact quant1_dequant1_of_ne_zero f h0 hlow hhigh

end Sys2Proof.Machine

/-! The LSB codec family (44_lsb_codec.md), its bits: `SetLsb` and `GetLsb` on the pattern and O53; the
serializer and the deserializer bit by bit; what embedding sets in each sample. -/

namespace Sys2Proof.Machine

/-! ### `SetLsb` and `GetLsb` (R200, R201, R202) -/

/-- Bits 15:1 of the pattern of `q`, which `SetLsb` keeps. -/
def upperBits (q : Int) : BitVec 15 := (u16 q).extractLsb' 1 15

/-- A pattern with its lowest bit replaced, bit by bit. -/
theorem getLsbD_extractLsb'_append_ofBool (x : BitVec 16) (b : Bool) (i : Nat) :
    (x.extractLsb' 1 15 ++ BitVec.ofBool b).getLsbD i = if i = 0 then b else x.getLsbD i := by
  rw [BitVec.getLsbD_append]
  rcases i with _ | i
  · simp
  · by_cases hi : i < 15
    · simp [hi, Nat.add_comm]
    · simp [hi, BitVec.getLsbD_of_ge x (i + 1) (by omega)]

/-- A pattern is its upper bits above its lowest one. -/
theorem extractLsb'_append_getLsbD (x : BitVec 16) :
    x.extractLsb' 1 15 ++ BitVec.ofBool (x.getLsbD 0) = x := by
  apply BitVec.eq_of_getLsbD_eq
  intro i hi
  rw [getLsbD_extractLsb'_append_ofBool]
  split_ifs with h
  · rw [h]
  · rfl

/-- The masking of R200 replaces the lowest bit. -/
theorem and_or_ofBool_eq_append (x : BitVec 16) (b : Bool) :
    (x &&& 0xfffe#16) ||| (BitVec.ofBool b).setWidth 16 =
      x.extractLsb' 1 15 ++ BitVec.ofBool b := by
  apply BitVec.eq_of_getLsbD_eq
  intro i hi
  rw [getLsbD_extractLsb'_append_ofBool]
  interval_cases i <;> simp

theorem setLsb_eq_append (q : Int) (b : Bool) :
    setLsb q b = (upperBits q ++ BitVec.ofBool b).toInt := by
  rw [setLsb, and_or_ofBool_eq_append, upperBits]

theorem u16_setLsb (q : Int) (b : Bool) : u16 (setLsb q b) = upperBits q ++ BitVec.ofBool b := by
  rw [setLsb_eq_append, u16, BitVec.ofInt_toInt]

theorem upperBits_setLsb (q : Int) (b : Bool) : upperBits (setLsb q b) = upperBits q := by
  rw [upperBits, u16_setLsb, BitVec.extractLsb'_append_eq_left]

@[simp] theorem getLsb_setLsb (q : Int) (b : Bool) : getLsb (setLsb q b) = b := by
  rw [getLsb, u16_setLsb, upperBits, getLsbD_extractLsb'_append_ofBool, if_pos rfl]

theorem toInt_append_ofBool (x : BitVec 15) (b : Bool) :
    (x ++ BitVec.ofBool b).toInt = 2 * x.toInt + if b then 1 else 0 := by
  rw [BitVec.toInt_append]
  cases b <;> rfl

theorem toInt_u16 {q : Int} (hlow : -32768 ≤ q) (hhigh : q ≤ 32767) : (u16 q).toInt = q := by
  rw [u16, BitVec.toInt_ofInt, Int.bmod_eq_of_le] <;> omega

theorem setLsb_eq (q : Int) (b : Bool) :
    setLsb q b = 2 * (upperBits q).toInt + if b then 1 else 0 := by
  rw [setLsb_eq_append, toInt_append_ofBool]

/-- An int16 value is twice what its upper bits say, and its LSB. -/
theorem eq_upperBits_getLsb {q : Int} (hlow : -32768 ≤ q) (hhigh : q ≤ 32767) :
    q = 2 * (upperBits q).toInt + if getLsb q then 1 else 0 := by
  rw [← toInt_append_ofBool, upperBits, getLsb, extractLsb'_append_getLsbD, toInt_u16 hlow hhigh]

theorem setLsb_range (q : Int) (b : Bool) : -32768 ≤ setLsb q b ∧ setLsb q b ≤ 32767 := by
  have hlow := BitVec.le_toInt (upperBits q)
  have hhigh := BitVec.toInt_lt (x := upperBits q)
  rw [setLsb_eq]
  split_ifs <;> omega

/-- Settles O53: `q` and `SetLsb(q, b)` are the same upper bits with two lowest bits. -/
theorem setLsbChangesBitZeroOnly : Obligations.SetLsbChangesBitZeroOnly := by
  intro q b hlow hhigh
  have hq := eq_upperBits_getLsb hlow hhigh
  have hset := setLsb_eq q b
  obtain ⟨hlow', hhigh'⟩ := setLsb_range q b
  refine ⟨?_, hlow', hhigh', upperBits_setLsb q b, getLsb_setLsb q b, ?_⟩
  · split_ifs at hq hset ⊢ <;> omega
  · split_ifs at hq with h
    · exact iff_of_true h (by omega)
    · exact iff_of_false h (by omega)

/-! ### The bits of a buffer (R196) -/

theorem bufferBit_writeRun_cleared (bs : List Byte) (i : Nat) :
    bufferBit (Memory.writeRun Memory.cleared 0 bs) i = bitOf bs i := by
  rw [bufferBit, Memory.read_writeRun_cleared]
  rfl

theorem bitOf_readRun (m : Memory 8) {n i : Nat} (h : i / 8 < n) :
    bitOf (Memory.readRun m 0 n) i = bufferBit m i := by
  have hread : (Memory.readRun m 0 n).getD (i / 8) 0 = Memory.read m (i / 8) :=
    (Memory.getD_readRun m n (i / 8)).trans (if_pos h)
  exact congrArg (fun v : Byte => v.getLsbD (7 - i % 8)) hread

theorem getD_bitsOf (b : List Byte) {n i : Nat} (h : i < n) :
    (bitsOf b n).getD i false = bitOf b i := by
  rw [List.getD_eq_getElem _ _ (by simpa using h)]
  simp [bitsOf]

/-! ### Packing bits into bytes (R197, R199) -/

theorem getLsbD_byteOfBits : ∀ b0 b1 b2 b3 b4 b5 b6 b7 : Bool, ∀ k < 8,
    (byteOfBits b0 b1 b2 b3 b4 b5 b6 b7).getLsbD (7 - k) =
      [b0, b1, b2, b3, b4, b5, b6, b7].getD k false := by decide

theorem bitOf_nil (i : Nat) : bitOf [] i = false := by simp [bitOf]

theorem bitOf_cons_of_lt (v : Byte) (vs : List Byte) {i : Nat} (h : i < 8) :
    bitOf (v :: vs) i = v.getLsbD (7 - i) := by
  rw [bitOf, Nat.div_eq_of_lt h, Nat.mod_eq_of_lt h]
  rfl

theorem bitOf_cons_add_eight (v : Byte) (vs : List Byte) (i : Nat) :
    bitOf (v :: vs) (i + 8) = bitOf vs i := by
  rw [bitOf, Nat.add_div_right _ (by decide), Nat.add_mod_right]
  rfl

/-- The bytes of whole groups of eight bits hold those bits in order. -/
theorem bitOf_bytesOf {b : List Bool} (h : b.length % 8 = 0) (i : Nat) :
    bitOf (bytesOf b) i = b.getD i false := by
  fun_induction bytesOf b generalizing i with
  | case1 b0 b1 b2 b3 b4 b5 b6 b7 rest ih =>
    rcases Nat.lt_or_ge i 8 with hi | hi
    · rw [bitOf_cons_of_lt _ _ hi, getLsbD_byteOfBits _ _ _ _ _ _ _ _ i hi]
      exact (List.getD_append [b0, b1, b2, b3, b4, b5, b6, b7] rest false i hi).symm
    · obtain ⟨j, rfl⟩ := Nat.exists_eq_add_of_le' hi
      rw [bitOf_cons_add_eight, ih (by simp only [List.length_cons] at h; omega)]
      rfl
  | case2 b hshort =>
    have hnil : b = [] := by
      match b, hshort, h with
      | [], _, _ => rfl
      | _ :: _ :: _ :: _ :: _ :: _ :: _ :: _ :: _, hshort, _ =>
        exact absurd rfl (hshort _ _ _ _ _ _ _ _ _)
    rw [hnil, bitOf_nil]
    rfl

/-- Packing keeps every bit, and fills up with zeros. -/
theorem bitOf_packBits (b : List Bool) (i : Nat) : bitOf (packBits b) i = b.getD i false := by
  rw [packBits, bitOf_bytesOf (by rw [List.length_append, List.length_replicate]; omega)]
  rcases Nat.lt_or_ge i b.length with hi | hi
  · exact List.getD_append _ _ _ _ hi
  · rw [List.getD_append_right _ _ _ _ hi, List.getD_eq_default _ _ hi]
    rcases Nat.lt_or_ge (i - b.length) ((8 - b.length % 8) % 8) with hk | hk
    · exact List.getD_replicate _ hk
    · exact List.getD_eq_default _ _ (by rwa [List.length_replicate])

/-! ### Embedding bits into samples (R203) -/

theorem getD_embedBits {qs : List Int} {bs : List Bool} (h : bs.length ≤ qs.length) (i : Nat) :
    (embedBits qs bs).getD i 0 =
      if i < bs.length then setLsb (qs.getD i 0) (bs.getD i false) else qs.getD i 0 := by
  induction qs generalizing bs i with
  | nil =>
    rw [List.length_eq_zero_iff.1 (Nat.le_zero.1 h)]
    rfl
  | cons q qs ih =>
    cases bs with
    | nil => rfl
    | cons b bs =>
      cases i with
      | zero => rfl
      | succ i => simpa [embedBits] using ih (Nat.le_of_succ_le_succ h) i

end Sys2Proof.Machine

/-! The LSB codec family (44_lsb_codec.md), its commands: `EMB` and O49, `EXT` and O50, then `EXT` on
what `EMB` delivers, O54. -/

namespace Sys2Proof.Machine

/-! ### Completions that report the samples (R183, R255) -/

section
variable {i : Instr} {s : State} {r : CmdResult} (hexec : exec i s = .next (s.complete r))
  (herror : ∀ e, s.quantized = .error e → r = .error e)
include hexec herror

/-- A command that fails as `Quant` does reports too many samples. -/
theorem exec_of_sampleCount_gt (h : s.sampleCount > s.env.par.sCap) :
    ∃ t, exec i s = .next t ∧ t.FailedWith 9 3 s.sampleCount ∧ Untouched s t ∧ NoDraw s t := by
  refine ⟨_, hexec, ?_, untouched_complete r s, noDraw_complete r s⟩
  rw [herror _ (quantized_of_gt h)]
  exact failedWith_complete_sampleRange s

/-- A command that fails as `Quant` does reports the lowest failing sample. -/
theorem exec_of_sampleFailsAt {i0 : Nat} {e : QuantFail} (h : s.SampleFailsAt i0 e) :
    ∃ t, exec i s = .next t ∧ t.FailedWith 6 i0 (overflowInfo e) ∧ Untouched s t ∧
      NoDraw s t := by
  refine ⟨_, hexec, ?_, untouched_complete r s, noDraw_complete r s⟩
  rw [herror _ (quantized_of_sampleFailsAt h)]
  exact failedWith_complete_error _ s

end

/-- Counts of samples that fit the instance fit a result register. -/
theorem toNat_ofNat_of_le_sampleCount {s : State} {n : Nat} (hp : s.env.par.ok = true)
    (hle : s.sampleCount ≤ s.env.par.sCap) (hn : n ≤ s.sampleCount) :
    (BitVec.ofNat 32 n).toNat = n := by
  have hcap := sCap_lt hp
  exact (BitVec.toNat_ofNat _ _).trans (Nat.mod_eq_of_lt (by omega))

/-! ### `EMB` (R203) -/

theorem exec_emb (s : State) : exec .emb s = .next (s.complete (embResult s)) := rfl

/-- The quantized samples with the bits of `DIN` embedded. -/
def embedded (s : State) (qs : List Int) : List Int :=
  embedBits qs (bitsOf s.bitBytes s.opnd.nbits.toNat)

theorem embResult_of_error {s : State} {e : CmdErr} (h : s.quantized = .error e) :
    embResult s = .error e := by
  rw [embResult, h, except_error_bind]

theorem embResult_of_lt {s : State} {qs : List Int} (h : s.quantized = .ok qs)
    (hlt : qs.length < s.opnd.nbits.toNat) :
    embResult s = .error ⟨.insufficientCapacity, s.opnd.nbits.toNat, qs.length⟩ := by
  rw [embResult, h, except_ok_bind, checkCapacity, if_pos hlt, except_error_bind]

theorem embResult_of_le {s : State} {qs : List Int} (h : s.quantized = .ok qs)
    (hle : s.opnd.nbits.toNat ≤ qs.length) :
    embResult s = .ok (samplesOut s.env.par.flen (embedded s qs)) := by
  rw [embResult, h, except_ok_bind, checkCapacity_eq_ok (u := ()).2 hle, except_ok_bind, embedded]
  rfl

/-- An `EMB` that succeeds quantized its samples, and its bits fitted them. -/
theorem embResult_eq_ok {s : State} {o : Outputs} (h : embResult s = .ok o) :
    ∃ qs, s.QuantizesTo qs ∧ s.opnd.nbits.toNat ≤ qs.length ∧
      o = samplesOut s.env.par.flen (embedded s qs) := by
  obtain ⟨qs, hqs, hrest⟩ := except_bind_eq_ok.1 h
  obtain ⟨⟨⟩, hcap, hout⟩ := except_bind_eq_ok.1 hrest
  exact ⟨qs, quantizesTo_of_quantized hqs, checkCapacity_eq_ok.1 hcap, (Except.ok.inj hout).symm⟩

section
variable {s : State} {qs : List Int} (hle : s.opnd.nbits.toNat ≤ qs.length)
include hle

theorem length_embedded : (embedded s qs).length = qs.length :=
  length_embedBits _ _ (by rwa [length_bitsOf])

/-- Embedding sets the LSB of the samples below `NBITS` and keeps the others. -/
theorem getD_embedded (i : Nat) :
    (embedded s qs).getD i 0 =
      if i < s.opnd.nbits.toNat then setLsb (qs.getD i 0) (bufferBit s.bufs.din i)
      else qs.getD i 0 := by
  rw [embedded, getD_embedBits (by rwa [length_bitsOf]), length_bitsOf]
  split_ifs with hi
  · rw [getD_bitsOf _ hi, State.bitBytes, bitOf_readRun _ (by omega)]
  · rfl

end

theorem read_samplesOut_sout (f : Flen) (qs : List Int) (i : Nat) :
    Memory.read (samplesOut f qs).sout i =
      if i < qs.length then dequant1 f (qs.getD i 0) else 0 := by
  rw [samplesOut, Memory.read_writeRun_cleared]
  split_ifs with hi
  · rw [List.getD_eq_getElem _ _ (by rwa [List.length_map]), List.getD_eq_getElem _ _ hi,
      List.getElem_map]
  · rw [List.getD_eq_default _ _ (by rw [List.length_map]; omega)]
    rfl

/-- Settles O49: the samples that do not fit or fail, the bits that do not fit the samples, and the
embedding sample by sample. -/
theorem embCommand : Obligations.EmbCommand := by
  refine ⟨rfl, fun s hp => ⟨exec_of_sampleCount_gt (exec_emb s) fun _ => embResult_of_error,
    fun _ _ => exec_of_sampleFailsAt (exec_emb s) fun _ => embResult_of_error,
    fun qs h hlt => ?short, fun qs h hle => ?embeds⟩⟩
  case short =>
    refine ⟨_, exec_emb s, ?_, untouched_complete _ s, noDraw_complete _ s⟩
    have hquant := quantized_of_quantizesTo h
    obtain ⟨-, hl, -⟩ := h
    rw [embResult_of_lt hquant (by omega), hl]
    exact failedWith_complete_error _ s
  case embeds =>
    have hquant := quantized_of_quantizesTo h
    obtain ⟨hcap, hl, -⟩ := h
    have hres := embResult_of_le hquant (hl ▸ hle)
    have hlen := (length_embedded (s := s) (hl ▸ hle)).trans hl
    refine ⟨s.complete (.ok (samplesOut s.env.par.flen (embedded s qs))), hres ▸ exec_emb s,
      succeeded_complete_ok _ s, ?_, fun i => ?_, rfl, rfl, rfl, rfl, ⟨rfl, rfl⟩, allZero_cleared,
      allZero_cleared, untouched_complete _ s, noDraw_complete _ s⟩
    · rw [← hlen]
      exact toNat_ofNat_of_le_sampleCount hp hcap hlen.le
    · rw [State.complete_out, resultOutputs_ok, read_samplesOut_sout, hlen,
        getD_embedded (hl ▸ hle)]
      split_ifs
      · rfl
      · rfl
      · omega
      · rfl

/-! ### `EXT` (R208) -/

theorem exec_ext (mb : Bool) (s : State) : exec (.ext mb) s = .next (s.complete (extResult mb s)) :=
  rfl

/-- The LSBs of the first `cnt` samples. -/
def firstLsbs (qs : List Int) (cnt : Nat) : List Bool := (qs.take cnt).map getLsb

theorem length_firstLsbs {qs : List Int} {cnt : Nat} (h : cnt ≤ qs.length) :
    (firstLsbs qs cnt).length = cnt := by
  rw [firstLsbs, List.length_map, List.length_take, min_eq_left h]

theorem getD_firstLsbs {qs : List Int} {cnt : Nat} (h : cnt ≤ qs.length) (i : Nat) :
    (firstLsbs qs cnt).getD i false = (decide (i < cnt) && getLsb (qs.getD i 0)) := by
  rcases Nat.lt_or_ge i cnt with hi | hi
  · rw [List.getD_eq_getElem _ _ (by rwa [length_firstLsbs h]),
      List.getD_eq_getElem _ _ (hi.trans_le h), decide_eq_true hi, Bool.true_and]
    simp [firstLsbs]
  · rw [List.getD_eq_default _ _ (by rwa [length_firstLsbs h]), decide_eq_false (by omega),
      Bool.false_and]

/-- The outputs of an `EXT` that succeeds: the packed bits, and how many there are. -/
def bitsOut (b : List Bool) : Outputs :=
  { bytesOut (packBits b) with obits := BitVec.ofNat 32 b.length }

theorem bufferBit_bitsOut_dout (b : List Bool) (i : Nat) :
    bufferBit (bitsOut b).dout i = b.getD i false :=
  (bufferBit_writeRun_cleared _ i).trans (bitOf_packBits b i)

theorem extResult_of_error {mb : Bool} {s : State} {e : CmdErr} (h : s.quantized = .error e) :
    extResult mb s = .error e := by
  rw [extResult, h, except_error_bind]

theorem extResult_of_ok {mb : Bool} {s : State} {qs : List Int} (h : s.quantized = .ok qs) :
    extResult mb s = .ok (bitsOut (firstLsbs qs (extCount mb s qs.length))) := by
  rw [extResult, h, except_ok_bind]
  rfl

theorem extCount_le (mb : Bool) (s : State) (n : Nat) : extCount mb s n ≤ n := by
  unfold extCount
  split_ifs
  · exact min_le_right _ n
  · exact le_rfl

/-- Settles O50: the samples that do not fit or fail, and the LSBs of the first `cnt` bit by bit. -/
theorem extCommand : Obligations.ExtCommand := by
  refine ⟨rfl, rfl, fun s mb hp =>
    ⟨exec_of_sampleCount_gt (exec_ext mb s) fun _ => extResult_of_error,
      fun _ _ => exec_of_sampleFailsAt (exec_ext mb s) fun _ => extResult_of_error,
      fun qs h cnt hcnt => ?_⟩⟩
  have hres := extResult_of_ok (mb := mb) (quantized_of_quantizesTo h)
  obtain ⟨hcap, hl, -⟩ := h
  have hcount : extCount mb s qs.length = cnt := by rw [hcnt, hl, extCount]
  have hle : cnt ≤ qs.length := hcount ▸ extCount_le mb s qs.length
  have hlen := length_firstLsbs hle
  have hbytes := hlen ▸ length_packBits (firstLsbs qs cnt)
  rw [hcount] at hres
  refine ⟨s.complete (.ok (bitsOut (firstLsbs qs cnt))), hres ▸ exec_ext mb s,
    succeeded_complete_ok _ s, ?_, ?_, fun i => ?_, rfl, rfl, rfl, ⟨rfl, rfl⟩, allZero_cleared,
    allZero_cleared, untouched_complete _ s, noDraw_complete _ s⟩
  · exact (toNat_ofNat_of_le_sampleCount hp hcap (by omega)).trans hlen
  · exact (toNat_ofNat_of_le_sampleCount hp hcap (by omega)).trans hbytes
  · exact (bufferBit_bitsOut_dout _ i).trans (getD_firstLsbs hle i)

/-! ### `EXT` on what `EMB` delivers (R210) -/

/-- A completion without error ended with outputs. -/
theorem ok_of_succeeded_complete {r : CmdResult} {s : State} (h : (s.complete r).Succeeded) :
    ∃ o, r = .ok o := by
  cases r with
  | ok o => exact ⟨o, rfl⟩
  | error e =>
    have hword : (Status.failed e.kind).word = 0x2#32 := h
    rw [failed_word] at hword
    cases hk : e.kind <;> rw [hk] at hword <;> exact absurd hword (by decide)

theorem quant1_range {f : Flen} {a : Sample} {q : Int} (h : quant1 f a = .ok q) :
    -32768 ≤ q ∧ q ≤ 32767 := by
  unfold quant1 at h
  split at h
  · cases h
  · cases h
  · split at h
    · cases h
    · dsimp only at h
      split_ifs at h with hout
      have hq := Except.ok.inj h
      omega

section
variable {s : State} {qs : List Int} (h : s.QuantizesTo qs) (hle : s.opnd.nbits.toNat ≤ qs.length)
include h hle

/-- Embedding keeps the int16 range. -/
theorem embedded_range {i : Nat} (hi : i < s.sampleCount) :
    -32768 ≤ (embedded s qs).getD i 0 ∧ (embedded s qs).getD i 0 ≤ 32767 := by
  obtain ⟨-, -, hq⟩ := h
  rw [getD_embedded hle]
  split_ifs
  · exact setLsb_range _ _
  · exact quant1_range (hq i hi)

/-- The samples `EMB` delivers quantize to the embedded integers. -/
theorem quant1_read_embedded {i : Nat} (hi : i < s.sampleCount) :
    quant1 s.env.par.flen (Memory.read (samplesOut s.env.par.flen (embedded s qs)).sout i) =
      .ok ((embedded s qs).getD i 0) := by
  obtain ⟨hlow, hhigh⟩ := embedded_range h hle hi
  obtain ⟨-, hl, -⟩ := h
  rw [read_samplesOut_sout, if_pos (by rwa [length_embedded hle, hl])]
  exact quantInvertsDequant _ _ hlow hhigh

end

/-- Settles O54: the delivered samples quantize to the embedded integers, whose LSBs are the bits. -/
theorem embThenExtGivesTheBits : Obligations.EmbThenExtGivesTheBits := by
  intro s t hp hexec hsucc s' hpar hsin hchan hfrm hmax
  obtain rfl : s.complete (embResult s) = t := Host.Outcome.next.inj hexec
  obtain ⟨o, hres⟩ := ok_of_succeeded_complete hsucc
  obtain ⟨qs, h, hle, rfl⟩ := embResult_eq_ok hres
  rw [hres, State.complete_out, resultOutputs_ok] at hsin
  have hcount : s'.sampleCount = s.sampleCount := by
    rw [State.sampleCount, hchan, hfrm, State.sampleCount]
  have hsample : ∀ i, i < s.sampleCount →
      quant1 s.env.par.flen (Memory.read s'.bufs.sin i) = .ok ((embedded s qs).getD i 0) := by
    rw [hsin]
    exact fun i => quant1_read_embedded h hle
  have ⟨hcap, hl, _⟩ := h
  constructor
  case left =>
    have hquant' : s'.QuantizesTo (embedded s qs) := by
      refine ⟨by rwa [hcount, hpar], by rw [length_embedded hle, hl, hcount], ?_⟩
      rwa [hcount, hpar]
    obtain ⟨-, -, hext⟩ := extCommand
    obtain ⟨-, -, hext⟩ := hext s' true (hpar ▸ hp)
    obtain ⟨t', hexec', hsucc', hobits, -, hbits, -⟩ :=
      hext (embedded s qs) hquant' s.opnd.nbits.toNat
        (by rw [if_pos rfl, hmax, hcount, min_eq_left (hl ▸ hle)])
    refine ⟨t', hexec', hsucc', BitVec.eq_of_toNat_eq hobits, fun i hi => ?_⟩
    rw [hbits, decide_eq_true hi, Bool.true_and, getD_embedded hle, if_pos hi, getLsb_setLsb]
  case right =>
    intro qs' h' i hi
    obtain rfl : qs = qs' :=
      Except.ok.inj ((quantized_of_quantizesTo h).symm.trans (quantized_of_quantizesTo h'))
    rw [hsample i hi, getD_embedded hle]

end Sys2Proof.Machine

/-! The delimiter and composite family (45_delimiter_composite.md), the scan: where the delimiter
stands, what `Xtd` answers, `XTD` and O51, then `REVEAL` and O56. -/

namespace Sys2Proof.Machine

/-! ### Where the delimiter stands (R215, R217) -/

/-- The delimiter stands in `bs` at byte offset `n`. -/
def DelimiterAt (bs : List Byte) (n : Nat) : Prop := (bs.drop n).take 23 = delimiter

theorem firstDelimiterAt_iff {bs : List Byte} {n : Nat} :
    FirstDelimiterAt bs n ↔ DelimiterAt bs n ∧ ∀ m, m < n → ¬ DelimiterAt bs m := Iff.rfl

@[simp] theorem length_delimiter : delimiter.length = 23 := rfl

/-- The whole delimiter lies inside the bytes it stands in. -/
theorem DelimiterAt.le {bs : List Byte} {n : Nat} (h : DelimiterAt bs n) : n + 23 ≤ bs.length := by
  have hl := congrArg List.length h
  rw [List.length_take, List.length_drop, length_delimiter] at hl
  omega

/-- Bytes behind a place that has room for the delimiter do not count. -/
theorem delimiterAt_append {bs : List Byte} {n : Nat} (h : n + 23 ≤ bs.length) (vs : List Byte) :
    DelimiterAt (bs ++ vs) n ↔ DelimiterAt bs n := by
  have hdrop : 23 ≤ (bs.drop n).length := by rw [List.length_drop]; omega
  rw [DelimiterAt, DelimiterAt, List.drop_append_of_le_length (by omega),
    List.take_append_of_le_length hdrop]

theorem firstDelimiterAt_append {bs : List Byte} {n : Nat} (h : FirstDelimiterAt bs n)
    (vs : List Byte) : FirstDelimiterAt (bs ++ vs) n := by
  obtain ⟨hat, hbefore⟩ := firstDelimiterAt_iff.1 h
  have hle := hat.le
  exact firstDelimiterAt_iff.2 ⟨(delimiterAt_append hle vs).2 hat, fun m hm hm' =>
    hbefore m hm ((delimiterAt_append (by omega) vs).1 hm')⟩

/-- Where the delimiter stands anywhere it stands somewhere first. -/
theorem not_delimiterAt_of_no_first {bs : List Byte} (h : ∀ n, ¬ FirstDelimiterAt bs n) (n : Nat) :
    ¬ DelimiterAt bs n := by
  induction n using Nat.strong_induction_on with
  | _ n ih => exact fun hat => h n (firstDelimiterAt_iff.2 ⟨hat, ih⟩)

/-! ### The scan (R216, R217) -/

/-- The scan's test of its buffer says whether the delimiter stands at the buffer's end, whatever
bytes are still to come. -/
theorem endsInDelimiter_iff (buf vs : List Byte) :
    endsInDelimiter buf = true ↔ ∃ m, m + 23 = buf.length ∧ DelimiterAt (buf ++ vs) m := by
  have atEnd : ∀ m, m + 23 = buf.length → (DelimiterAt (buf ++ vs) m ↔ buf.drop m = delimiter) :=
    fun m hm => by
      rw [delimiterAt_append hm.le, DelimiterAt, List.take_of_length_le]
      rw [List.length_drop]; omega
  rw [endsInDelimiter, Bool.and_eq_true, decide_eq_true_eq, beq_iff_eq]
  constructor
  · rintro ⟨hlen, htail⟩
    exact ⟨buf.length - 23, by omega, (atEnd _ (by omega)).2 htail⟩
  · rintro ⟨m, hm, hat⟩
    have hsub : buf.length - 23 = m := by omega
    exact ⟨by omega, hsub ▸ (atEnd m hm).1 hat⟩

theorem scanDelimiter_cons_of_ends {buf : List Byte} {v : Byte}
    (h : endsInDelimiter (buf ++ [v]) = true) (vs : List Byte) :
    scanDelimiter buf (v :: vs) = some ((buf ++ [v]).take ((buf ++ [v]).length - 23)) := by
  rw [scanDelimiter, if_pos h]

theorem scanDelimiter_cons_of_not_ends {buf : List Byte} {v : Byte}
    (h : ¬ endsInDelimiter (buf ++ [v]) = true) (vs : List Byte) :
    scanDelimiter buf (v :: vs) = scanDelimiter (buf ++ [v]) vs := by
  rw [scanDelimiter, if_neg h]

/-- A scan that has not passed the first delimiter finds it. -/
theorem scanDelimiter_of_first {buf vs : List Byte} {n : Nat} (h : FirstDelimiterAt (buf ++ vs) n)
    (hn : buf.length < n + 23) : scanDelimiter buf vs = some ((buf ++ vs).take n) := by
  obtain ⟨hat, hbefore⟩ := firstDelimiterAt_iff.1 h
  induction vs generalizing buf with
  | nil =>
    have hle := hat.le
    rw [List.append_nil] at hle
    omega
  | cons v vs ih =>
    have hsplit : buf ++ v :: vs = (buf ++ [v]) ++ vs := by simp
    have hlen : (buf ++ [v]).length = buf.length + 1 := by simp
    rw [hsplit] at h hat hbefore ⊢
    rcases Nat.lt_or_ge (buf ++ [v]).length (n + 23) with hlt | hge
    · have hnot : ¬ endsInDelimiter (buf ++ [v]) = true := fun hends => by
        obtain ⟨m, hm, hat'⟩ := (endsInDelimiter_iff _ vs).1 hends
        exact hbefore m (by omega) hat'
      rw [scanDelimiter_cons_of_not_ends hnot, ih h hlt hat hbefore]
    · have heq : n + 23 = (buf ++ [v]).length := by omega
      have hends := (endsInDelimiter_iff _ vs).2 ⟨n, heq, hat⟩
      rw [scanDelimiter_cons_of_ends hends, ← heq, Nat.add_sub_cancel,
        ← List.take_append_of_le_length (l₁ := buf ++ [v]) (by omega)]

/-- A scan of bytes in which the delimiter stands nowhere finds none. -/
theorem scanDelimiter_of_none {buf vs : List Byte} (h : ∀ n, ¬ DelimiterAt (buf ++ vs) n) :
    scanDelimiter buf vs = none := by
  induction vs generalizing buf with
  | nil => rfl
  | cons v vs ih =>
    have hsplit : buf ++ v :: vs = (buf ++ [v]) ++ vs := by simp
    rw [hsplit] at h
    have hnot : ¬ endsInDelimiter (buf ++ [v]) = true := fun hends => by
      obtain ⟨m, -, hat⟩ := (endsInDelimiter_iff _ vs).1 hends
      exact h m hat
    rw [scanDelimiter_cons_of_not_ends hnot, ih h]

/-- The bytes that the LSBs of quantized samples spell. -/
def lsbBytes (qs : List Int) : List Byte := bytesOf (qs.map getLsb)

theorem length_lsbBytes (qs : List Int) : (lsbBytes qs).length = qs.length / 8 := by
  rw [lsbBytes, length_bytesOf, List.length_map]

theorem xtd_of_first {qs : List Int} {n : Nat} (h : FirstDelimiterAt (lsbBytes qs) n) :
    xtd qs = .ok ((lsbBytes qs).take n) := by
  have hscan : scanDelimiter [] (lsbBytes qs) = some ((lsbBytes qs).take n) :=
    scanDelimiter_of_first h (Nat.zero_lt_of_lt (Nat.lt_add_of_pos_right (by decide)))
  rw [lsbBytes] at hscan
  rw [xtd, hscan, lsbBytes]

theorem xtd_of_no_first {qs : List Int} (h : ∀ n, ¬ FirstDelimiterAt (lsbBytes qs) n) :
    xtd qs = .error ⟨.delimiterNotFound, qs.length / 8, qs.length⟩ := by
  have hscan : scanDelimiter [] (lsbBytes qs) = none :=
    scanDelimiter_of_none (not_delimiterAt_of_no_first h)
  rw [lsbBytes] at hscan
  rw [xtd, hscan]

/-! ### Commands that deliver a byte string or fail -/

section
variable {i : Instr} {s : State} {r : CmdResult} (hexec : exec i s = .next (s.complete r))
include hexec

theorem exec_of_error {e : CmdErr} (h : r = .error e) :
    ∃ t, exec i s = .next t ∧ t.FailedWith e.kind.code e.info0 e.info1 ∧ Untouched s t ∧
      NoDraw s t :=
  ⟨_, hexec, h ▸ failedWith_complete_error e s, untouched_complete r s, noDraw_complete r s⟩

/-- A completion that fails an operand range check (R255). -/
theorem exec_of_operandRange {id value : Nat} (h : r = .error ⟨.operandRange, id, value⟩) :
    ∃ t, exec i s = .next t ∧ t.FailedWith 9 id value ∧ Untouched s t ∧ NoDraw s t := by
  have hfail := exec_of_error hexec h
  exact hfail

theorem exec_of_bytesOut {b : List Byte} (h : r = .ok (bytesOut b)) (hb : b.length < 2 ^ 32) :
    ∃ t, exec i s = .next t ∧ t.Delivers b ∧ Untouched s t ∧ NoDraw s t :=
  ⟨_, hexec, h ▸ delivers_complete_bytesOut hb s, untouched_complete r s, noDraw_complete r s⟩

end

/-- The bytes that the LSBs spell are counted by a result register. -/
theorem length_lsbBytes_lt {s : State} {qs : List Int} (hp : s.env.par.ok = true)
    (h : s.QuantizesTo qs) : (lsbBytes qs).length < 2 ^ 32 := by
  obtain ⟨hle, hl, -⟩ := h
  have hcap := sCap_lt hp
  rw [length_lsbBytes]
  omega

/-! ### `XTD` (R219) -/

theorem exec_xtd (s : State) : exec .xtd s = .next (s.complete (xtdResult s)) := rfl

theorem xtdResult_of_error {s : State} {e : CmdErr} (h : s.quantized = .error e) :
    xtdResult s = .error e := by
  rw [xtdResult, h, except_error_bind]

section
variable {s : State} {qs : List Int} (h : s.QuantizesTo qs)
include h

theorem xtdResult_of_first {n : Nat} (hn : FirstDelimiterAt (lsbBytes qs) n) :
    xtdResult s = .ok (bytesOut ((lsbBytes qs).take n)) := by
  rw [xtdResult, quantized_of_quantizesTo h, except_ok_bind, xtd_of_first hn]
  rfl

theorem xtdResult_of_no_first (hn : ∀ n, ¬ FirstDelimiterAt (lsbBytes qs) n) :
    xtdResult s = .error ⟨.delimiterNotFound, qs.length / 8, qs.length⟩ := by
  rw [xtdResult, quantized_of_quantizesTo h, except_ok_bind, xtd_of_no_first hn, except_error_bind]

end

/-- Settles O51: the samples that do not fit or fail, then the scan of their LSBs' bytes. -/
theorem xtdCommand : Obligations.XtdCommand := by
  refine ⟨rfl, fun s hp => ⟨exec_of_sampleCount_gt (exec_xtd s) fun _ => xtdResult_of_error,
    fun _ _ => exec_of_sampleFailsAt (exec_xtd s) fun _ => xtdResult_of_error,
    fun qs n h hn => ?delivers, fun qs h hn => ?fails⟩⟩
  case delivers =>
    have hlt := length_lsbBytes_lt hp h
    have hle := (firstDelimiterAt_iff.1 hn).1.le
    have hlen : ((lsbBytes qs).take n).length = n :=
      List.length_take_of_le ((Nat.le_add_right n 23).trans hle)
    obtain ⟨t, hexec, hdel, hframe⟩ := exec_of_bytesOut (exec_xtd s) (xtdResult_of_first h hn)
      ((List.length_take_le' n _).trans_lt hlt)
    have ⟨_, holen, _⟩ := hdel
    exact ⟨t, hexec, hdel, holen.trans hlen, hframe⟩
  case fails =>
    have hfail := exec_of_error (exec_xtd s) (xtdResult_of_no_first h hn)
    obtain ⟨-, hl, -⟩ := h
    rwa [hl] at hfail

/-! ### `REVEAL` (R225) -/

theorem exec_reveal (s : State) : exec .reveal s = .next (s.complete (revealResult s)) := rfl

theorem revealResult_of_password_gt {s : State} (h : s.opnd.pwlen.toNat > s.env.par.pwCap) :
    revealResult s = .error ⟨.operandRange, 1, s.opnd.pwlen.toNat⟩ := by
  rw [revealResult, checkPassword_of_gt h, except_error_bind]

section
variable {s : State} (hpw : s.opnd.pwlen.toNat ≤ s.env.par.pwCap)
include hpw

theorem revealResult_of_error {e : CmdErr} (h : s.quantized = .error e) :
    revealResult s = .error e := by
  rw [revealResult, checkPassword_eq_ok (u := ()).2 hpw, except_ok_bind, h, except_error_bind]

variable {qs : List Int} (h : s.QuantizesTo qs)
include h

theorem revealResult_of_no_first (hn : ∀ n, ¬ FirstDelimiterAt (lsbBytes qs) n) :
    revealResult s = .error ⟨.delimiterNotFound, qs.length / 8, qs.length⟩ := by
  rw [revealResult, checkPassword_eq_ok (u := ()).2 hpw, except_ok_bind,
    quantized_of_quantizesTo h, except_ok_bind, xtd_of_no_first hn, except_error_bind]

/-- With a delimiter `REVEAL` ends as `DecryptBytes` does on the bytes before the first one. -/
theorem revealResult_of_first {n : Nat} (hn : FirstDelimiterAt (lsbBytes qs) n) :
    revealResult s = (decryptBytes ((lsbBytes qs).take n) s.password).map bytesOut := by
  rw [revealResult, checkPassword_eq_ok (u := ()).2 hpw, except_ok_bind,
    quantized_of_quantizesTo h, except_ok_bind, xtd_of_first hn, except_ok_bind]
  cases decryptBytes ((lsbBytes qs).take n) s.password <;> rfl

/-- `REVEAL` delivers the plaintext of what stands before the first delimiter. -/
theorem exec_reveal_of_decrypts (hp : s.env.par.ok = true) {n : Nat} {m : List Byte}
    (hn : FirstDelimiterAt (lsbBytes qs) n)
    (hm : decryptBytes ((lsbBytes qs).take n) s.password = .ok m) :
    ∃ t, exec .reveal s = .next t ∧ t.Delivers m ∧ Untouched s t ∧ NoDraw s t := by
  have hlt := length_lsbBytes_lt hp h
  have hle := (length_decryptBytes hm).trans (List.length_take_le' n _)
  exact exec_of_bytesOut (exec_reveal s) (by rw [revealResult_of_first hpw h hn, hm]; rfl)
    (hle.trans_lt hlt)

end

/-- Settles O56: the checks in their order, then the two answers of `DecryptBytes`. -/
theorem revealCommand : Obligations.RevealCommand := by
  refine ⟨rfl, fun s hp => ⟨fun hpw => ?password, fun hpw =>
    ⟨exec_of_sampleCount_gt (exec_reveal s) fun _ => revealResult_of_error hpw,
      fun _ _ => exec_of_sampleFailsAt (exec_reveal s) fun _ => revealResult_of_error hpw,
      fun qs h hn => ?none, fun qs n h hn => ⟨fun m hm => ?delivers, fun e he => ?fails⟩⟩⟩⟩
  case password => exact exec_of_operandRange (exec_reveal s) (revealResult_of_password_gt hpw)
  case none =>
    have hfail := exec_of_error (exec_reveal s) (revealResult_of_no_first hpw h hn)
    obtain ⟨-, hl, -⟩ := h
    rwa [hl] at hfail
  case delivers => exact exec_reveal_of_decrypts hpw h hp hn hm
  case fails =>
    have he' : decryptBytes ((lsbBytes qs).take n) s.password = .error e := he
    exact exec_of_error (exec_reveal s) (by rw [revealResult_of_first hpw h hn, he']; rfl)

end Sys2Proof.Machine

/-! The delimiter and composite family (45_delimiter_composite.md), the flows: `HIDE` and O55, then
`REVEAL` on what `HIDE` delivers, O57. -/

namespace Sys2Proof.Machine

/-! ### Operand checks before a draw (R223, R255) -/

theorem exec_hide (s : State) : exec .hide s = execHide s := rfl

/-- A failed operand check ends `HIDE` before its draw. -/
theorem exec_hide_of_check {s : State} {e : CmdErr} (h : hideChecks s = .error e) :
    exec .hide s = .next (s.complete (.error e)) := by
  rw [exec_hide, execHide, h]
  rfl

theorem hideChecks_of_password_gt {s : State} (h : s.opnd.pwlen.toNat > s.env.par.pwCap) :
    hideChecks s = .error ⟨.operandRange, 1, s.opnd.pwlen.toNat⟩ := by
  rw [hideChecks, checkPassword_of_gt h, except_error_bind]

section
variable {s : State} (hpw : s.opnd.pwlen.toNat ≤ s.env.par.pwCap)
include hpw

theorem hideChecks_of_data_gt (h : s.opnd.dlen.toNat > s.env.par.dCap) :
    hideChecks s = .error ⟨.operandRange, 2, s.opnd.dlen.toNat⟩ := by
  rw [hideChecks, checkPassword_eq_ok (u := ()).2 hpw, except_ok_bind, checkData_of_gt h,
    except_error_bind]

variable (hd : s.opnd.dlen.toNat ≤ s.env.par.dCap)
include hd

theorem hideChecks_of_samples_gt (h : s.sampleCount > s.env.par.sCap) :
    hideChecks s = .error ⟨.operandRange, 3, min s.sampleCount (2 ^ 32 - 1)⟩ := by
  rw [hideChecks, checkPassword_eq_ok (u := ()).2 hpw, except_ok_bind,
    checkData_eq_ok (u := ()).2 hd, except_ok_bind, checkSamples_of_gt h, except_error_bind]

theorem hideChecks_of_output_gt (hs : s.sampleCount ≤ s.env.par.sCap)
    (h : blobSize s.opnd.dlen.toNat > s.env.par.dCap) :
    hideChecks s = .error ⟨.operandRange, 5, blobSize s.opnd.dlen.toNat⟩ := by
  rw [hideChecks, checkPassword_eq_ok (u := ()).2 hpw, except_ok_bind,
    checkData_eq_ok (u := ()).2 hd, except_ok_bind, checkSamples_eq_ok (u := ()).2 hs,
    except_ok_bind, checkOutput_of_gt h]

end

/-- A blob that fits leaves no check of the data to fail: the plaintext is shorter. -/
theorem hideChecks_of_fits {s : State} (hpw : s.opnd.pwlen.toNat ≤ s.env.par.pwCap)
    (hs : s.sampleCount ≤ s.env.par.sCap) (h : blobSize s.opnd.dlen.toNat ≤ s.env.par.dCap) :
    hideChecks s = .ok () := by
  refine hideChecks_eq_ok.2 ⟨hpw, ?_, hs, h⟩
  rw [blobSize, envelopeSize] at h
  omega

/-! ### What `HIDE` computes behind its draw (R222, R223) -/

/-- What `HIDE` embeds when its draw answers `ok = 1`: the envelope and the delimiter. -/
def hideBlob (s : State) : List Byte := blob (encEnvelope s)

theorem length_hideBlob (s : State) : (hideBlob s).length = blobSize s.opnd.dlen.toNat := by
  rw [hideBlob, length_blob, length_encEnvelope, blobSize]

/-- Quantized samples with every bit of the byte string `b` embedded. -/
def embedBytes (qs : List Int) (b : List Byte) : List Int := embedBits qs (bitsOf b (8 * b.length))

/-- The outputs of a `HIDE` that succeeds. -/
def hideOut (f : Flen) (qs : List Int) (b : List Byte) : Outputs :=
  { samplesOut f (embedBytes qs b) with
    olen := BitVec.ofNat 32 b.length
    dout := Memory.writeRun Memory.cleared 0 b }

theorem hideOut_sout (f : Flen) (qs : List Int) (b : List Byte) :
    (hideOut f qs b).sout = (samplesOut f (embedBytes qs b)).sout := rfl

theorem hideResult_of_not_ok {s : State} {d : Draw} (hok : d.ok = false) :
    hideResult d s = .error ⟨.encryptionError, 1, 0⟩ := by
  rw [hideResult, encryptBytes_of_not_ok hok, except_error_bind]

section
variable {s : State} (hok : s.nextDraw.ok = true)
include hok

theorem hideResult_of_ok :
    hideResult s.nextDraw s = (quant s.env.par.flen s.samples >>= fun qs =>
      checkCapacity (8 * (hideBlob s).length) qs.length >>= fun _ =>
        .ok (hideOut s.env.par.flen qs (hideBlob s))) := by
  rw [hideResult, encryptBytes_of_ok hok, except_ok_bind]
  rfl

theorem hideResult_of_sampleFailsAt {i0 : Nat} {f : QuantFail} (h : s.SampleFailsAt i0 f) :
    hideResult s.nextDraw s = .error ⟨.sampleOverflow, i0, overflowInfo f⟩ := by
  have hquant := quantized_of_sampleFailsAt h
  obtain ⟨hle, -⟩ := h
  rw [quantized_of_le hle] at hquant
  rw [hideResult_of_ok hok, quant, hquant, except_error_bind]

variable {qs : List Int} (h : s.QuantizesTo qs)
include h

theorem hideResult_of_quantizesTo :
    hideResult s.nextDraw s = (checkCapacity (8 * (hideBlob s).length) qs.length >>= fun _ =>
      .ok (hideOut s.env.par.flen qs (hideBlob s))) := by
  have hquant := quantized_of_quantizesTo h
  obtain ⟨hle, -⟩ := h
  rw [quantized_of_le hle] at hquant
  rw [hideResult_of_ok hok, quant, hquant, except_ok_bind]

theorem hideResult_of_lt (hlt : qs.length < 8 * (hideBlob s).length) :
    hideResult s.nextDraw s =
      .error ⟨.insufficientCapacity, 8 * (hideBlob s).length, qs.length⟩ := by
  rw [hideResult_of_quantizesTo hok h, checkCapacity, if_pos hlt, except_error_bind]

theorem hideResult_of_le (hle : 8 * (hideBlob s).length ≤ qs.length) :
    hideResult s.nextDraw s = .ok (hideOut s.env.par.flen qs (hideBlob s)) := by
  rw [hideResult_of_quantizesTo hok h, checkCapacity_eq_ok (u := ()).2 hle, except_ok_bind]

end

/-- A `HIDE` whose computation succeeds had a good draw, quantized its samples, and its blob's bits
fitted them. -/
theorem hideResult_eq_ok {s : State} {o : Outputs} (hs : s.sampleCount ≤ s.env.par.sCap)
    (h : hideResult s.nextDraw s = .ok o) :
    ∃ qs, s.QuantizesTo qs ∧ 8 * (hideBlob s).length ≤ qs.length ∧
      o = hideOut s.env.par.flen qs (hideBlob s) := by
  have hok : s.nextDraw.ok = true := by
    cases hd : s.nextDraw.ok with
    | true => rfl
    | false => rw [hideResult_of_not_ok hd] at h; cases h
  rw [hideResult_of_ok hok] at h
  obtain ⟨qs, hquant, hrest⟩ := except_bind_eq_ok.1 h
  obtain ⟨⟨⟩, hcap, hout⟩ := except_bind_eq_ok.1 hrest
  exact ⟨qs, quantizesTo_of_quantized ((quantized_of_le hs).trans hquant),
    checkCapacity_eq_ok.1 hcap, (Except.ok.inj hout).symm⟩

/-! ### Embedding a byte string (R196, R203) -/

section
variable {qs : List Int} {b : List Byte} (hle : 8 * b.length ≤ qs.length)
include hle

theorem length_embedBytes : (embedBytes qs b).length = qs.length :=
  length_embedBits _ _ (by rwa [length_bitsOf])

/-- Embedding sets the LSBs of the first samples to the string's bits and keeps the others. -/
theorem getD_embedBytes (i : Nat) :
    (embedBytes qs b).getD i 0 =
      if i < 8 * b.length then setLsb (qs.getD i 0) (bitOf b i) else qs.getD i 0 := by
  rw [embedBytes, getD_embedBits (by rwa [length_bitsOf]), length_bitsOf]
  split_ifs with hi
  · rw [getD_bitsOf _ hi]
  · rfl

theorem read_hideOut_sout (f : Flen) (i : Nat) :
    Memory.read (hideOut f qs b).sout i =
      if i < 8 * b.length then dequant1 f (setLsb (qs.getD i 0) (bitOf b i))
      else if i < qs.length then dequant1 f (qs.getD i 0) else 0 := by
  rw [hideOut_sout, read_samplesOut_sout, length_embedBytes hle, getD_embedBytes hle]
  split_ifs
  · rfl
  · rfl
  · omega
  · rfl

/-- Embedding keeps the int16 range. -/
theorem embedBytes_range (hq : ∀ i, i < qs.length → -32768 ≤ qs.getD i 0 ∧ qs.getD i 0 ≤ 32767)
    {i : Nat} (hi : i < qs.length) :
    -32768 ≤ (embedBytes qs b).getD i 0 ∧ (embedBytes qs b).getD i 0 ≤ 32767 := by
  rw [getD_embedBytes hle]
  split_ifs
  · exact setLsb_range _ _
  · exact hq i hi

end

/-! ### `HIDE` (R223) -/

/-- A blob that fits `DOUT` is counted by its result register. -/
theorem toNat_hideOut_olen {p : Params} {b : List Byte} (hp : p.ok = true) (hb : b.length ≤ p.dCap)
    (f : Flen) (qs : List Int) : (hideOut f qs b).olen.toNat = b.length := by
  have hcap := dCap_lt hp
  exact (BitVec.toNat_ofNat _ _).trans (Nat.mod_eq_of_lt (by omega))

theorem exec_hide_of_error_afterDraw {s : State} {r : CmdResult} {e : CmdErr}
    (hexec : exec .hide s = .next (s.afterDraw.complete r)) (h : r = .error e) :
    ∃ t, exec .hide s = .next t ∧ t.FailedWith e.kind.code e.info0 e.info1 ∧ Untouched s t ∧
      OneDraw s t :=
  ⟨_, hexec, h ▸ failedWith_complete_error e s.afterDraw, untouched_afterDraw_complete r s,
    oneDraw_afterDraw_complete r s⟩

/-- `HIDE` whose operand checks pass completes behind one draw. -/
theorem exec_hide_of_fits {s : State} (hpw : s.opnd.pwlen.toNat ≤ s.env.par.pwCap)
    (hs : s.sampleCount ≤ s.env.par.sCap) (h : (hideBlob s).length ≤ s.env.par.dCap) :
    exec .hide s = .next (s.afterDraw.complete (hideResult s.nextDraw s)) :=
  execHide_of_checks (hideChecks_of_fits hpw hs (length_hideBlob s ▸ h))

/-- Settles O55: the operand checks in their order, then the ways `HIDE` ends behind its draw. -/
theorem hideCommand : Obligations.HideCommand := by
  refine ⟨rfl, fun s e b hp he hb => ?_⟩
  obtain rfl : b = hideBlob s := by rw [hb, he]; rfl
  have hl := length_hideBlob s
  refine ⟨hl, fun hpw => ?password, fun hpw hd => ?data, fun hpw hd hs => ?samples,
    fun hpw hd hs hsize => ?output, fun hpw hs hfit => ?_⟩
  case password =>
    exact exec_of_operandRange (exec_hide_of_check (hideChecks_of_password_gt hpw)) rfl
  case data => exact exec_of_operandRange (exec_hide_of_check (hideChecks_of_data_gt hpw hd)) rfl
  case samples =>
    exact ⟨_, exec_hide_of_check (hideChecks_of_samples_gt hpw hd hs),
      failedWith_complete_sampleRange s, untouched_complete _ s, noDraw_complete _ s⟩
  case output =>
    rw [hl] at hsize ⊢
    exact exec_of_operandRange (exec_hide_of_check (hideChecks_of_output_gt hpw hd hs hsize)) rfl
  have hexec := exec_hide_of_fits hpw hs hfit
  refine ⟨fun hok => ?encryption, fun hok i0 f hf => ?overflow, fun hok qs h hlt => ?capacity,
    fun hok qs h hle => ?hides⟩
  case encryption =>
    have hfail := exec_hide_of_error_afterDraw hexec (hideResult_of_not_ok hok)
    exact hfail
  case overflow =>
    have hfail := exec_hide_of_error_afterDraw hexec (hideResult_of_sampleFailsAt hok hf)
    exact hfail
  case capacity =>
    have ⟨_, hlen, _⟩ := h
    have hfail := exec_hide_of_error_afterDraw hexec (hideResult_of_lt hok h (hlen ▸ hlt))
    rwa [hlen] at hfail
  case hides =>
    have ⟨_, hlen, _⟩ := h
    rw [hideResult_of_le hok h (hlen ▸ hle)] at hexec
    refine ⟨_, hexec, succeeded_complete_ok _ _, ?_, toNat_hideOut_olen hp hfit _ _,
      Memory.read_writeRun_cleared _, fun i => ?_, rfl, rfl, rfl, ⟨rfl, rfl⟩, allZero_cleared,
      untouched_afterDraw_complete _ s, oneDraw_afterDraw_complete _ s⟩
    · have hcount := (length_embedBytes (hlen ▸ hle)).trans hlen
      exact (toNat_ofNat_of_le_sampleCount hp hs hcount.le).trans hcount
    · rw [← hlen]
      exact read_hideOut_sout (hlen ▸ hle) _ i

/-! ### The bytes that embedded LSBs spell (R199, R203) -/

theorem map_getLsb_embedBits {qs : List Int} {bs : List Bool} (h : bs.length ≤ qs.length) :
    (embedBits qs bs).map getLsb = bs ++ (qs.drop bs.length).map getLsb := by
  induction qs generalizing bs with
  | nil =>
    rw [List.length_eq_zero_iff.1 (Nat.le_zero.1 h)]
    rfl
  | cons q qs ih =>
    cases bs with
    | nil => rfl
    | cons b bs =>
      rw [embedBits, List.map_cons, getLsb_setLsb, ih (Nat.le_of_succ_le_succ h)]
      rfl

/-- The bits of a byte string are those of its first byte, then those of the rest. -/
theorem bitsOf_cons (v : Byte) (vs : List Byte) :
    bitsOf (v :: vs) (8 * (v :: vs).length) =
      (List.range 8).map (fun k => v.getLsbD (7 - k)) ++ bitsOf vs (8 * vs.length) := by
  have hlen : 8 * (v :: vs).length = 8 + 8 * vs.length := by rw [List.length_cons]; omega
  rw [hlen, bitsOf, List.range_add, List.map_append, List.map_map, bitsOf]
  refine congrArg₂ (· ++ ·) (List.map_congr_left fun k hk => ?first)
    (List.map_congr_left fun k _ => ?rest)
  case first => exact bitOf_cons_of_lt v vs (List.mem_range.1 hk)
  case rest => rw [Function.comp_apply, Nat.add_comm, bitOf_cons_add_eight]

theorem byteOfBits_getLsbD : ∀ v : Byte,
    byteOfBits (v.getLsbD 7) (v.getLsbD 6) (v.getLsbD 5) (v.getLsbD 4) (v.getLsbD 3) (v.getLsbD 2)
      (v.getLsbD 1) (v.getLsbD 0) = v := by decide

/-- The bits of a byte string spell the string, and the bits behind them what they spell alone. -/
theorem bytesOf_bitsOf_append (b : List Byte) (rest : List Bool) :
    bytesOf (bitsOf b (8 * b.length) ++ rest) = b ++ bytesOf rest := by
  induction b with
  | nil => rfl
  | cons v vs ih =>
    rw [bitsOf_cons, List.append_assoc, List.cons_append, ← ih]
    exact congrArg (· :: _) (byteOfBits_getLsbD v)

/-- The LSBs of samples with a byte string embedded spell the string first. -/
theorem lsbBytes_embedBytes {qs : List Int} {b : List Byte} (h : 8 * b.length ≤ qs.length) :
    lsbBytes (embedBytes qs b) = b ++ lsbBytes (qs.drop (8 * b.length)) := by
  rw [lsbBytes, embedBytes, map_getLsb_embedBits (by rwa [length_bitsOf]), length_bitsOf,
    bytesOf_bitsOf_append, lsbBytes]

/-! ### `REVEAL` on what `HIDE` delivers (R227) -/

/-- Samples dequantized from int16 values, taken as input again, quantize to those values. -/
theorem quantizesTo_of_samplesOut {s : State} {qs : List Int} {f : Flen} (hf : s.env.par.flen = f)
    (hsin : s.bufs.sin = (samplesOut f qs).sout) (hs : s.sampleCount ≤ s.env.par.sCap)
    (hl : qs.length = s.sampleCount)
    (hq : ∀ i, i < qs.length → -32768 ≤ qs.getD i 0 ∧ qs.getD i 0 ≤ 32767) : s.QuantizesTo qs := by
  refine ⟨hs, hl, fun i hi => ?_⟩
  rw [← hl] at hi
  obtain ⟨hlow, hhigh⟩ := hq i hi
  rw [hsin, hf, read_samplesOut_sout, if_pos hi]
  exact quantInvertsDequant f _ hlow hhigh

/-- Quantized samples are int16 values. -/
theorem State.QuantizesTo.range {s : State} {qs : List Int} (h : s.QuantizesTo qs) {i : Nat}
    (hi : i < qs.length) : -32768 ≤ qs.getD i 0 ∧ qs.getD i 0 ≤ 32767 := by
  obtain ⟨-, hl, hq⟩ := h
  exact quant1_range (hq i (hl ▸ hi))

/-- A `HIDE` that succeeds passed its operand checks, quantized its samples and embedded its blob. -/
theorem exec_hide_succeeded {s t : State} (hexec : exec .hide s = .next t) (hsucc : t.Succeeded) :
    hideChecks s = .ok () ∧ ∃ qs, s.QuantizesTo qs ∧ 8 * (hideBlob s).length ≤ qs.length ∧
      t.out = hideOut s.env.par.flen qs (hideBlob s) := by
  cases hchecks : hideChecks s with
  | error e =>
    obtain rfl := Host.Outcome.next.inj ((exec_hide_of_check hchecks).symm.trans hexec)
    obtain ⟨o, ho⟩ := ok_of_succeeded_complete hsucc
    cases ho
  | ok u =>
    obtain rfl := Host.Outcome.next.inj ((execHide_of_checks hchecks).symm.trans hexec)
    obtain ⟨o, ho⟩ := ok_of_succeeded_complete hsucc
    obtain ⟨-, -, hs, -⟩ := hideChecks_eq_ok.1 hchecks
    obtain ⟨qs, h, hle, rfl⟩ := hideResult_eq_ok hs ho
    exact ⟨rfl, qs, h, hle, by rw [State.complete_out, ho, resultOutputs_ok]⟩

/-- Settles O57: the delivered samples quantize to the embedded integers, whose LSBs spell the blob
first; its first delimiter is the one behind the envelope, which decrypts. -/
theorem hideThenRevealGivesThePlaintext : Obligations.HideThenRevealGivesThePlaintext := by
  intro s t hp hexec hsucc hutf hfirst s' hpar hpwlen hpw hchan hfrm hsin
  obtain ⟨hchecks, qs, h, hle, hout⟩ := exec_hide_succeeded hexec hsucc
  obtain ⟨hpwfit, -, hs, hfit⟩ := hideChecks_eq_ok.1 hchecks
  have ⟨_, hl, _⟩ := h
  have hcount : s'.sampleCount = s.sampleCount := by
    rw [State.sampleCount, hchan, hfrm, State.sampleCount]
  have hquant' : s'.QuantizesTo (embedBytes qs (hideBlob s)) :=
    quantizesTo_of_samplesOut (congrArg Params.flen hpar) (by rw [hsin, hout, hideOut_sout])
      (by rwa [hcount, hpar]) (by rw [length_embedBytes hle, hl, hcount])
      fun i hi => embedBytes_range hle (fun _ => h.range) (length_embedBytes hle ▸ hi)
  have holen : t.out.olen.toNat = (hideBlob s).length := by
    rw [hout]
    exact toNat_hideOut_olen hp (length_hideBlob s ▸ hfit) _ _
  have hdout : Memory.readRun t.out.dout 0 (hideBlob s).length = hideBlob s := by
    rw [hout]
    exact Memory.readRun_writeRun_cleared _
  have henv : (hideBlob s).length - 23 = (encEnvelope s).length := by
    rw [hideBlob, length_blob, Nat.add_sub_cancel]
  rw [holen, hdout, henv] at hfirst
  have hlsb := lsbBytes_embedBytes hle
  have hfirst' : FirstDelimiterAt (lsbBytes (embedBytes qs (hideBlob s))) (encEnvelope s).length :=
    hlsb ▸ firstDelimiterAt_append hfirst _
  have hdec : decryptBytes ((lsbBytes (embedBytes qs (hideBlob s))).take (encEnvelope s).length)
      s'.password = .ok s.data := by
    rw [hlsb, hideBlob, blob, List.append_assoc, List.take_left' rfl, password_congr hpwlen hpw]
    exact decryptBytes_envelope s.nextDraw.iv.length_toList s.password hutf
  obtain ⟨t', hexec', hdel, -⟩ := exec_reveal_of_decrypts (by rwa [hpwlen, hpar]) hquant'
    (hpar ▸ hp) hfirst' hdec
  exact ⟨t', hexec', hdel⟩

end Sys2Proof.Machine

/-! The capacity family (46_capacity.md): the size of a blob and O60; the 64-bit result of a scalar
command, then `CAP` and O58, `RQB` and O59. -/

namespace Sys2Proof.Machine

/-! ### What `CAP` promises (R237) -/

/-- R236's figure by the integer floor, which does not stop at 0. -/
theorem maxUsableBytes_eq (samples : Nat) : maxUsableBytes samples = (samples : Int) / 8 - 55 := by
  rw [maxUsableBytes, Int.natCast_ediv, Nat.cast_ofNat]

/-- Hiding adds at most 55 bytes: the IV, one full block of padding and the delimiter. -/
theorem blobSize_le (n : Nat) : blobSize n ≤ n + 55 := by
  rw [blobSize, envelopeSize]
  omega

/-- Settles O60: the 55 bytes that `CAP` takes off cover what hiding adds at worst. -/
theorem capIsSufficient : Obligations.CapIsSufficient := by
  intro length samples h
  rw [maxUsableBytes_eq] at h
  have hsize := blobSize_le length
  omega

/-! ### The scalar result (R34) -/

/-- The two words of a scalar side by side are its 64-bit two's complement. -/
theorem ofInt_div_append_ofInt (res : Int) :
    (BitVec.ofInt 32 (res / 2 ^ 32) ++ BitVec.ofInt 32 res : BitVec 64) = BitVec.ofInt 64 res := by
  refine BitVec.eq_of_toNat_eq ?_
  rw [BitVec.toNat_append, ← Nat.shiftLeft_add_eq_or_of_lt (BitVec.ofInt 32 res).isLt]
  simp only [BitVec.toNat_ofInt, Nat.shiftLeft_eq]
  omega

/-- A scalar that fits 64 bits is read back from `RESH` and `RESL`. -/
theorem toInt_scalarOut {res : Int} (hlow : -2 ^ 63 ≤ res) (hhigh : res < 2 ^ 63) :
    ((scalarOut res).resh ++ (scalarOut res).resl : BitVec 64).toInt = res :=
  (congrArg BitVec.toInt (ofInt_div_append_ofInt res)).trans
    (BitVec.toInt_ofInt_eq_self (by decide) hlow hhigh)

/-- Success with the scalar `res` and no other output, without a draw (R34, R235). -/
def DeliversScalar (s t : State) (res : Int) : Prop :=
  t.Succeeded ∧ (t.out.resh ++ t.out.resl : BitVec 64).toInt = res ∧
    t.out.olen = 0 ∧ t.out.obits = 0 ∧ t.out.ons = 0 ∧ t.out.NoContext ∧ AllZero t.out.dout ∧
    AllZero t.out.sout ∧ AllZero t.out.qout ∧ Untouched s t ∧ NoDraw s t

/-- A completion with a scalar delivers it, when it fits 64 bits. -/
theorem deliversScalar_complete {res : Int} (hlow : -2 ^ 63 ≤ res) (hhigh : res < 2 ^ 63)
    (s : State) : DeliversScalar s (s.complete (.ok (scalarOut res))) res :=
  ⟨succeeded_complete_ok _ s, toInt_scalarOut hlow hhigh, rfl, rfl, rfl, ⟨rfl, rfl⟩,
    allZero_cleared, allZero_cleared, allZero_cleared, untouched_complete _ s, noDraw_complete _ s⟩

/-! ### `CAP` (R236) and `RQB` (R239) -/

theorem exec_cap (s : State) :
    exec .cap s = .next (s.complete (.ok (scalarOut ((s.opnd.arg.toNat : Int) / 8 - 55)))) := by
  rw [← maxUsableBytes_eq]
  rfl

/-- Settles O58: the figure of a 32-bit `ARG` lies well inside 64 signed bits. -/
theorem capCommand : Obligations.CapCommand := by
  refine ⟨decode_encode .cap, fun s => ⟨_, exec_cap s, ?_⟩⟩
  have harg := s.opnd.arg.isLt
  exact deliversScalar_complete (by omega) (by omega) s

theorem requiredBits_eq (n : Nat) : requiredBits n = 8 * (n : Int) := Int.natCast_mul 8 n

theorem exec_rqb (s : State) :
    exec .rqb s = .next (s.complete (.ok (scalarOut (8 * (s.opnd.arg.toNat : Int))))) := by
  rw [← requiredBits_eq]
  rfl

/-- Settles O59: eight times a 32-bit `ARG` needs 35 bits, so the upper word carries no sign. -/
theorem rqbCommand : Obligations.RqbCommand := by
  refine ⟨decode_encode .rqb, fun s => ⟨_, exec_rqb s, ?_⟩⟩
  have harg := s.opnd.arg.isLt
  exact deliversScalar_complete (by omega) (by omega) s

end Sys2Proof.Machine

/-! The encoding family, its rest: O1 and O2. -/

namespace Sys2Proof

-- as in the tests: theorems checked side by side need more threads than the memory limit allows
set_option Elab.async false

/-- Settles O1: each row's word is the one the encoder makes of its command. -/
theorem tableWordsDecode : Obligations.TableWordsDecode :=
  ⟨decode_encode .kdf, decode_encode .enc, decode_encode .dec, decode_encode .qnt,
    decode_encode .emb, decode_encode (.ext false), decode_encode (.ext true), decode_encode .xtd,
    decode_encode .hide, decode_encode .reveal, decode_encode .cap, decode_encode .rqb⟩

/-- Settles O2: `decode` answers by the fields of the word, and the fields make up the word. -/
theorem decodeInvertsEncode : Obligations.DecodeInvertsEncode := fun _ _ => decode_eq_ok_iff

end Sys2Proof

/-! What every completion leaves: the result that each command completes with, its frame and O24;
the outputs by command and O25; the error kinds by command, O26 and O27. -/

namespace Sys2Proof.Machine

-- as in the tests: theorems checked side by side need more threads than the memory limit allows
set_option Elab.async false

/-! ### The result of a command (R51, R98) -/

/-- What the command `i` ends with in the state `s`: `ENC` and `HIDE` go on with the answer of their
draw when their operand checks pass. -/
def commandResult (s : State) : Instr → CmdResult
  | .kdf => kdfResult s
  | .enc => encChecks s >>= fun _ => encResult s.nextDraw s
  | .dec => decResult s
  | .qnt => qntResult s
  | .emb => embResult s
  | .ext mb => extResult mb s
  | .xtd => xtdResult s
  | .hide => hideChecks s >>= fun _ => hideResult s.nextDraw s
  | .reveal => revealResult s
  | .cap => .ok (scalarOut (maxUsableBytes s.opnd.arg.toNat))
  | .rqb => .ok (scalarOut (requiredBits s.opnd.arg.toNat))

/-- Every command completes with its result, behind a draw or without one. -/
theorem exec_eq_complete (i : Instr) (s : State) :
    exec i s = .next (s.complete (commandResult s i)) ∨
      (i = .enc ∨ i = .hide) ∧ exec i s = .next (s.afterDraw.complete (commandResult s i)) := by
  cases i with
  | enc =>
    cases h : encChecks s with
    | error e => left; simp only [exec_enc, execEnc, commandResult, h]; rfl
    | ok u => right; exact ⟨.inl rfl, by simp only [exec_enc, execEnc, commandResult, h]; rfl⟩
  | hide =>
    cases h : hideChecks s with
    | error e => left; simp only [exec_hide, execHide, commandResult, h]; rfl
    | ok u => right; exact ⟨.inr rfl, by simp only [exec_hide, execHide, commandResult, h]; rfl⟩
  | _ => exact .inl rfl

/-- The two forms a completed state can have. -/
theorem exec_eq_next {i : Instr} {s t : State} (h : exec i s = .next t) :
    t = s.complete (commandResult s i) ∨
      (i = .enc ∨ i = .hide) ∧ t = s.afterDraw.complete (commandResult s i) := by
  rcases exec_eq_complete i s with he | ⟨hi, he⟩
  · exact .inl (Host.Outcome.next.inj (h.symm.trans he))
  · exact .inr ⟨hi, Host.Outcome.next.inj (h.symm.trans he)⟩

/-- `STATUS` and the outputs of a completion are those of the command's result. -/
theorem exec_status_out {i : Instr} {s t : State} (h : exec i s = .next t) :
    t.status = resultStatus (commandResult s i) ∧ t.out = resultOutputs (commandResult s i) := by
  rcases exec_eq_next h with rfl | ⟨-, rfl⟩ <;> exact ⟨rfl, rfl⟩

/-- No command stops the machine. -/
theorem exists_exec (i : Instr) (s : State) : ∃ t, exec i s = .next t := by
  rcases exec_eq_complete i s with h | ⟨-, h⟩ <;> exact ⟨_, h⟩

/-- Settles O24: the frame is that of a completion, with the draw or without it. -/
theorem completionFrame : Obligations.CompletionFrame := by
  intro i s t h
  rcases exec_eq_next h with rfl | ⟨hi, rfl⟩
  · exact ⟨untouched_complete _ s, rfl, resultStatus_busy _, resultStatus_done _,
      .inl (noDraw_complete _ s)⟩
  · exact ⟨untouched_afterDraw_complete _ s, rfl, resultStatus_busy _, resultStatus_done _,
      .inr ⟨hi, oneDraw_afterDraw_complete _ s⟩⟩

/-! ### What a command delivers (R54) -/

/-- The outputs that the command `i` can deliver on the instance `p`: of which form they are and how
long. -/
def Produces (p : Params) (o : Outputs) : Instr → Prop
  | .kdf | .enc | .dec | .xtd | .reveal =>
    ∃ b, (p.ok = true → b.length ≤ p.dCap) ∧ o = bytesOut b
  | .ext _ => ∃ b, b.length ≤ p.sCap ∧ o = bitsOut b
  | .qnt => ∃ qs, qs.length ≤ p.sCap ∧ o = qntOut qs
  | .emb => ∃ qs, qs.length ≤ p.sCap ∧ o = samplesOut p.flen qs
  | .hide => ∃ qs b, qs.length ≤ p.sCap ∧ 8 * b.length ≤ qs.length ∧ b.length ≤ p.dCap ∧
      o = hideOut p.flen qs b
  | .cap | .rqb => ∃ res, o = scalarOut res

/-- The smallest `DOUT` holds a key (R9). -/
theorem le_dCap {p : Params} (h : p.ok = true) : 64 ≤ p.dCap := by
  simp only [Params.ok, Params.dCapOk, Bool.and_eq_true, decide_eq_true_eq] at h
  omega

/-- `DOUT` has a bit for each sample (R10). -/
theorem sCap_le {p : Params} (h : p.ok = true) : p.sCap ≤ 8 * p.dCap := by
  simp only [Params.ok, Params.sCapOk, Bool.and_eq_true, decide_eq_true_eq] at h
  omega

section
variable {s : State} {o : Outputs}

theorem kdfResult_eq_ok (h : kdfResult s = .ok o) : o = bytesOut (deriveKey s.password) := by
  obtain ⟨-, -, hout⟩ := except_bind_eq_ok.1 h
  exact (Except.ok.inj hout).symm

theorem encResult_eq_ok {d : Draw} (h : encResult d s = .ok o) :
    ∃ e, e.length = envelopeSize s.opnd.dlen.toNat ∧ o = bytesOut e := by
  obtain ⟨e, he, hout⟩ := except_bind_eq_ok.1 h
  exact ⟨e, by rw [length_encryptBytes he, length_data], (Except.ok.inj hout).symm⟩

theorem decResult_eq_ok (h : decResult s = .ok o) :
    ∃ m, m.length ≤ s.env.par.dCap ∧ o = bytesOut m := by
  obtain ⟨-, -, h⟩ := except_bind_eq_ok.1 h
  obtain ⟨⟨⟩, hdata, h⟩ := except_bind_eq_ok.1 h
  obtain ⟨m, hm, hout⟩ := except_bind_eq_ok.1 h
  have hle := length_decryptBytes hm
  rw [length_data] at hle
  exact ⟨m, hle.trans (checkData_eq_ok.1 hdata), (Except.ok.inj hout).symm⟩

theorem qntResult_eq_ok (h : qntResult s = .ok o) :
    ∃ qs, qs.length ≤ s.env.par.sCap ∧ o = qntOut qs := by
  obtain ⟨qs, hqs, hout⟩ := except_bind_eq_ok.1 h
  obtain ⟨hle, -, hl⟩ := quantized_eq_ok hqs
  exact ⟨qs, hl ▸ hle, (Except.ok.inj hout).symm⟩

theorem extResult_eq_ok {mb : Bool} (h : extResult mb s = .ok o) :
    ∃ b, b.length ≤ s.env.par.sCap ∧ o = bitsOut b := by
  obtain ⟨qs, hqs, hout⟩ := except_bind_eq_ok.1 h
  obtain ⟨hle, -, hl⟩ := quantized_eq_ok hqs
  have hcount := extCount_le mb s qs.length
  exact ⟨firstLsbs qs (extCount mb s qs.length), by rw [length_firstLsbs hcount]; omega,
    (Except.ok.inj hout).symm⟩

/-- What stands before a delimiter in the samples fits `DOUT`. -/
theorem length_xtd_le {qs : List Int} {y : List Byte} (hp : s.env.par.ok = true)
    (hqs : s.quantized = .ok qs) (hy : xtd qs = .ok y) : y.length ≤ s.env.par.dCap := by
  obtain ⟨hle, -, hl⟩ := quantized_eq_ok hqs
  have hlen := length_xtd hy
  have hcap := sCap_le hp
  omega

theorem xtdResult_eq_ok (h : xtdResult s = .ok o) :
    ∃ y, (s.env.par.ok = true → y.length ≤ s.env.par.dCap) ∧ o = bytesOut y := by
  obtain ⟨qs, hqs, h⟩ := except_bind_eq_ok.1 h
  obtain ⟨y, hy, hout⟩ := except_bind_eq_ok.1 h
  exact ⟨y, fun hp => length_xtd_le hp hqs hy, (Except.ok.inj hout).symm⟩

theorem revealResult_eq_ok (h : revealResult s = .ok o) :
    ∃ m, (s.env.par.ok = true → m.length ≤ s.env.par.dCap) ∧ o = bytesOut m := by
  obtain ⟨-, -, h⟩ := except_bind_eq_ok.1 h
  obtain ⟨qs, hqs, h⟩ := except_bind_eq_ok.1 h
  obtain ⟨y, hy, h⟩ := except_bind_eq_ok.1 h
  obtain ⟨m, hm, hout⟩ := except_bind_eq_ok.1 h
  exact ⟨m, fun hp => (length_decryptBytes hm).trans (length_xtd_le hp hqs hy),
    (Except.ok.inj hout).symm⟩

/-- A command that ends without error delivers outputs of its own form, inside the buffers. -/
theorem produces_of_commandResult {i : Instr} (h : commandResult s i = .ok o) :
    Produces s.env.par o i := by
  cases i with
  | kdf =>
    refine ⟨_, fun hp => ?_, kdfResult_eq_ok h⟩
    have hcap := le_dCap hp
    rw [length_deriveKey]
    omega
  | enc =>
    obtain ⟨⟨⟩, hchecks, hres⟩ := except_bind_eq_ok.1 h
    obtain ⟨-, -, hfit⟩ := encChecks_eq_ok.1 hchecks
    obtain ⟨e, hl, hout⟩ := encResult_eq_ok hres
    exact ⟨e, fun _ => hl ▸ hfit, hout⟩
  | dec =>
    obtain ⟨m, hle, hout⟩ := decResult_eq_ok h
    exact ⟨m, fun _ => hle, hout⟩
  | qnt => exact qntResult_eq_ok h
  | emb =>
    obtain ⟨qs, ⟨hcap, hl, -⟩, hle, hout⟩ := embResult_eq_ok h
    exact ⟨_, by rwa [length_embedded hle, hl], hout⟩
  | ext mb => exact extResult_eq_ok h
  | xtd => exact xtdResult_eq_ok h
  | hide =>
    obtain ⟨⟨⟩, hchecks, hres⟩ := except_bind_eq_ok.1 h
    obtain ⟨-, -, hs, hfit⟩ := hideChecks_eq_ok.1 hchecks
    obtain ⟨qs, ⟨-, hl, -⟩, hle, hout⟩ := hideResult_eq_ok hs hres
    exact ⟨qs, hideBlob s, hl ▸ hs, hle, length_hideBlob s ▸ hfit, hout⟩
  | reveal => exact revealResult_eq_ok h
  | cap => exact ⟨_, (Except.ok.inj h).symm⟩
  | rqb => exact ⟨_, (Except.ok.inj h).symm⟩

end

/-- A completion shows outputs of the command's form, or the context of an error. -/
theorem exec_out_cases {i : Instr} {s t : State} (h : exec i s = .next t) :
    t.status = .completed ∧ Produces s.env.par t.out i ∨
      ∃ e, commandResult s i = .error e ∧ t.status = .failed e.kind ∧ t.out = e.outputs := by
  obtain ⟨hstatus, hout⟩ := exec_status_out h
  cases hr : commandResult s i with
  | ok o =>
    rw [hr] at hstatus hout
    exact .inl ⟨hstatus, by rw [hout]; exact produces_of_commandResult hr⟩
  | error e =>
    rw [hr] at hstatus hout
    exact .inr ⟨e, rfl, hstatus, hout⟩

/-- The outputs of an error are cleared but for the context words. -/
theorem cleared_errOutputs (e : CmdErr) : e.outputs.Cleared :=
  ⟨rfl, rfl, rfl, rfl, rfl, allZero_cleared, allZero_cleared, allZero_cleared⟩

/-- No command that ends without error writes the context words. -/
theorem noContext_of_produces {p : Params} {o : Outputs} {i : Instr} (h : Produces p o i) :
    o.NoContext := by
  cases i with
  | kdf | enc | dec | xtd | reveal => obtain ⟨b, -, rfl⟩ := h; exact ⟨rfl, rfl⟩
  | qnt | emb | ext => obtain ⟨x, -, rfl⟩ := h; exact ⟨rfl, rfl⟩
  | hide => obtain ⟨qs, b, -, -, -, rfl⟩ := h; exact ⟨rfl, rfl⟩
  | cap | rqb => obtain ⟨res, rfl⟩ := h; exact ⟨rfl, rfl⟩

/-- The commands that deliver a byte string in `DOUT` alone. -/
theorem bytes_of_produces {p : Params} {o : Outputs} {i : Instr} (h : Produces p o i)
    (hi : i = .kdf ∨ i = .enc ∨ i = .dec ∨ i = .xtd ∨ i = .reveal ∨ ∃ mb, i = .ext mb) :
    ∃ b n, o = { bytesOut b with obits := n } := by
  rcases hi with rfl | rfl | rfl | rfl | rfl | ⟨mb, rfl⟩ <;> obtain ⟨b, -, rfl⟩ := h <;>
    exact ⟨_, _, rfl⟩

/-- Only `EXT` counts bits. -/
theorem obits_of_produces {p : Params} {o : Outputs} {i : Instr} (h : Produces p o i)
    (hi : ∀ mb, i ≠ .ext mb) : o.obits = 0 := by
  cases i with
  | ext mb => exact absurd rfl (hi mb)
  | kdf | enc | dec | xtd | reveal => obtain ⟨b, -, rfl⟩ := h; rfl
  | qnt | emb => obtain ⟨x, -, rfl⟩ := h; rfl
  | hide => obtain ⟨qs, b, -, -, -, rfl⟩ := h; rfl
  | cap | rqb => obtain ⟨res, rfl⟩ := h; rfl

/-- Settles O25: by the form of what the command delivers; an error delivers nothing. -/
theorem unproducedOutputsAreZero : Obligations.UnproducedOutputsAreZero := by
  intro i s t h
  rcases exec_out_cases h with ⟨-, hprod⟩ | ⟨e, -, -, hout⟩
  case inl =>
    refine ⟨fun hi => ?_, fun hi => ?_, fun hi => ?_, fun hi => ?_, fun hi => ?_,
      obits_of_produces hprod⟩
    · obtain ⟨b, n, hout⟩ := bytes_of_produces hprod hi
      rw [hout]
      exact ⟨rfl, rfl, rfl, allZero_cleared, allZero_cleared⟩
    · obtain ⟨qs, -, hout⟩ := hi ▸ hprod
      rw [hout]
      exact ⟨rfl, rfl, rfl, allZero_cleared, allZero_cleared⟩
    · obtain ⟨qs, -, hout⟩ := hi ▸ hprod
      rw [hout]
      exact ⟨rfl, rfl, rfl, allZero_cleared, allZero_cleared⟩
    · obtain ⟨qs, b, -, -, -, hout⟩ := hi ▸ hprod
      rw [hout]
      exact ⟨rfl, rfl, allZero_cleared⟩
    · obtain ⟨res, hout⟩ : ∃ res, t.out = scalarOut res := by
        rcases hi with rfl | rfl <;> exact hprod
      rw [hout]
      exact ⟨rfl, rfl, allZero_cleared, allZero_cleared, allZero_cleared⟩
  case inr =>
    obtain ⟨holen, hobits, hons, hresl, hresh, hdout, hsout, hqout⟩ := cleared_errOutputs e
    rw [hout]
    exact ⟨fun _ => ⟨hons, hresl, hresh, hsout, hqout⟩,
      fun _ => ⟨holen, hresl, hresh, hdout, hsout⟩, fun _ => ⟨holen, hresl, hresh, hdout, hqout⟩,
      fun _ => ⟨hresl, hresh, hqout⟩, fun _ => ⟨holen, hons, hdout, hsout, hqout⟩, fun _ => hobits⟩

theorem code_ne_zero (k : ErrKind) : k.code ≠ 0 := by cases k <;> decide

/-- Settles O26: the two ways a command can complete. -/
theorem errorLeavesOnlyItsContext : Obligations.ErrorLeavesOnlyItsContext := by
  intro i s t h
  rcases exec_out_cases h with ⟨hstatus, hprod⟩ | ⟨e, -, hstatus, hout⟩
  · rw [hstatus]
    exact ⟨fun herr => absurd herr (by decide), fun _ => ⟨rfl, noContext_of_produces hprod⟩⟩
  · rw [hstatus, hout]
    exact ⟨fun _ => ⟨cleared_errOutputs e, code_ne_zero e.kind⟩,
      fun herr => Bool.noConfusion herr⟩

/-! ### Which errors a command can end with (R246) -/

/-- What is computed fails, if at all, with one of these kinds. -/
def FailsIn {α : Type} (ks : List ErrKind) (r : Except CmdErr α) : Prop :=
  ∀ e, r = .error e → e.kind ∈ ks

theorem failsIn_ok {α : Type} (ks : List ErrKind) (a : α) : FailsIn ks (.ok a) :=
  fun _ h => nomatch h

/-- An error stated with its kind. -/
theorem failsIn_error {α : Type} {ks : List ErrKind} {e : CmdErr} (h : e.kind ∈ ks) :
    FailsIn ks (.error e : Except CmdErr α) := by
  rintro _ ⟨⟩
  exact h

theorem FailsIn.bind {α β : Type} {ks : List ErrKind} {x : Except CmdErr α}
    {f : α → Except CmdErr β} (hx : FailsIn ks x) (hf : ∀ a, FailsIn ks (f a)) :
    FailsIn ks (x >>= f) := by
  intro e h
  rcases except_bind_eq_error.1 h with h | ⟨a, -, h⟩
  · exact hx e h
  · exact hf a e h

theorem failsIn_ite {α : Type} {ks : List ErrKind} {c : Prop} [Decidable c]
    {x y : Except CmdErr α} (hx : FailsIn ks x) (hy : FailsIn ks y) :
    FailsIn ks (if c then x else y) := by
  split_ifs
  · exact hx
  · exact hy

section
variable {ks : List ErrKind}

section
variable (h : ErrKind.operandRange ∈ ks) (s : State)
include h

theorem failsIn_checkPassword : FailsIn ks s.checkPassword :=
  failsIn_ite (failsIn_error h) (failsIn_ok _ _)

theorem failsIn_checkData : FailsIn ks s.checkData :=
  failsIn_ite (failsIn_error h) (failsIn_ok _ _)

theorem failsIn_checkSamples : FailsIn ks s.checkSamples :=
  failsIn_ite (failsIn_error h) (failsIn_ok _ _)

theorem failsIn_checkOutput (n : Nat) : FailsIn ks (s.checkOutput n) :=
  failsIn_ite (failsIn_error h) (failsIn_ok _ _)

theorem failsIn_encChecks : FailsIn ks (encChecks s) :=
  (failsIn_checkPassword h s).bind fun _ => (failsIn_checkData h s).bind fun _ =>
    failsIn_checkOutput h s _

theorem failsIn_hideChecks : FailsIn ks (hideChecks s) :=
  (failsIn_checkPassword h s).bind fun _ => (failsIn_checkData h s).bind fun _ =>
    (failsIn_checkSamples h s).bind fun _ => failsIn_checkOutput h s _

end

theorem failsIn_checkCapacity (h : ErrKind.insufficientCapacity ∈ ks) (r a : Nat) :
    FailsIn ks (checkCapacity r a) :=
  failsIn_ite (failsIn_error h) (failsIn_ok _ _)

theorem failsIn_encryptBytes (h : ErrKind.encryptionError ∈ ks) (d : Draw) (pw m : List Byte) :
    FailsIn ks (encryptBytes d pw m) :=
  failsIn_ite (failsIn_ok _ _) (failsIn_error h)

theorem failsIn_quantFrom (h : ErrKind.sampleOverflow ∈ ks) (f : Flen) (i : Nat)
    (as : List Sample) : FailsIn ks (quantFrom f i as) := by
  induction as generalizing i with
  | nil => exact failsIn_ok _ _
  | cons a as ih =>
    cases hq : quant1 f a with
    | error e => rw [quantFrom_cons_of_error hq]; exact failsIn_error h
    | ok q =>
      rw [quantFrom_cons_of_ok hq]
      cases htail : quantFrom f (i + 1) as with
      | error e => exact failsIn_error (ih (i + 1) e htail)
      | ok qs => exact failsIn_ok _ _

theorem failsIn_quantized (hs : ErrKind.sampleOverflow ∈ ks) (hr : ErrKind.operandRange ∈ ks)
    (s : State) : FailsIn ks s.quantized :=
  (failsIn_checkSamples hr s).bind fun _ => failsIn_quantFrom hs _ _ _

theorem failsIn_xtd (h : ErrKind.delimiterNotFound ∈ ks) (qs : List Int) : FailsIn ks (xtd qs) := by
  unfold xtd
  split
  · exact failsIn_ok _ _
  · exact failsIn_error h

theorem failsIn_unpad (h : ErrKind.invalidPadding ∈ ks) (p : List Byte) : FailsIn ks (unpad p) :=
  failsIn_ite (failsIn_error h) (failsIn_ite (failsIn_error h) (failsIn_ok _ _))

theorem failsIn_decryptBytes (he : ErrKind.malformedEnvelope ∈ ks)
    (hp : ErrKind.invalidPadding ∈ ks) (hu : ErrKind.invalidEncoding ∈ ks) (e pw : List Byte) :
    FailsIn ks (decryptBytes e pw) := by
  refine failsIn_ite (failsIn_error he) (failsIn_ite (failsIn_error he) ?_)
  split
  · next err hunpad => exact failsIn_error (failsIn_unpad hp _ err hunpad)
  · split
    · exact failsIn_error hu
    · exact failsIn_ok _ _

end

/-- The error kinds of each command, in the order of their codes (R246). -/
def errKinds : Instr → List ErrKind
  | .kdf => [.operandRange]
  | .enc => [.encryptionError, .operandRange]
  | .dec => [.malformedEnvelope, .invalidPadding, .invalidEncoding, .operandRange]
  | .qnt => [.sampleOverflow, .operandRange]
  | .emb => [.insufficientCapacity, .sampleOverflow, .operandRange]
  | .ext _ => [.sampleOverflow, .operandRange]
  | .xtd => [.delimiterNotFound, .sampleOverflow, .operandRange]
  | .hide => [.insufficientCapacity, .sampleOverflow, .encryptionError, .operandRange]
  | .reveal => [.delimiterNotFound, .malformedEnvelope, .invalidPadding, .invalidEncoding,
      .sampleOverflow, .operandRange]
  | .cap => []
  | .rqb => []

/-- A command fails with one of its own error kinds: those of the parts of its pseudocode. -/
theorem failsIn_commandResult (i : Instr) (s : State) :
    FailsIn (errKinds i) (commandResult s i) := by
  cases i with
  | kdf => exact (failsIn_checkPassword (by decide) s).bind fun _ => failsIn_ok _ _
  | enc =>
    exact (failsIn_encChecks (by decide) s).bind fun _ =>
      (failsIn_encryptBytes (by decide) _ _ _).bind fun _ => failsIn_ok _ _
  | dec =>
    exact (failsIn_checkPassword (by decide) s).bind fun _ =>
      (failsIn_checkData (by decide) s).bind fun _ =>
      (failsIn_decryptBytes (by decide) (by decide) (by decide) _ _).bind fun _ => failsIn_ok _ _
  | qnt => exact (failsIn_quantized (by decide) (by decide) s).bind fun _ => failsIn_ok _ _
  | emb =>
    exact (failsIn_quantized (by decide) (by decide) s).bind fun _ =>
      (failsIn_checkCapacity (by decide) _ _).bind fun _ => failsIn_ok _ _
  | ext mb => exact (failsIn_quantized (.head _) (.tail _ (.head _)) s).bind fun _ => failsIn_ok _ _
  | xtd =>
    exact (failsIn_quantized (by decide) (by decide) s).bind fun _ =>
      (failsIn_xtd (by decide) _).bind fun _ => failsIn_ok _ _
  | hide =>
    exact (failsIn_hideChecks (by decide) s).bind fun _ =>
      (failsIn_encryptBytes (by decide) _ _ _).bind fun _ =>
      (failsIn_quantFrom (by decide) _ _ _).bind fun _ =>
      (failsIn_checkCapacity (by decide) _ _).bind fun _ => failsIn_ok _ _
  | reveal =>
    exact (failsIn_checkPassword (by decide) s).bind fun _ =>
      (failsIn_quantized (by decide) (by decide) s).bind fun _ =>
      (failsIn_xtd (by decide) _).bind fun _ =>
      (failsIn_decryptBytes (by decide) (by decide) (by decide) _ _).bind fun _ => failsIn_ok _ _
  | cap => exact failsIn_ok _ _
  | rqb => exact failsIn_ok _ _

/-- `ECODE` after a command is 0 or the code of one of its error kinds. -/
theorem ecode_mem_of_exec {i : Instr} {s t : State} (h : exec i s = .next t) :
    t.status.ecode ∈ 0 :: (errKinds i).map ErrKind.code := by
  rcases exec_out_cases h with ⟨hstatus, -⟩ | ⟨e, hres, hstatus, -⟩
  · rw [hstatus]
    exact List.mem_cons_self
  · rw [hstatus]
    exact List.mem_cons_of_mem _ (List.mem_map_of_mem (failsIn_commandResult i s e hres))

/-- Settles O27: the codes by their table, the lists by the error kinds of each command. -/
theorem errorCodesOfEachCommand : Obligations.ErrorCodesOfEachCommand := by
  refine ⟨rfl, rfl, rfl, rfl, rfl, rfl, rfl, rfl, rfl, fun i s t h => ?_⟩
  have hmem := ecode_mem_of_exec h
  cases i <;> exact hmem

end Sys2Proof.Machine

/-! The invariant (10_state.md): good outputs and good states, operation by operation; O14 and
O15. -/

namespace Sys2Proof.Machine

-- as in the tests: theorems checked side by side need more threads than the memory limit allows
set_option Elab.async false

/-! ### Good outputs -/

theorem toNat_dequant1_lt (f : Flen) (q : Int) : (dequant1 f q).toNat < 2 ^ f.bits := by
  rw [dequant1, patternOf, BitVec.toNat_ofNat]
  exact (Nat.mod_le _ _).trans_lt (Nat.mod_lt _ (Nat.two_pow_pos _))

theorem samplesFit_writeRun_cleared {f : Flen} {vs : List Sample}
    (h : ∀ v ∈ vs, v.toNat < 2 ^ f.bits) :
    SamplesFit f (Memory.writeRun Memory.cleared 0 vs) := by
  rw [Memory.writeRun_cleared]
  intro c hc
  obtain ⟨-, -, -, hmem⟩ := Memory.mem_cells hc
  exact h _ hmem

/-- A run stored into a cleared buffer is good up to any length that covers it. -/
theorem good_writeRun_cleared {w n : Nat} {vs : List (BitVec w)} (h : vs.length ≤ n) :
    Memory.wf (Memory.writeRun Memory.cleared 0 vs) ∧
      Memory.within n (Memory.writeRun Memory.cleared 0 vs) :=
  ⟨Memory.wf_writeRun_cleared vs, fun c hc =>
    (Memory.within_writeRun_cleared vs c hc).trans_le h⟩

/-- Outputs are good whose buffers are runs from index 0, not longer than the length registers say,
which themselves keep to the capacities. -/
theorem good_outputs_of_runs {p : Params} (hp : p.ok = true) {b : List Byte} {ss : List Sample}
    {qs : List (BitVec 16)} {bits count : Nat} (hb : b.length ≤ p.dCap) (hbits : bits ≤ p.sCap)
    (hcount : count ≤ p.sCap) (hss : ss.length ≤ count) (hqs : qs.length ≤ count)
    (hfit : ∀ v ∈ ss, v.toNat < 2 ^ p.flen.bits) (resl resh einfo0 einfo1 : Word) :
    Outputs.Good p ⟨BitVec.ofNat 32 b.length, BitVec.ofNat 32 bits, BitVec.ofNat 32 count, resl,
      resh, einfo0, einfo1, Memory.writeRun Memory.cleared 0 b,
      Memory.writeRun Memory.cleared 0 ss, Memory.writeRun Memory.cleared 0 qs⟩ := by
  have hd := dCap_lt hp
  have hs := sCap_lt hp
  have small : ∀ n, n < 2 ^ 32 → (BitVec.ofNat 32 n).toNat = n := fun n hn =>
    (BitVec.toNat_ofNat _ _).trans (Nat.mod_eq_of_lt hn)
  have hb' := small b.length (by omega)
  have hbits' := small bits (by omega)
  have hcount' := small count (by omega)
  exact
    { dout := good_writeRun_cleared hb'.ge
      sout := good_writeRun_cleared (hss.trans hcount'.ge)
      qout := good_writeRun_cleared (hqs.trans hcount'.ge)
      fit := samplesFit_writeRun_cleared hfit
      olen := hb'.trans_le hb
      obits := hbits'.trans_le hbits
      ons := hcount'.trans_le hcount }

section
variable {p : Params} (hp : p.ok = true)
include hp

theorem good_bytesOut {b : List Byte} (hb : b.length ≤ p.dCap) : Outputs.Good p (bytesOut b) :=
  good_outputs_of_runs hp (ss := []) (qs := []) (bits := 0) (count := 0) hb (Nat.zero_le _)
    (Nat.zero_le _) le_rfl le_rfl (fun _ h => nomatch h) 0 0 0 0

theorem good_scalarOut (res : Int) : Outputs.Good p (scalarOut res) :=
  good_outputs_of_runs hp (b := []) (ss := []) (qs := []) (bits := 0) (count := 0) (Nat.zero_le _)
    (Nat.zero_le _) (Nat.zero_le _) le_rfl le_rfl (fun _ h => nomatch h) _ _ 0 0

theorem good_errOutputs (e : CmdErr) : Outputs.Good p e.outputs :=
  good_outputs_of_runs hp (b := []) (ss := []) (qs := []) (bits := 0) (count := 0) (Nat.zero_le _)
    (Nat.zero_le _) (Nat.zero_le _) le_rfl le_rfl (fun _ h => nomatch h) 0 0 _ _

theorem good_zeroOutputs : Outputs.Good p Outputs.zero :=
  good_bytesOut hp (b := []) (Nat.zero_le _)

theorem good_bitsOut {b : List Bool} (hb : b.length ≤ p.sCap) : Outputs.Good p (bitsOut b) := by
  have hcap := sCap_le hp
  have hbytes : (packBits b).length ≤ p.dCap := by rw [length_packBits]; omega
  exact good_outputs_of_runs hp (ss := []) (qs := []) (count := 0) hbytes hb (Nat.zero_le _) le_rfl
    le_rfl (fun _ h => nomatch h) 0 0 0 0

theorem good_qntOut {qs : List Int} (hqs : qs.length ≤ p.sCap) : Outputs.Good p (qntOut qs) :=
  good_outputs_of_runs hp (b := []) (ss := []) (bits := 0) (Nat.zero_le _) (Nat.zero_le _) hqs
    (Nat.zero_le _) (List.length_map _).le (fun _ h => nomatch h) 0 0 0 0

/-- Dequantized samples beside a byte string, as `EMB` and `HIDE` deliver them. -/
theorem good_samplesOut {qs : List Int} {b : List Byte} (hqs : qs.length ≤ p.sCap)
    (hb : b.length ≤ p.dCap) :
    Outputs.Good p { samplesOut p.flen qs with
      olen := BitVec.ofNat 32 b.length
      dout := Memory.writeRun Memory.cleared 0 b } := by
  have hfit : ∀ v ∈ qs.map (dequant1 p.flen), v.toNat < 2 ^ p.flen.bits := by
    intro v hv
    obtain ⟨q, -, rfl⟩ := List.mem_map.1 hv
    exact toNat_dequant1_lt p.flen q
  exact good_outputs_of_runs hp (qs := []) (bits := 0) hb (Nat.zero_le _) hqs
    (List.length_map _).le (Nat.zero_le _) hfit 0 0 0 0

/-- What a command delivers is good, whatever the command. -/
theorem good_of_produces {o : Outputs} {i : Instr} (h : Produces p o i) : Outputs.Good p o := by
  cases i with
  | kdf | enc | dec | xtd | reveal => obtain ⟨b, hb, rfl⟩ := h; exact good_bytesOut hp (hb hp)
  | qnt => obtain ⟨qs, hqs, rfl⟩ := h; exact good_qntOut hp hqs
  | emb => obtain ⟨qs, hqs, rfl⟩ := h; exact good_samplesOut hp (b := []) hqs (Nat.zero_le _)
  | ext mb => obtain ⟨b, hb, rfl⟩ := h; exact good_bitsOut hp hb
  | hide =>
    obtain ⟨qs, b, hqs, hle, hb, rfl⟩ := h
    exact good_samplesOut hp (by rwa [length_embedBytes hle]) hb
  | cap | rqb => obtain ⟨res, rfl⟩ := h; exact good_scalarOut hp res

end

/-! ### Good input buffers -/

theorem good_emptyBufs (p : Params) : InputBufs.Good p ⟨[], [], []⟩ where
  pw := ⟨Memory.wf_nil, fun _ h => nomatch h⟩
  din := ⟨Memory.wf_nil, fun _ h => nomatch h⟩
  sin := ⟨Memory.wf_nil, fun _ h => nomatch h⟩
  fit := fun _ h => nomatch h

/-- One write inside a space keeps the canonical form and the space. -/
theorem good_write {w n i : Nat} {m : Memory w} (h : Memory.wf m ∧ Memory.within n m) (hi : i < n)
    (v : BitVec w) : Memory.wf (Memory.write m i v) ∧ Memory.within n (Memory.write m i v) :=
  ⟨Memory.wf_write h.1 i v, Memory.within_write h.2 hi⟩

theorem toNat_lowBits_flen (f : Flen) (v : BitVec 64) :
    (lowBits f.bits v).toNat = v.toNat % 2 ^ f.bits := by
  rw [lowBits, BitVec.toNat_ofNat]
  exact Nat.mod_eq_of_lt ((Nat.mod_le _ _).trans_lt v.isLt)

theorem samplesFit_write {f : Flen} {m : Memory 64} (h : SamplesFit f m) (i : Nat)
    (v : BitVec 64) : SamplesFit f (Memory.write m i (lowBits f.bits v)) := by
  intro c hc
  rcases Memory.mem_write hc with hc | ⟨rfl, -⟩
  · exact h c hc
  · exact toNat_lowBits_flen f v ▸ Nat.mod_lt _ (Nat.two_pow_pos _)

/-! ### Good `STATUS` -/

theorem good_idleStatus : Status.Good State.reset.status where
  exclusive := fun _ => rfl
  running := fun _ => rfl
  coded := by decide
  inTable := by decide

theorem good_runningStatus : Status.Good Status.running where
  exclusive := fun _ => rfl
  running := fun _ => rfl
  coded := by decide
  inTable := by decide

theorem code_le (k : ErrKind) : k.code.toNat ≤ 9 := by cases k <;> decide

theorem good_resultStatus (r : CmdResult) : (resultStatus r).Good where
  exclusive := fun h => by simp at h
  running := fun h => by simp at h
  coded := by
    cases r with
    | ok o => exact iff_of_true rfl rfl
    | error e => exact iff_of_false Bool.noConfusion (code_ne_zero e.kind)
  inTable := by
    cases r with
    | ok o => exact Nat.zero_le _
    | error e => exact code_le e.kind

/-! ### Good states, operation by operation -/

/-- Being good is seen on the parameters, the buffers, the outputs, `STATUS` and the hidden
state. -/
theorem State.Good.congr {s t : State} (h : s.Good) (hpar : t.env.par = s.env.par)
    (hbufs : t.bufs = s.bufs) (hout : t.out = s.out) (hstatus : t.status = s.status)
    (hhidden : t.hidden = s.hidden) : t.Good where
  par := hpar ▸ h.par
  bufs := by rw [hpar, hbufs]; exact h.bufs
  out := by rw [hpar, hout]; exact h.out
  status := hstatus ▸ h.status
  cleared := by rw [hstatus, hout]; exact h.cleared
  failed := by rw [hstatus, hout]; exact h.failed
  context := by rw [hstatus, hout]; exact h.context
  hidden := by rw [hstatus, hhidden]; exact h.hidden

theorem good_resetCore {s : State} (hp : s.env.par.ok = true) : s.resetCore.Good where
  par := hp
  bufs := good_emptyBufs _
  out := good_zeroOutputs hp
  status := good_idleStatus
  cleared := fun _ => rfl
  failed := fun _ => rfl
  context := fun _ => ⟨rfl, rfl⟩
  hidden := fun _ => rfl

section
variable {s : State} (h : s.Good)
include h

theorem State.Good.issue (w : Word) : (s.issue w).Good where
  par := h.par
  bufs := h.bufs
  out := good_zeroOutputs h.par
  status := good_runningStatus
  cleared := fun _ => rfl
  failed := fun _ => rfl
  context := fun _ => ⟨rfl, rfl⟩
  hidden := fun hb => Bool.noConfusion hb

/-- A completion is good when what it delivers is, without context words. -/
theorem State.Good.complete {r : CmdResult}
    (hr : ∀ o, r = .ok o → o.Good s.env.par ∧ o.NoContext) : (s.complete r).Good where
  par := h.par
  bufs := h.bufs
  out := by
    cases r with
    | ok o => exact (hr o rfl).1
    | error e => exact good_errOutputs h.par e
  status := good_resultStatus r
  cleared := fun hb => by simp at hb
  failed := fun herr => by
    cases r with
    | ok o => exact Bool.noConfusion herr
    | error e => rfl
  context := fun herr => by
    cases r with
    | ok o => exact (hr o rfl).2
    | error e => exact Bool.noConfusion herr
  hidden := fun _ => rfl

theorem State.Good.raise (e : CmdErr) : (s.raise e).Good := h.complete fun _ ho => nomatch ho

theorem State.Good.acknowledge : s.acknowledge.Good where
  par := h.par
  bufs := h.bufs
  out := h.out
  status :=
    { exclusive := fun _ => rfl
      running := h.status.running
      coded := h.status.coded
      inTable := h.status.inTable }
  cleared := h.cleared
  failed := h.failed
  context := h.context
  hidden := h.hidden

theorem State.Good.writeCtrl (v : Word) : (s.writeCtrl v).Good := by
  rcases writeCtrl_cases v s with hw | hw <;> rw [hw]
  · exact good_resetCore h.par
  · exact h.congr rfl rfl rfl rfl rfl

theorem State.Good.writeStatus (v : Word) : (s.writeStatus v).Good := by
  rcases writeStatus_cases v s with hw | hw <;> rw [hw]
  · exact h.acknowledge
  · exact h

theorem State.Good.regWrite (n : Nat) (v : Word) : (s.regWrite n v).Good := by
  unfold State.regWrite
  split
  · exact h.issue v
  · exact h.writeStatus v
  · exact h.writeCtrl v
  all_goals exact h.congr rfl rfl rfl rfl rfl

/-- A write inside a buffer the host may write keeps that buffer good; the others ignore it. -/
theorem State.Good.elementWrite {sp : Space} {i : Nat} (hi : i < sp.size s.env.par)
    (v : BitVec 64) : (s.elementWrite sp i v).Good := by
  have withBufs : ∀ b : InputBufs, b.Good s.env.par → ({ s with bufs := b } : State).Good :=
    fun b hb => { h with bufs := hb }
  have hbufs := h.bufs
  cases sp with
  | reg => exact h.regWrite i _
  | pw => exact withBufs _ { hbufs with pw := good_write hbufs.pw hi _ }
  | din => exact withBufs _ { hbufs with din := good_write hbufs.din hi _ }
  | sin =>
    exact withBufs _
      { hbufs with sin := good_write hbufs.sin hi _, fit := samplesFit_write hbufs.fit i v }
  | dout | sout | qout => exact h

theorem State.Good.hostWrite (sp : Space) (i : Nat) (v : BitVec 64) :
    (s.hostWrite sp i v).Good := by
  rcases hostWrite_cases sp i v s with hw | ⟨-, -, hw⟩ | ⟨-, -, -, hw⟩ | ⟨-, -, hi, hw⟩ <;> rw [hw]
  · exact h
  · exact h.writeCtrl _
  · exact h.regWrite i _
  · exact h.elementWrite hi v

theorem State.Good.exec {i : Instr} {t : State} (hexec : exec i s = .next t) : t.Good := by
  have hr : ∀ o, commandResult s i = .ok o → o.Good s.env.par ∧ o.NoContext := fun o ho =>
    ⟨good_of_produces h.par (produces_of_commandResult ho),
      noContext_of_produces (produces_of_commandResult ho)⟩
  rcases exec_eq_next hexec with rfl | ⟨-, rfl⟩
  · exact h.complete hr
  · have hdraw : s.afterDraw.Good := h.congr rfl rfl rfl rfl rfl
    exact hdraw.complete hr

theorem State.Good.coreTurn {t : State} (ht : s.coreTurn = .next t) : t.Good := by
  rcases coreTurn_cases s with ⟨-, hc⟩ | ⟨-, ⟨i, -, hc⟩ | ⟨-, hc⟩⟩ <;> rw [hc] at ht
  · exact Host.Outcome.next.inj ht ▸ h
  · exact h.exec ht
  · exact Host.Outcome.next.inj ht ▸ h.raise _

theorem State.Good.takeInput {e : Input} {t : State} (ht : s.takeInput e = .next t) : t.Good := by
  cases e with
  | hostRead sp i => exact Host.Outcome.next.inj ht ▸ h.congr rfl rfl rfl rfl rfl
  | hostWrite sp i v => exact Host.Outcome.next.inj ht ▸ h.hostWrite sp i v
  | hardReset => exact Host.Outcome.next.inj ht ▸ good_resetCore h.par
  | announce d => exact Host.Outcome.next.inj ht ▸ h.congr rfl rfl rfl rfl rfl
  | coreTurn => exact h.coreTurn ht

end

/-- Settles O15: the step is the core's turn or takes an input, and each operation of either keeps
the state good. -/
theorem everyStepKeepsGood : Obligations.EveryStepKeepsGood := by
  intro s t h hstep
  rcases step_eq_next hstep with ⟨-, ⟨-, hturn⟩ | ⟨e, es, -, htake⟩⟩
  · exact h.coreTurn hturn
  · have hpop : s.popInput.Good := h.congr rfl rfl rfl rfl rfl
    exact hpop.takeInput htake

/-- Settles O14: the reset state is its own reset. -/
theorem resetIsGood : Obligations.ResetIsGood :=
  (good_resetCore (s := State.reset) (by decide)).congr rfl rfl rfl rfl rfl

end Sys2Proof.Machine

/-! The life cycle (30_encoding.md, 60_exceptions.md, 70_reset_and_hazards.md): the core's turn and
O4, O5; issue, reset and runs, O6, O8, O9, O10, O11, O12, O13. -/

namespace Sys2Proof.Machine

-- as in the tests: theorems checked side by side need more threads than the memory limit allows
set_option Elab.async false

/-! ### The core's turn (R98, R254, R281) -/

theorem coreTurn_of_idle {s : State} (hb : s.status.busy = false) : s.coreTurn = .next s := by
  simp only [State.coreTurn, hb, Bool.false_eq_true, if_false]

/-- An announced turn is taken off the list first. -/
theorem step_of_coreTurn {s : State} {es : List Input} (hp : s.env.par.ok = true)
    (hi : s.env.inputs = .coreTurn :: es) : step s = s.popInput.coreTurn := step_of_input hp hi

theorem commandWord_32 (w : Nat) : commandWord 32 w = BitVec.ofNat 32 w := by
  refine BitVec.eq_of_toNat_eq ?_
  rw [commandWord, BitVec.toNat_ofNat, BitVec.toNat_ofNat, Nat.mod_mod]

/-- Settles O4: at the core's turn a word that decodes runs, and an idle core stays as it is. -/
theorem stepRunsTheIssuedCommand : Obligations.StepRunsTheIssuedCommand := by
  refine ⟨fun s i hp hb hd => ⟨fun hi => ?unlisted, fun es hi => ?listed⟩,
    fun s w i hp hd => ?placed,
    fun s hp hb => ⟨fun hi => ?idleUnlisted, fun es hi => ?idleListed⟩⟩
  case unlisted => rw [step_of_no_input hp hi, coreTurn_of_decode hb hd]
  case listed => rw [step_of_coreTurn hp hi, coreTurn_of_decode (s := s.popInput) hb hd]
  case placed =>
    rw [← commandWord_32] at hd
    exact (step_of_no_input (s := s.withFetchWord 32 w) hp rfl).trans (coreTurn_of_decode rfl hd)
  case idleUnlisted => rw [step_of_no_input hp hi, coreTurn_of_idle hb]
  case idleListed => rw [step_of_coreTurn hp hi, coreTurn_of_idle (s := s.popInput) hb]

theorem decode_eq_error_of_ne_encode {w : Word} (h : ∀ i, w ≠ encode i) :
    ∃ e, decode w = .error e := by
  cases hd : decode w with
  | error e => exact ⟨e, rfl⟩
  | ok i => exact absurd (decode_eq_ok_iff.1 hd) (h i)

theorem coreTurn_of_decode_error {s : State} {e : DecodeError} (hb : s.status.busy = true)
    (hd : decode s.cmd = .error e) : s.coreTurn = .next s.rejectCommand := by
  simp only [State.coreTurn, hb, if_true, hd]

/-- A word is its own context word, unsaturated. -/
theorem satWord_toNat (w : Word) : satWord w.toNat = w := by
  have hw := w.isLt
  refine BitVec.eq_of_toNat_eq ?_
  rw [toNat_satWord]
  omega

/-- What the core's turn does with a running word that is no command's (R254). -/
theorem coreTurn_of_illegal {s : State} (hb : s.status.busy = true)
    (hcmd : ∀ i, s.cmd ≠ encode i) :
    ∃ t, s.coreTurn = .next t ∧ t.FailedWith 8 s.cmd.toNat 0 ∧ t.out.einfo0 = s.cmd ∧
      Untouched s t ∧ NoDraw s t ∧ t.hidden = Hidden.zero := by
  obtain ⟨e, hd⟩ := decode_eq_error_of_ne_encode hcmd
  exact ⟨_, coreTurn_of_decode_error hb hd, failedWith_complete_error _ s, satWord_toNat s.cmd,
    untouched_complete _ s, noDraw_complete _ s, rfl⟩

/-- Settles O5: the turn comes from the empty list or is taken off it. -/
theorem illegalWordCompletesWithError : Obligations.IllegalWordCompletesWithError := by
  intro s hp hb hcmd
  refine ⟨fun hi => ?_, fun es hi => ?_⟩
  · rw [step_of_no_input hp hi]
    exact coreTurn_of_illegal hb hcmd
  · rw [step_of_coreTurn hp hi]
    exact coreTurn_of_illegal (s := s.popInput) hb hcmd

/-! ### Host writes of registers (R62, R63) -/

/-- A host write is one step, which uses up its input. -/
theorem step_of_hostWrite {s : State} {sp : Space} {n : Nat} {v : BitVec 64} {es : List Input}
    (hp : s.env.par.ok = true) (hi : s.env.inputs = .hostWrite sp n v :: es) :
    step s = .next (s.popInput.hostWrite sp n v) := step_of_input hp hi

theorem popInput_inputs_of_cons {s : State} {e : Input} {es : List Input}
    (hi : s.env.inputs = e :: es) : s.popInput.env.inputs = es := by
  rw [State.popInput_env_inputs, hi, List.tail_cons]

theorem hostWrite_reg_of_idle {s : State} {n : Nat} (v : BitVec 64) (hb : s.status.busy = false)
    (hn : n < 32) : s.hostWrite .reg n v = s.regWrite n (v.setWidth 32) := by
  have hn' : n < Space.reg.size s.env.par := hn
  simp only [State.hostWrite, hb, Bool.false_eq_true, if_false, if_pos hn']
  rfl

/-- A write of `CTRL` has its effect whether a command runs or not (R23, R63). -/
theorem hostWrite_ctrl (v : BitVec 64) (s : State) :
    s.hostWrite .reg 2 v = s.writeCtrl (v.setWidth 32) := by
  cases hb : s.status.busy with
  | true => simp only [State.hostWrite, hb, if_true, and_self]
  | false => exact hostWrite_reg_of_idle v hb (by decide)

/-- A register keeps the low bits of a bus value as they are. -/
theorem getLsbD_setWidth_32 (v : BitVec 64) {k : Nat} (hk : k < 32) :
    (v.setWidth 32).getLsbD k = v.getLsbD k := by
  rw [BitVec.getLsbD_setWidth, decide_eq_true hk, Bool.true_and]

theorem writeCtrl_of_reset {v : Word} (hv : v.getLsbD 1 = true) (s : State) :
    s.writeCtrl v = s.resetCore := if_pos hv

theorem writeCtrl_of_not_reset {v : Word} (hv : v.getLsbD 1 = false) (s : State) :
    s.writeCtrl v = { s with ie := v.getLsbD 0 } := by
  simp only [State.writeCtrl, hv, Bool.false_eq_true, if_false]

/-- A write of `CTRL` with bit 1 set resets, at any time (R281). -/
theorem hostWrite_reset {v : BitVec 64} (hv : v.getLsbD 1 = true) (s : State) :
    s.hostWrite .reg 2 v = s.resetCore := by
  rw [hostWrite_ctrl, writeCtrl_of_reset]
  rwa [getLsbD_setWidth_32 v (by decide)]

/-- Settles O8: the write uses up its input and does nothing else. -/
theorem writesWhileRunningAreIgnored : Obligations.WritesWhileRunningAreIgnored := by
  intro s sp n v es hp hb hn hi
  rw [step_of_hostWrite hp hi, hostWrite_of_busy (s := s.popInput) v hb hn]

/-! ### Issue (R96) -/

/-- A host write of `CMD` while idle issues the word. -/
theorem step_of_issue {s : State} {v : BitVec 64} {es : List Input} (hp : s.env.par.ok = true)
    (hb : s.status.busy = false) (hi : s.env.inputs = .hostWrite .reg 0 v :: es) :
    step s = .next (s.popInput.issue (v.setWidth 32)) := by
  rw [step_of_hostWrite hp hi, hostWrite_reg_of_idle (s := s.popInput) v hb (by decide)]
  rfl

theorem running_word : Status.running.word = 0x1#32 := by decide

theorem cleared_zeroOutputs : Outputs.zero.Cleared :=
  ⟨rfl, rfl, rfl, rfl, rfl, allZero_cleared, allZero_cleared, allZero_cleared⟩

/-- Registers 10 to 16 are the result registers, so they read 0 when the outputs are cleared. -/
theorem regRead_of_zeroOutputs {s : State} (h : s.out = Outputs.zero) {n : Nat} (h10 : 10 ≤ n)
    (h16 : n ≤ 16) : s.regRead n = 0 := by
  interval_cases n <;> simp only [State.regRead, h] <;> rfl

/-- Settles O6: the state after the write is that of the issue. -/
theorem cmdWriteIssues : Obligations.CmdWriteIssues := by
  intro s v es hp hb hi
  exact ⟨_, step_of_issue hp hb hi, rfl, running_word, fun n => regRead_of_zeroOutputs rfl,
    cleared_zeroOutputs, Bool.and_false _, rfl, rfl, rfl, rfl, popInput_inputs_of_cons hi, rfl, rfl⟩

/-! ### Reset (R52, R280 to R282) -/

/-- Registers from 22 on are reserved or do not exist (R39). -/
theorem regRead_of_ge {n : Nat} (h : 22 ≤ n) (s : State) : s.regRead n = 0 := by
  unfold State.regRead
  split
  case h_23 => rfl
  all_goals omega

theorem reset_word : State.reset.status.word = 0 := by decide

theorem regRead_resetCore_of_le {n : Nat} (h : n ≤ 16) (s : State) :
    s.resetCore.regRead n = 0 := by
  rcases eq_or_ne n 1 with rfl | hne
  · exact reset_word
  · interval_cases n <;> first | rfl | contradiction

/-- The constant registers show the instance, which a reset leaves (R38). -/
theorem regRead_resetCore_of_constant {n : Nat} (h17 : 17 ≤ n) (h21 : n ≤ 21) (s : State) :
    s.resetCore.regRead n = s.regRead n := by
  interval_cases n <;> rfl

theorem irq_resetCore (s : State) : s.resetCore.irq = false := rfl

/-- Either way to reset is one step to the reset state. -/
theorem step_of_reset {s : State} {e : Input} {es : List Input} (hp : s.env.par.ok = true)
    (hi : s.env.inputs = e :: es)
    (he : e = .hardReset ∨ ∃ v : BitVec 64, v.getLsbD 1 = true ∧ e = .hostWrite .reg 2 v) :
    step s = .next s.popInput.resetCore := by
  rcases he with rfl | ⟨v, hv, rfl⟩
  · exact step_of_input hp hi
  · rw [step_of_hostWrite hp hi, hostWrite_reset hv]

/-- Settles O9: both lead to the reset state, whose registers are those of the table. -/
theorem eitherResetGivesTheResetState : Obligations.EitherResetGivesTheResetState := by
  intro s e es hp hi he
  exact ⟨_, step_of_reset hp hi he, fun n hn => regRead_resetCore_of_le hn _,
    fun n hn => regRead_of_ge hn _,
    fun n h17 h21 => regRead_resetCore_of_constant h17 h21 s.popInput, allZero_cleared,
    allZero_cleared, allZero_cleared, cleared_zeroOutputs, rfl, irq_resetCore _, rfl⟩

/-- Settles O11: the reset state is its own reset, its constants the reference parameters. -/
theorem resetStateIsTheTable : Obligations.ResetStateIsTheTable :=
  ⟨fun _ hn => regRead_resetCore_of_le hn State.reset, rfl, rfl, rfl, rfl, rfl,
    fun _ hn => regRead_of_ge hn State.reset, allZero_cleared, allZero_cleared, allZero_cleared,
    allZero_cleared, allZero_cleared, allZero_cleared, rfl, irq_resetCore State.reset⟩

/-! ### Runs (R270, R291) -/

theorem runsTo_zero (s : State) : RunsTo 0 s s := rfl

/-- A run is its first step and the run from there. -/
theorem runsTo_succ {s t u : State} {k : Nat} (hstep : step s = .next t) (hrun : RunsTo k t u) :
    RunsTo (k + 1) s u := by
  have hcore : Sys2Proof.core.step s = .next t := hstep
  simp only [RunsTo, Host.Core.run, hcore]
  exact hrun

/-- Settles O10: the first step issues, the second resets. -/
theorem resetAbandonsARunningCommand : Obligations.ResetAbandonsARunningCommand := by
  intro s w v es hp hb hv hi
  have hissue := step_of_issue hp hb hi
  have hi' := popInput_inputs_of_cons hi
  have hreset := step_of_reset (s := s.popInput.issue (w.setWidth 32)) hp hi' (.inr ⟨v, hv, rfl⟩)
  exact ⟨_, runsTo_succ hissue (runsTo_succ hreset (runsTo_zero _)), reset_word, rfl,
    cleared_zeroOutputs, ⟨rfl, rfl⟩, rfl, rfl,
    popInput_inputs_of_cons (s := s.popInput.issue (w.setWidth 32)) hi'⟩

/-- Parameters and coming inputs are the same. -/
def SameOutside (s t : State) : Prop :=
  t.env.par = s.env.par ∧ t.env.inputs = s.env.inputs

theorem SameOutside.refl (s : State) : SameOutside s s := ⟨rfl, rfl⟩

theorem Untouched.sameOutside {s t : State} (h : Untouched s t) : SameOutside s t := by
  obtain ⟨-, -, -, -, hpar, hinputs, -, -⟩ := h
  exact ⟨hpar, hinputs⟩

/-- A running command completes at the core's turn, whatever its word is. -/
theorem coreTurn_of_busy {s : State} (hb : s.status.busy = true) :
    ∃ t, s.coreTurn = .next t ∧ t.status.busy = false ∧ t.status.done = true ∧
      SameOutside s t := by
  cases hd : decode s.cmd with
  | ok i =>
    obtain ⟨t, ht⟩ := exists_exec i s
    obtain ⟨hframe, -, hbusy, hdone, -⟩ := completionFrame i s t ht
    exact ⟨t, (coreTurn_of_decode hb hd).trans ht, hbusy, hdone, hframe.sameOutside⟩
  | error e =>
    exact ⟨_, coreTurn_of_decode_error hb hd, rfl, rfl, (untouched_complete _ s).sameOutside⟩

/-- The core's turn never stops the machine and leaves the core idle. -/
theorem exists_coreTurn (s : State) :
    ∃ t, s.coreTurn = .next t ∧ t.status.busy = false ∧ SameOutside s t := by
  cases hb : s.status.busy with
  | true =>
    obtain ⟨t, ht, hbusy, -, hout⟩ := coreTurn_of_busy hb
    exact ⟨t, ht, hbusy, hout⟩
  | false => exact ⟨s, coreTurn_of_idle hb, hb, .refl s⟩

theorem sameOutside_writeCtrl (v : Word) (s : State) : SameOutside s (s.writeCtrl v) := by
  rcases writeCtrl_cases v s with h | h <;> rw [h] <;> exact ⟨rfl, rfl⟩

theorem sameOutside_writeStatus (v : Word) (s : State) : SameOutside s (s.writeStatus v) := by
  rcases writeStatus_cases v s with h | h <;> rw [h] <;> exact ⟨rfl, rfl⟩

theorem sameOutside_regWrite (n : Nat) (v : Word) (s : State) : SameOutside s (s.regWrite n v) := by
  unfold State.regWrite
  split
  case h_2 => exact sameOutside_writeStatus v s
  case h_3 => exact sameOutside_writeCtrl v s
  all_goals exact ⟨rfl, rfl⟩

theorem sameOutside_hostWrite (sp : Space) (n : Nat) (v : BitVec 64) (s : State) :
    SameOutside s (s.hostWrite sp n v) := by
  rcases hostWrite_cases sp n v s with h | ⟨-, -, h⟩ | ⟨-, -, -, h⟩ | ⟨-, hsp, -, h⟩ <;> rw [h]
  · exact .refl s
  · exact sameOutside_writeCtrl _ s
  · exact sameOutside_regWrite n _ s
  · cases sp with
    | reg => exact absurd rfl hsp
    | _ => exact ⟨rfl, rfl⟩

/-- No input stops the machine. -/
theorem exists_takeInput (e : Input) (s : State) :
    ∃ t, s.takeInput e = .next t ∧ SameOutside s t := by
  cases e with
  | hostWrite sp i v => exact ⟨_, rfl, sameOutside_hostWrite sp i v s⟩
  | coreTurn =>
    obtain ⟨t, ht, -, hout⟩ := exists_coreTurn s
    exact ⟨t, ht, hout⟩
  | _ => exact ⟨_, rfl, rfl, rfl⟩

/-- A step on a valid instance goes on; it uses up one input, or leaves the core idle. -/
theorem exists_step {s : State} (hp : s.env.par.ok = true) :
    ∃ t, step s = .next t ∧ t.env.par = s.env.par ∧ t.env.inputs = s.env.inputs.tail ∧
      (s.env.inputs = [] → t.status.busy = false) := by
  cases hi : s.env.inputs with
  | nil =>
    obtain ⟨t, ht, hbusy, hpar, hinputs⟩ := exists_coreTurn s
    exact ⟨t, (step_of_no_input hp hi).trans ht, hpar, hinputs.trans hi, fun _ => hbusy⟩
  | cons e es =>
    obtain ⟨t, ht, hpar, hinputs⟩ := exists_takeInput e s.popInput
    exact ⟨t, (step_of_input hp hi).trans ht, hpar, hinputs.trans (popInput_inputs_of_cons hi),
      fun h => nomatch h⟩

/-- Settles O13, by induction on the number of steps. -/
theorem noRunStops : Obligations.NoRunStops := by
  intro k
  induction k with
  | zero => exact fun s _ => ⟨s, runsTo_zero s⟩
  | succ k ih =>
    intro s hp
    obtain ⟨t, ht, hpar, -⟩ := exists_step hp
    obtain ⟨u, hu⟩ := ih t (hpar ▸ hp)
    exact ⟨u, runsTo_succ ht hu⟩

/-- One step more than there are inputs leads to an idle block, by induction on the inputs. -/
theorem exists_run_idle (es : List Input) {s : State} (hp : s.env.par.ok = true)
    (hi : s.env.inputs = es) :
    ∃ t, RunsTo (es.length + 1) s t ∧ t.status.busy = false ∧ t.env.inputs = [] := by
  obtain ⟨t, ht, hpar, hinputs, hidle⟩ := exists_step hp
  rw [hi] at hinputs hidle
  induction es generalizing s t with
  | nil => exact ⟨t, runsTo_succ ht (runsTo_zero t), hidle rfl, hinputs⟩
  | cons e es ih =>
    have hp' : t.env.par.ok = true := hpar ▸ hp
    obtain ⟨t', ht', hpar', hinputs', hidle'⟩ := exists_step hp'
    rw [hinputs] at hinputs' hidle'
    obtain ⟨u, hu, hend⟩ := ih hp' hinputs t' ht' hpar' hinputs' hidle'
    exact ⟨u, runsTo_succ ht hu, hend⟩

/-- Settles O12: the inputs are used up one by one, and the next step is the core's turn. -/
theorem everyCommandCompletes : Obligations.EveryCommandCompletes := by
  refine ⟨fun s hp => exists_run_idle _ hp rfl, fun s hp hb hi => ?_⟩
  obtain ⟨t, ht, hbusy, hdone, -⟩ := coreTurn_of_busy hb
  exact ⟨t, (step_of_no_input hp hi).trans ht, hbusy, hdone⟩

end Sys2Proof.Machine

/-! The host interface (10_state.md, 20_memory.md): what registers read as, O17, O18; host reads,
O16; writes of registers, O19, O20, O22, O23; writes of buffers, O21. -/

namespace Sys2Proof.Machine

-- as in the tests: theorems checked side by side need more threads than the memory limit allows
set_option Elab.async false

/-! ### What registers read as (R20 to R39) -/

theorem ctrlWord_eq (ie : Bool) : ctrlWord ie = if ie then 1 else 0 := by cases ie <;> rfl

/-- The capacities of a valid instance fit the registers that show them (R8 to R10). -/
theorem pwCap_lt {p : Params} (h : p.ok = true) : p.pwCap < 2 ^ 32 := by
  simp only [Params.ok, Params.pwCapOk, Bool.and_eq_true, decide_eq_true_eq] at h
  omega

theorem flenWord_eq_32_iff (f : Flen) : BitVec.ofNat 32 f.bits = 32#32 ↔ f = .f32 := by
  cases f <;> decide

theorem flenWord_eq_64_iff (f : Flen) : BitVec.ofNat 32 f.bits = 64#32 ↔ f = .f64 := by
  cases f <;> decide

/-- Settles O17: the table is the definition, and the capacities fit their registers. -/
theorem registerNumbersReadAsTabled : Obligations.RegisterNumbersReadAsTabled := by
  intro s
  refine ⟨rfl, rfl, ctrlWord_eq s.ie, rfl, rfl, rfl, rfl, rfl, rfl, rfl, rfl, rfl, rfl, rfl, rfl,
    rfl, rfl, rfl, fun hp => ?_, flenWord_eq_32_iff _, flenWord_eq_64_iff _,
    fun n hn => regRead_of_ge hn s⟩
  have hpw := pwCap_lt hp
  have hd := dCap_lt hp
  have hs := sCap_lt hp
  have small : ∀ n, n < 2 ^ 32 → (BitVec.ofNat 32 n).toNat = n := fun n hn =>
    (BitVec.toNat_ofNat _ _).trans (Nat.mod_eq_of_lt hn)
  exact ⟨small _ hpw, small _ (by omega), small _ (by omega)⟩

/-- The places of the fields of `STATUS`, by its finitely many values. -/
theorem statusWord_fields : ∀ (busy done err : Bool) (ecode : BitVec 4),
    (Status.mk busy done err ecode).word.getLsbD 0 = busy ∧
    (Status.mk busy done err ecode).word.getLsbD 1 = done ∧
    (Status.mk busy done err ecode).word.getLsbD 2 = err ∧
    (Status.mk busy done err ecode).word.extractLsb' 8 4 = ecode ∧
    (Status.mk busy done err ecode).word.extractLsb' 3 5 = 0#5 ∧
    (Status.mk busy done err ecode).word.extractLsb' 12 20 = 0#20 := by decide

/-- Settles O18. -/
theorem statusFieldsStandWhereTabled : Obligations.StatusFieldsStandWhereTabled :=
  fun st => statusWord_fields st.busy st.done st.err st.ecode

/-! ### Host reads (R61 to R63) -/

/-- A host read is one step, which uses up its input. -/
theorem step_of_hostRead {s : State} {sp : Space} {n : Nat} {es : List Input}
    (hp : s.env.par.ok = true) (hi : s.env.inputs = .hostRead sp n :: es) :
    step s = .next (s.popInput.hostRead sp n) := step_of_input hp hi

theorem readIsOpen_of_idle {s : State} (hb : s.status.busy = false) (sp : Space) :
    s.readIsOpen sp = false := by rw [State.readIsOpen, hb, Bool.false_and]

theorem readValue_of_lt {s : State} {sp : Space} {n : Nat} (ho : s.readIsOpen sp = false)
    (hn : n < sp.size s.env.par) : s.readValue sp n = s.element sp n := by
  simp only [State.readValue, if_pos hn, ho, Bool.false_eq_true, if_false]

theorem readValue_of_ge {s : State} {sp : Space} {n : Nat} (hn : sp.size s.env.par ≤ n) :
    s.readValue sp n = 0 := if_neg (Nat.not_lt.2 hn)

/-- A register is read at any time; numbers past the space read 0, as its last ones do. -/
theorem readValue_reg (s : State) (n : Nat) : s.readValue .reg n = (s.regRead n).setWidth 64 := by
  rcases Nat.lt_or_ge n 32 with hn | hn
  · exact readValue_of_lt (Bool.and_false _) hn
  · rw [readValue_of_ge (sp := .reg) hn, regRead_of_ge (by omega)]
    rfl

/-- Settles O16: the value read is the element in range and 0 out of it. -/
theorem hostReadReturnsTheElement : Obligations.HostReadReturnsTheElement := by
  intro s sp n es hp hi
  refine ⟨_, step_of_hostRead hp hi, rfl, rfl, rfl, rfl, rfl, rfl, rfl, rfl,
    popInput_inputs_of_cons hi, rfl, rfl, ?_, fun hb => ?_⟩
  · rintro rfl
    exact readValue_reg s.popInput n
  · have inside : n < sp.size s.env.par → s.popInput.readValue sp n = s.popInput.element sp n :=
      readValue_of_lt (s := s.popInput) (readIsOpen_of_idle hb sp)
    have outside : sp.size s.env.par ≤ n → s.popInput.readValue sp n = 0 :=
      readValue_of_ge (s := s.popInput)
    refine ⟨?_, ?_, ?_, ?_, ?_, ?_, ?_⟩
    case refine_7 =>
      rintro (⟨rfl, hn⟩ | ⟨rfl | rfl, hn⟩ | ⟨rfl | rfl | rfl, hn⟩) <;> exact outside hn
    all_goals
      rintro rfl hn
      exact inside hn

/-! ### Host writes of registers (R22 to R39) -/

theorem regWrite_of_ge {n : Nat} (h : 10 ≤ n) (v : Word) (s : State) : s.regWrite n v = s := by
  unfold State.regWrite
  split
  case h_11 => rfl
  all_goals omega

/-- Result, constant and reserved registers ignore every write (R31 to R39). -/
theorem hostWrite_reg_of_ge {n : Nat} (h : 10 ≤ n) (v : BitVec 64) (s : State) :
    s.hostWrite .reg n v = s := by
  rcases hostWrite_cases .reg n v s with hw | ⟨-, hn, -⟩ | ⟨-, -, -, hw⟩ | ⟨-, hsp, -, -⟩
  · exact hw
  · omega
  · rw [hw, regWrite_of_ge h]
  · exact absurd rfl hsp

/-- Settles O20: the write uses up its input and does nothing else. -/
theorem otherRegisterWritesAreIgnored : Obligations.OtherRegisterWritesAreIgnored := by
  intro s n v es hp hn hi
  rw [step_of_hostWrite hp hi, hostWrite_reg_of_ge hn]

/-- The registers that show nothing of the operands. -/
theorem regRead_withOpnd {m : Nat} (hm : m < 3 ∨ 9 < m) (o : OperandRegs) (s : State) :
    ({ s with opnd := o } : State).regRead m = s.regRead m := by
  rcases Nat.lt_or_ge m 22 with hlt | hge
  · rcases hm with hm | hm <;> interval_cases m <;> rfl
  · rw [regRead_of_ge hge, regRead_of_ge hge]

/-- A write of an operand register changes the operands alone, and of these the one it names. -/
theorem regWrite_operand {n : Nat} (h3 : 3 ≤ n) (h9 : n ≤ 9) (v : Word) (s : State) :
    ∃ o, s.regWrite n v = { s with opnd := o } ∧
      ({ s with opnd := o } : State).regRead n = v ∧
      ∀ m, m ≠ n → ({ s with opnd := o } : State).regRead m = s.regRead m := by
  have others : ∀ o : OperandRegs,
      (∀ m, 3 ≤ m → m ≤ 9 → m ≠ n → ({ s with opnd := o } : State).regRead m = s.regRead m) →
      ∀ m, m ≠ n → ({ s with opnd := o } : State).regRead m = s.regRead m := fun o ho m hm => by
    by_cases hin : 3 ≤ m ∧ m ≤ 9
    · exact ho m hin.1 hin.2 hm
    · exact regRead_withOpnd (by omega) o s
  interval_cases n
  all_goals
    refine ⟨_, rfl, rfl, others _ fun m hm3 hm9 hne => ?_⟩
    interval_cases m
    all_goals first | rfl | exact absurd rfl hne

/-- Settles O19: the write changes one operand. -/
theorem operandRegisterWritesStore : Obligations.OperandRegisterWritesStore := by
  intro s n v es hp hb h3 h9 hi
  obtain ⟨o, hw, hread, hothers⟩ := regWrite_operand h3 h9 (v.setWidth 32) s.popInput
  refine ⟨{ s.popInput with opnd := o }, ?_, hread, hothers, rfl, rfl, rfl, rfl, rfl⟩
  rw [step_of_hostWrite hp hi, hostWrite_reg_of_idle (s := s.popInput) v hb (by omega), hw]

/-- A write of `STATUS` clears `DONE` by bit 1 and changes nothing else (R22). -/
theorem writeStatus_eq (v : Word) (s : State) :
    s.writeStatus v =
      { s with status := { s.status with done := s.status.done && !v.getLsbD 1 } } := by
  cases hv : v.getLsbD 1 with
  | true => simp only [State.writeStatus, hv, if_true, Bool.not_true, Bool.and_false]; rfl
  | false =>
    simp only [State.writeStatus, hv, Bool.false_eq_true, if_false, Bool.not_false, Bool.and_true]

/-- Settles O22: `STATUS` is register 1. -/
theorem statusWriteAcknowledges : Obligations.StatusWriteAcknowledges := by
  intro s v es hp hb hi
  have hw : s.popInput.hostWrite .reg 1 v = s.popInput.writeStatus (v.setWidth 32) :=
    hostWrite_reg_of_idle v hb (by decide)
  rw [writeStatus_eq, getLsbD_setWidth_32 v (by decide)] at hw
  exact ⟨_, (step_of_hostWrite hp hi).trans (congrArg _ hw), rfl, rfl, rfl, rfl, rfl, rfl, rfl, rfl,
    rfl, rfl, rfl⟩

/-- A write of `CTRL` with bit 1 clear stores bit 0 in `IE` (R23). -/
theorem hostWrite_ie {v : BitVec 64} (hv : v.getLsbD 1 = false) (s : State) :
    s.hostWrite .reg 2 v = { s with ie := v.getLsbD 0 } := by
  rw [hostWrite_ctrl, writeCtrl_of_not_reset, getLsbD_setWidth_32 v (by decide)]
  rwa [getLsbD_setWidth_32 v (by decide)]

/-- Every completion raises `irq` exactly when it is enabled (R263). -/
theorem irq_of_exec {i : Instr} {s t : State} (h : exec i s = .next t) : t.irq = s.ie := by
  obtain ⟨⟨-, hie, -⟩, -, -, hdone, -⟩ := completionFrame i s t h
  rw [State.irq, hie, hdone, Bool.and_true]

/-- Settles O23: by definition, by the write of `CTRL`, by the frame of completions. -/
theorem interruptFollowsDoneAndEnable : Obligations.InterruptFollowsDoneAndEnable := by
  refine ⟨fun s => rfl, fun s v es hp hv hi => ?_, fun i s => ?_⟩
  · exact ⟨_, (step_of_hostWrite hp hi).trans (congrArg _ (hostWrite_ie hv s.popInput)), rfl, rfl,
      rfl, rfl, rfl, rfl, rfl, rfl, rfl⟩
  · obtain ⟨t, ht⟩ := exists_exec i s
    exact ⟨t, ht, irq_of_exec ht⟩

/-! ### Host writes of buffers (R43 to R46, R61, R62) -/

section
variable {sp : Space} (hsp : sp ≠ .reg) (n : Nat) (v : BitVec 64)
include hsp

/-- A host write of a buffer changes the host-written buffers and nothing else. -/
theorem exists_bufs_hostWrite (s : State) : ∃ b, s.hostWrite sp n v = { s with bufs := b } := by
  rcases hostWrite_cases sp n v s with hw | ⟨hreg, -⟩ | ⟨-, hreg, -⟩ | ⟨-, -, -, hw⟩
  · exact ⟨s.bufs, hw⟩
  · exact absurd hreg hsp
  · exact absurd hreg hsp
  · cases sp with
    | reg => exact absurd rfl hsp
    | pw | din | sin => exact ⟨_, hw⟩
    | dout | sout | qout => exact ⟨s.bufs, hw⟩

end

/-- A host write while idle, by its range (R61). -/
theorem hostWrite_of_idle {s : State} (hb : s.status.busy = false) (sp : Space) (n : Nat)
    (v : BitVec 64) :
    s.hostWrite sp n v = if n < sp.size s.env.par then s.elementWrite sp n v else s := by
  simp only [State.hostWrite, hb, Bool.false_eq_true, if_false]

/-- Reading one of the buffers after a host write of some buffer while idle: `x` is what an element
write stores in it, and an element write of any other buffer leaves it. -/
theorem read_hostWrite {w : Nat} {buf : Space} {get : State → Memory w} {s : State} {n : Nat}
    {v : BitVec 64} {x : BitVec w} (hb : s.status.busy = false) (hwf : Memory.wf (get s))
    (hself : get (s.elementWrite buf n v) = Memory.write (get s) n x)
    (hother : ∀ sp, sp ≠ .reg → sp ≠ buf → get (s.elementWrite sp n v) = get s)
    {sp : Space} (hsp : sp ≠ .reg) (a : Nat) :
    Memory.read (get (s.hostWrite sp n v)) a =
      if sp = buf ∧ n < buf.size s.env.par ∧ a = n then x else Memory.read (get s) a := by
  rw [hostWrite_of_idle hb]
  by_cases hbuf : sp = buf
  · subst hbuf
    by_cases hn : n < sp.size s.env.par
    · simp only [hn, if_true, hself, Memory.read_write hwf, true_and]
    · simp only [hn, if_false, false_and, and_false]
  · simp only [hbuf, false_and, if_false]
    split_ifs
    · rw [hother sp hsp hbuf]
    · rfl

/-- Settles O21: only the host-written buffers change, and each of them by one element at most. -/
theorem bufferWritesStoreOneElement : Obligations.BufferWritesStoreOneElement := by
  intro s sp n v es h hb hsp hi
  have hbufs : s.popInput.bufs.Good s.popInput.env.par := h.bufs
  refine ⟨_, step_of_hostWrite h.par hi, ?_⟩
  have hpw := read_hostWrite (get := fun s => s.bufs.pw) (s := s.popInput) (n := n) (v := v) hb
    hbufs.pw.1 rfl (fun sp hreg hne => by cases sp <;> first | rfl | contradiction) hsp
  have hdin := read_hostWrite (get := fun s => s.bufs.din) (s := s.popInput) (n := n) (v := v) hb
    hbufs.din.1 rfl (fun sp hreg hne => by cases sp <;> first | rfl | contradiction) hsp
  have hsin := read_hostWrite (get := fun s => s.bufs.sin) (s := s.popInput) (n := n) (v := v) hb
    hbufs.sin.1 rfl (fun sp hreg hne => by cases sp <;> first | rfl | contradiction) hsp
  obtain ⟨b, hw⟩ := exists_bufs_hostWrite hsp n v s.popInput
  rw [hw] at hpw hdin hsin ⊢
  refine ⟨rfl, rfl, rfl, rfl, rfl, rfl, rfl, hpw, hdin, fun a => ?_⟩
  refine (congrArg BitVec.toNat (hsin a)).trans ?_
  rw [apply_ite BitVec.toNat, toNat_lowBits_flen]
  rfl

end Sys2Proof.Machine

/-! What a command reads (10_state.md, 60_exceptions.md): the result of a command by the operands it
reads, O29 and O28; the operand range errors, O30. -/

namespace Sys2Proof.Machine

-- as in the tests: theorems checked side by side need more threads than the memory limit allows
set_option Elab.async false

/-! ### The operands of a result (R51, R54) -/

section
variable {s s' : State} (hpar : s'.env.par = s.env.par)
include hpar

theorem checkPassword_congr (h : s'.opnd.pwlen = s.opnd.pwlen) :
    s'.checkPassword = s.checkPassword := by
  simp only [State.checkPassword, hpar, h]

theorem checkData_congr (h : s'.opnd.dlen = s.opnd.dlen) : s'.checkData = s.checkData := by
  simp only [State.checkData, hpar, h]

theorem checkSamples_congr (h : s'.sampleCount = s.sampleCount) :
    s'.checkSamples = s.checkSamples := by
  simp only [State.checkSamples, hpar, h]

theorem checkOutput_congr (size : Nat) : s'.checkOutput size = s.checkOutput size := by
  simp only [State.checkOutput, hpar]

theorem quantized_congr (hcount : s'.sampleCount = s.sampleCount) (h : s'.samples = s.samples) :
    s'.quantized = s.quantized := by
  rw [State.quantized, State.quantized, checkSamples_congr hpar hcount, hpar, h]

end

/-- `s'` agrees with `s` on the operands that the command `i` reads, of `NCHAN` and `NFRM` on the
product and of the buffers on the elements in length (R54). -/
def SameOperands (s s' : State) : Instr → Prop
  | .kdf => s'.opnd.pwlen = s.opnd.pwlen ∧ s'.password = s.password
  | .enc => s'.opnd.pwlen = s.opnd.pwlen ∧ s'.password = s.password ∧
      s'.opnd.dlen = s.opnd.dlen ∧ s'.data = s.data ∧ s'.nextDraw = s.nextDraw
  | .dec => s'.opnd.pwlen = s.opnd.pwlen ∧ s'.password = s.password ∧
      s'.opnd.dlen = s.opnd.dlen ∧ s'.data = s.data
  | .qnt | .xtd | .ext false => s'.sampleCount = s.sampleCount ∧ s'.samples = s.samples
  | .emb => s'.sampleCount = s.sampleCount ∧ s'.samples = s.samples ∧
      s'.opnd.nbits = s.opnd.nbits ∧ s'.bitBytes = s.bitBytes
  | .ext true => s'.sampleCount = s.sampleCount ∧ s'.samples = s.samples ∧
      s'.opnd.maxbits = s.opnd.maxbits
  | .hide => s'.opnd.pwlen = s.opnd.pwlen ∧ s'.password = s.password ∧
      s'.opnd.dlen = s.opnd.dlen ∧ s'.data = s.data ∧ s'.sampleCount = s.sampleCount ∧
      s'.samples = s.samples ∧ s'.nextDraw = s.nextDraw
  | .reveal => s'.opnd.pwlen = s.opnd.pwlen ∧ s'.password = s.password ∧
      s'.sampleCount = s.sampleCount ∧ s'.samples = s.samples
  | .cap | .rqb => s'.opnd.arg = s.opnd.arg

/-- The result of a command is a function of the instance and the operands the command reads. -/
theorem commandResult_congr {i : Instr} {s s' : State} (hpar : s'.env.par = s.env.par)
    (h : SameOperands s s' i) : commandResult s' i = commandResult s i := by
  cases i with
  | kdf =>
    obtain ⟨hpwlen, hpw⟩ := h
    simp only [commandResult, kdfResult, checkPassword_congr hpar hpwlen, hpw]
  | enc =>
    obtain ⟨hpwlen, hpw, hdlen, hdata, hdraw⟩ := h
    simp only [commandResult, encChecks, encResult, checkPassword_congr hpar hpwlen,
      checkData_congr hpar hdlen, checkOutput_congr hpar, hpw, hdlen, hdata, hdraw]
  | dec =>
    obtain ⟨hpwlen, hpw, hdlen, hdata⟩ := h
    simp only [commandResult, decResult, checkPassword_congr hpar hpwlen,
      checkData_congr hpar hdlen, hpw, hdata]
  | qnt =>
    obtain ⟨hcount, hsamples⟩ := h
    simp only [commandResult, qntResult, quantized_congr hpar hcount hsamples]
  | emb =>
    obtain ⟨hcount, hsamples, hnbits, hbits⟩ := h
    simp only [commandResult, embResult, quantized_congr hpar hcount hsamples, hpar, hnbits, hbits]
  | ext mb =>
    cases mb with
    | false =>
      obtain ⟨hcount, hsamples⟩ := h
      simp only [commandResult, extResult, extCount, quantized_congr hpar hcount hsamples,
        Bool.false_eq_true, if_false]
    | true =>
      obtain ⟨hcount, hsamples, hmax⟩ := h
      simp only [commandResult, extResult, extCount, quantized_congr hpar hcount hsamples, hmax]
  | xtd =>
    obtain ⟨hcount, hsamples⟩ := h
    simp only [commandResult, xtdResult, quantized_congr hpar hcount hsamples]
  | hide =>
    obtain ⟨hpwlen, hpw, hdlen, hdata, hcount, hsamples, hdraw⟩ := h
    simp only [commandResult, hideChecks, hideResult, checkPassword_congr hpar hpwlen,
      checkData_congr hpar hdlen, checkSamples_congr hpar hcount, checkOutput_congr hpar, hpar, hpw,
      hdlen, hdata, hsamples, hdraw]
  | reveal =>
    obtain ⟨hpwlen, hpw, hcount, hsamples⟩ := h
    simp only [commandResult, revealResult, checkPassword_congr hpar hpwlen,
      quantized_congr hpar hcount hsamples, hpw]
  | cap | rqb =>
    have harg : s'.opnd.arg = s.opnd.arg := h
    simp only [commandResult, harg]

/-- Commands with the same result show the same `STATUS` and outputs. -/
theorem exec_congr {i : Instr} {s s' : State} (h : commandResult s' i = commandResult s i) :
    ∃ t t', exec i s = .next t ∧ exec i s' = .next t' ∧ t'.status = t.status ∧ t'.out = t.out := by
  obtain ⟨t, ht⟩ := exists_exec i s
  obtain ⟨t', ht'⟩ := exists_exec i s'
  obtain ⟨hstatus, hout⟩ := exec_status_out ht
  obtain ⟨hstatus', hout'⟩ := exec_status_out ht'
  rw [h] at hstatus' hout'
  exact ⟨t, t', ht, ht', hstatus'.trans hstatus.symm, hout'.trans hout.symm⟩

/-- Settles O29: the operands listed are all that the result is computed from. -/
theorem unreadOperandsHaveNoEffect : Obligations.UnreadOperandsHaveNoEffect := by
  intro i s s' hpar h
  refine exec_congr (commandResult_congr hpar ?_)
  cases i with
  | ext mb => cases mb <;> exact h
  | _ => exact h

/-- Equal operand registers, input buffers and draws leave nothing a command reads to differ. -/
theorem sameOperands_of_eq {s s' : State} (hopnd : s'.opnd = s.opnd) (hbufs : s'.bufs = s.bufs)
    (hdraw : s'.nextDraw = s.nextDraw) (i : Instr) : SameOperands s s' i := by
  have hpwlen : s'.opnd.pwlen = s.opnd.pwlen := by rw [hopnd]
  have hpw : s'.password = s.password := by rw [State.password, hopnd, hbufs, State.password]
  have hdlen : s'.opnd.dlen = s.opnd.dlen := by rw [hopnd]
  have hdata : s'.data = s.data := by rw [State.data, hopnd, hbufs, State.data]
  have hcount : s'.sampleCount = s.sampleCount := by
    rw [State.sampleCount, hopnd, State.sampleCount]
  have hsamples : s'.samples = s.samples := by
    rw [State.samples, hcount, hbufs, State.samples]
  have hbits : s'.bitBytes = s.bitBytes := by rw [State.bitBytes, hopnd, hbufs, State.bitBytes]
  cases i with
  | kdf => exact ⟨hpwlen, hpw⟩
  | enc => exact ⟨hpwlen, hpw, hdlen, hdata, hdraw⟩
  | dec => exact ⟨hpwlen, hpw, hdlen, hdata⟩
  | qnt | xtd => exact ⟨hcount, hsamples⟩
  | emb => exact ⟨hcount, hsamples, congrArg OperandRegs.nbits hopnd, hbits⟩
  | ext mb =>
    cases mb with
    | false => exact ⟨hcount, hsamples⟩
    | true => exact ⟨hcount, hsamples, congrArg OperandRegs.maxbits hopnd⟩
  | hide => exact ⟨hpwlen, hpw, hdlen, hdata, hcount, hsamples, hdraw⟩
  | reveal => exact ⟨hpwlen, hpw, hcount, hsamples⟩
  | cap | rqb => exact congrArg OperandRegs.arg hopnd

/-- Settles O28: a case of what O29 rests on. -/
theorem resultsDependOnOperandsOnly : Obligations.ResultsDependOnOperandsOnly :=
  fun i _ _ hopnd hbufs hpar hdraw =>
    exec_congr (commandResult_congr hpar (sameOperands_of_eq hopnd hbufs hdraw i))

/-! ### Operand range errors (R255) -/

theorem decResult_of_password_gt {s : State} (h : s.opnd.pwlen.toNat > s.env.par.pwCap) :
    decResult s = .error ⟨.operandRange, 1, s.opnd.pwlen.toNat⟩ := by
  rw [decResult, checkPassword_of_gt h, except_error_bind]

theorem decResult_of_data_gt {s : State} (hpw : s.opnd.pwlen.toNat ≤ s.env.par.pwCap)
    (h : s.opnd.dlen.toNat > s.env.par.dCap) :
    decResult s = .error ⟨.operandRange, 2, s.opnd.dlen.toNat⟩ := by
  rw [decResult, checkPassword_eq_ok (u := ()).2 hpw, except_ok_bind, checkData_of_gt h,
    except_error_bind]

/-- A command that fails without a draw, its frame left aside. -/
theorem fails_noDraw {i : Instr} {s : State} {code : BitVec 4} {info0 info1 : Nat}
    (h : ∃ t, exec i s = .next t ∧ t.FailedWith code info0 info1 ∧ Untouched s t ∧ NoDraw s t) :
    ∃ t, exec i s = .next t ∧ t.FailedWith code info0 info1 ∧ NoDraw s t := by
  obtain ⟨t, ht, hfail, -, hdraw⟩ := h
  exact ⟨t, ht, hfail, hdraw⟩

section
variable {s : State} {i : Instr}

theorem exec_of_password_gt (h : s.opnd.pwlen.toNat > s.env.par.pwCap)
    (hi : i = .kdf ∨ i = .enc ∨ i = .dec ∨ i = .hide ∨ i = .reveal) :
    ∃ t, exec i s = .next t ∧ t.FailedWith 9 1 s.opnd.pwlen.toNat ∧ Untouched s t ∧
      NoDraw s t := by
  rcases hi with rfl | rfl | rfl | rfl | rfl
  · exact exec_kdf_of_gt h
  · exact exec_enc_of_check (encChecks_of_password_gt h)
  · exact exec_of_operandRange (exec_dec s) (decResult_of_password_gt h)
  · exact exec_of_operandRange (exec_hide_of_check (hideChecks_of_password_gt h)) rfl
  · exact exec_of_operandRange (exec_reveal s) (revealResult_of_password_gt h)

theorem exec_of_data_gt (hpw : s.opnd.pwlen.toNat ≤ s.env.par.pwCap)
    (h : s.opnd.dlen.toNat > s.env.par.dCap) (hi : i = .enc ∨ i = .dec ∨ i = .hide) :
    ∃ t, exec i s = .next t ∧ t.FailedWith 9 2 s.opnd.dlen.toNat ∧ Untouched s t ∧
      NoDraw s t := by
  rcases hi with rfl | rfl | rfl
  · exact exec_enc_of_check (encChecks_of_data_gt hpw h)
  · exact exec_of_operandRange (exec_dec s) (decResult_of_data_gt hpw h)
  · exact exec_of_operandRange (exec_hide_of_check (hideChecks_of_data_gt hpw h)) rfl

/-- The commands that read samples, behind the checks that come before those of the samples. -/
theorem exec_of_samples_gt (h : s.sampleCount > s.env.par.sCap)
    (hi : i = .qnt ∨ i = .emb ∨ (∃ mb, i = .ext mb) ∨ i = .xtd ∨
      (i = .hide ∧ s.opnd.pwlen.toNat ≤ s.env.par.pwCap ∧ s.opnd.dlen.toNat ≤ s.env.par.dCap) ∨
      (i = .reveal ∧ s.opnd.pwlen.toNat ≤ s.env.par.pwCap)) :
    ∃ t, exec i s = .next t ∧ t.FailedWith 9 3 s.sampleCount ∧ Untouched s t ∧ NoDraw s t := by
  rcases hi with rfl | rfl | ⟨mb, rfl⟩ | rfl | ⟨rfl, hpw, hd⟩ | ⟨rfl, hpw⟩
  · exact exec_of_sampleCount_gt (exec_qnt s) (fun _ => qntResult_of_error) h
  · exact exec_of_sampleCount_gt (exec_emb s) (fun _ => embResult_of_error) h
  · exact exec_of_sampleCount_gt (exec_ext mb s) (fun _ => extResult_of_error) h
  · exact exec_of_sampleCount_gt (exec_xtd s) (fun _ => xtdResult_of_error) h
  · exact ⟨_, exec_hide_of_check (hideChecks_of_samples_gt hpw hd h),
      failedWith_complete_sampleRange s, untouched_complete _ s, noDraw_complete _ s⟩
  · exact exec_of_sampleCount_gt (exec_reveal s) (fun _ => revealResult_of_error hpw) h

end

/-- Settles O30: each check, with those before it passed, ends each command that makes it. -/
theorem operandRangeErrors : Obligations.OperandRangeErrors := by
  intro s
  refine ⟨fun h i hi => fails_noDraw (exec_of_password_gt h hi),
    fun hpw h i hi => fails_noDraw (exec_of_data_gt hpw h hi),
    fun h i hi => fails_noDraw (exec_of_samples_gt h hi),
    fun hpw hd => ⟨fun h => ?envelope, fun hs h => ?blob⟩⟩
  case envelope => exact fails_noDraw (exec_enc_of_check (encChecks_of_output_gt hpw hd h))
  case blob =>
    exact fails_noDraw
      (exec_of_operandRange (exec_hide_of_check (hideChecks_of_output_gt hpw hd hs h)) rfl)

end Sys2Proof.Machine

/-! The cipher unit, its rest (41_aes_block.md, 42_cbc_envelope.md): `DecryptBytes` and O33, `DEC`
and O34; the field of AES and O36, O37. -/

namespace Sys2Proof.Machine

-- as in the tests: theorems checked side by side need more threads than the memory limit allows
set_option Elab.async false

/-! ### `DecryptBytes` (R166) -/

/-- A string of whole blocks, two at least, is one block and whole blocks behind it. -/
theorem whole_blocks_behind {e : List Byte} (h32 : 32 ≤ e.length) (hmod : e.length % 16 = 0) :
    ¬((e.drop 16).length = 0 ∨ (e.drop 16).length % 16 ≠ 0) := by
  rw [List.length_drop]
  omega

section
variable {e : List Byte} (pw : List Byte)

theorem decryptBytes_of_short (h : e.length < 16) :
    decryptBytes e pw = .error ⟨.malformedEnvelope, 1, e.length⟩ := if_pos h

theorem decryptBytes_of_no_blocks (h16 : 16 ≤ e.length)
    (h : e.length = 16 ∨ e.length % 16 ≠ 0) :
    decryptBytes e pw = .error ⟨.malformedEnvelope, 2, e.length⟩ := by
  have hblocks : (e.drop 16).length = 0 ∨ (e.drop 16).length % 16 ≠ 0 := by
    rw [List.length_drop]
    omega
  rw [decryptBytes, if_neg (by omega), if_pos hblocks]

variable {pw} (h32 : 32 ≤ e.length) (hmod : e.length % 16 = 0)
include h32 hmod

theorem decryptBytes_of_unpad_error {err : CmdErr}
    (hpad : unpad (cbcDec (keyExpansion (deriveKey pw)) (e.take 16) (e.drop 16)) = .error err) :
    decryptBytes e pw = .error err := by
  rw [decryptBytes, if_neg (by omega), if_neg (whole_blocks_behind h32 hmod)]
  simp only [hpad]

theorem decryptBytes_of_firstBad {m : List Byte} {b : Nat}
    (hpad : unpad (cbcDec (keyExpansion (deriveKey pw)) (e.take 16) (e.drop 16)) = .ok m)
    (hutf : utf8FirstBad m = some b) :
    decryptBytes e pw = .error ⟨.invalidEncoding, b, m.length⟩ := by
  rw [decryptBytes, if_neg (by omega), if_neg (whole_blocks_behind h32 hmod)]
  simp only [hpad, hutf]

end

/-- Settles O33: the two checks of the envelope, the three ways `Unpad` ends, and the scan. -/
theorem decryptBytesSteps : Obligations.DecryptBytesSteps := by
  intro e pw
  refine ⟨decryptBytes_of_short pw, decryptBytes_of_no_blocks pw, fun h32 hmod => ?_⟩
  rintro p rfl v rfl
  refine ⟨fun hout => ?count, fun h1 h16 hbroken => ?broken, fun h1 h16 hall => ?padded⟩
  case count => exact decryptBytes_of_unpad_error h32 hmod (unpad_of_count_out hout)
  case broken => exact decryptBytes_of_unpad_error h32 hmod (unpad_of_broken h1 h16 hbroken)
  case padded =>
    have hpad := unpad_of_not_broken h1 h16 fun ⟨k, hk1, hk2, hne⟩ => hne (hall k hk1 hk2)
    refine ⟨fun b hb => ?_, decryptBytes_of_blocks h32 hmod hpad⟩
    rw [decryptBytes_of_firstBad h32 hmod hpad hb, List.length_take_of_le (Nat.sub_le _ _)]
    rfl

/-! ### `DEC` (R166) -/

theorem decResult_of_error {s : State} {e : CmdErr} (hpw : s.opnd.pwlen.toNat ≤ s.env.par.pwCap)
    (hd : s.opnd.dlen.toNat ≤ s.env.par.dCap) (h : decryptBytes s.data s.password = .error e) :
    decResult s = .error e := by
  rw [decResult, checkPassword_eq_ok (u := ()).2 hpw, except_ok_bind,
    checkData_eq_ok (u := ()).2 hd, except_ok_bind, h, except_error_bind]

/-- Settles O34: the two checks, then the two answers of `DecryptBytes`. -/
theorem decCommand : Obligations.DecCommand := by
  refine ⟨decode_encode .dec, fun s hp => ⟨fun h => exec_of_password_gt h (by decide),
    fun hpw h => exec_of_data_gt hpw h (by decide),
    fun hpw hd => ⟨fun m hm => ?delivers, fun e he => ?fails⟩⟩⟩
  case delivers =>
    have hle := length_decryptBytes hm
    rw [length_data] at hle
    exact exec_of_bytesOut (exec_dec s) (decResult_of_ok hpw hd hm)
      (hle.trans_lt s.opnd.dlen.isLt)
  case fails => exact exec_of_error (exec_dec s) (decResult_of_error hpw hd he)

/-! ### The field of AES (R126) -/

/-- A byte with one bit set multiplies by that power of `xtime`. -/
theorem gmul_xtimes_one (a : Byte) {i : Nat} (hi : i ∈ List.range 8) :
    gmul a (xtimes i 0x01) = xtimes i a := by
  have hlt := List.mem_range.1 hi
  interval_cases i <;> exact BitVec.zero_xor

/-- Reduction by the polynomial of the field: the bit that `xtime` shifts out of a byte. -/
theorem gmul_xtimes_eight_one : ∀ a : Byte, gmul a (xtimes 8 0x01) = xtimes 8 a := by
  decide +kernel

theorem xorLinear_gmul (a : Byte) : XorLinear (gmul a) := gmul_xor a

theorem xorLinear_xtime : XorLinear xtime := fun x y => by
  have htwo : ∀ a, xtime a = gmul 0x02 a := fun a => (gmul_two_left a).symm
  rw [htwo, htwo, htwo, gmul_xor]

theorem XorLinear.comp {f g : Byte → Byte} (hf : XorLinear f) (hg : XorLinear g) :
    XorLinear (f ∘ g) := fun x y => by
  rw [Function.comp_apply, hg, hf]
  rfl

/-- Multiplication commutes with `xtime`, which is seen on the bits of the second factor. -/
theorem gmul_xtime (a b : Byte) : gmul a (xtime b) = xtime (gmul a b) := by
  refine ((xorLinear_gmul a).comp xorLinear_xtime).ext (xorLinear_xtime.comp (xorLinear_gmul a))
    (fun i hi => ?_) b
  rw [Function.comp_apply, Function.comp_apply, gmul_xtimes_one a hi]
  rcases Nat.lt_or_ge i 7 with hlt | hge
  · exact gmul_xtimes_one a (i := i + 1) (List.mem_range.2 (Nat.succ_lt_succ hlt))
  · obtain rfl : i = 7 := Nat.le_antisymm (Nat.le_of_lt_succ (List.mem_range.1 hi)) hge
    exact gmul_xtimes_eight_one a

theorem gmul_xtimes (a : Byte) (i : Nat) (b : Byte) :
    gmul a (xtimes i b) = xtimes i (gmul a b) := by
  induction i with
  | zero => rfl
  | succ i ih => rw [xtimes, gmul_xtime, ih, xtimes]

theorem gmul_assoc (a b c : Byte) : gmul (gmul a b) c = gmul a (gmul b c) := by
  refine (xorLinear_gmul (gmul a b)).ext ((xorLinear_gmul a).comp (xorLinear_gmul b))
    (fun i hi => ?_) c
  rw [Function.comp_apply, gmul_xtimes_one _ hi, gmul_xtimes_one _ hi, gmul_xtimes]

theorem gmul_one_right (a : Byte) : gmul a 0x01 = a := gmul_xtimes_one a (i := 0) (by decide)

theorem gmul_zero_left (b : Byte) : gmul 0 b = 0 :=
  (xorLinear_gmul 0).ext (g := fun _ => 0#8) (fun _ _ => BitVec.xor_self.symm) (by decide) b

/-- A left inverse is the only right inverse, as multiplication is associative. -/
theorem eq_of_gmul_eq_one {a u v : Byte} (hu : gmul u a = 0x01) (hv : gmul a v = 0x01) : v = u := by
  rw [← gmul_one_left v, ← hu, gmul_assoc, hv, gmul_one_right]

/-! ### The S-boxes (R127, R128) -/

/-- Bit `i` of the affine image of `v` (R127). -/
def affineBit (v : Byte) (i : Nat) : Bool :=
  v.getLsbD i ^^ v.getLsbD ((i + 4) % 8) ^^ v.getLsbD ((i + 5) % 8) ^^
    v.getLsbD ((i + 6) % 8) ^^ v.getLsbD ((i + 7) % 8) ^^ (0x63#8).getLsbD i

/-- The affine image of `v` as a byte: the bits it adds up stand in rotations of `v`. -/
def affineImage (v : Byte) : Byte :=
  v ^^^ v.rotateLeft 4 ^^^ v.rotateLeft 3 ^^^ v.rotateLeft 2 ^^^ v.rotateLeft 1 ^^^ 0x63

theorem getLsbD_affineImage (v : Byte) {i : Nat} (hi : i < 8) :
    (affineImage v).getLsbD i = affineBit v i := by
  interval_cases i <;> simp [affineImage, affineBit]

/-- The byte whose affine image is `x`. -/
def affinePreimage (x : Byte) : Byte :=
  x.rotateLeft 1 ^^^ x.rotateLeft 3 ^^^ x.rotateLeft 6 ^^^ 0x05

theorem affineImage_affinePreimage : ∀ x : Byte, affineImage (affinePreimage x) = x := by
  decide +kernel

/-- The table of R127 entry by entry: behind the affine map stands the inverse in the field. -/
theorem gmul_affinePreimage_sbox : ∀ a : Byte, a ≠ 0 →
    gmul (affinePreimage (sbox a)) a = 0x01 := by decide +kernel

theorem affinePreimage_sbox_zero : affinePreimage (sbox 0) = 0 := by decide

/-- The inverse of a byte, 0 for 0, is the affine preimage of its entry in the table. -/
theorem eq_affinePreimage_sbox {a v : Byte} (h : a = 0 ∧ v = 0 ∨ gmul a v = 0x01) :
    v = affinePreimage (sbox a) := by
  rcases h with ⟨rfl, rfl⟩ | h
  · exact affinePreimage_sbox_zero.symm
  · have ha : a ≠ 0 := by
      rintro rfl
      rw [gmul_zero_left] at h
      exact absurd h (by decide)
    exact eq_of_gmul_eq_one (gmul_affinePreimage_sbox a ha) h

/-- Settles O36: the inverse the statement speaks of is the one the table is made from. -/
theorem sboxIsTheAffineImageOfTheInverse : Obligations.SboxIsTheAffineImageOfTheInverse := by
  intro a v i hi h
  have hbit := getLsbD_affineImage v hi
  rw [eq_affinePreimage_sbox h, affineImage_affinePreimage] at hbit
  rw [eq_affinePreimage_sbox h]
  exact hbit

/-- Settles O37. -/
theorem invSboxInvertsSbox : Obligations.InvSboxInvertsSbox :=
  fun a => ⟨invSbox_sbox a, sbox_invSbox a⟩

end Sys2Proof.Machine

/-! The bit serializer, its rest (44_lsb_codec.md): O52. -/

namespace Sys2Proof.Machine

-- as in the tests: theorems checked side by side need more threads than the memory limit allows
set_option Elab.async false

/-- Settles O52: packing bit by bit, and the bits of a byte string with none behind them. -/
theorem packingKeepsEveryBit : Obligations.PackingKeepsEveryBit := by
  refine ⟨fun b => ⟨length_packBits b, fun i _ => bitOf_packBits b i, fun i hi => ?_⟩, fun b => ?_⟩
  · exact (bitOf_packBits b i).trans (List.getD_eq_default _ _ hi)
  · have h := bytesOf_bitsOf_append b []
    have hnil : bytesOf [] = [] := rfl
    rwa [List.append_nil, hnil, List.append_nil] at h

end Sys2Proof.Machine

/-! The sample quantizer, its rest (43_lsb_quantizer.md): the fields of a pattern and O46; `RoundF`
by the scaled value it rounds, and O45. -/

namespace Sys2Proof.Machine

-- as in the tests: theorems checked side by side need more threads than the memory limit allows
set_option Elab.async false

/-! ### The fields of a pattern (R176, R177) -/

/-- Sign, exponent field and fraction of a pattern put together from them. -/
theorem fields_of_toNat {f : Flen} {a : Sample} {neg : Bool} {e fr : Nat}
    (ha : a.toNat = (neg.toNat * 2 ^ expWidth f + e) * 2 ^ (precision f - 1) + fr)
    (he : e < 2 ^ expWidth f) (hfr : fr < 2 ^ (precision f - 1)) :
    a.getLsbD (f.bits - 1) = neg ∧ a.toNat / 2 ^ (precision f - 1) % 2 ^ expWidth f = e ∧
      a.toNat % 2 ^ (precision f - 1) = fr := by
  obtain ⟨hupper, hfrac⟩ := (Nat.div_mod_unique (Nat.two_pow_pos (precision f - 1))).2
    ⟨show fr + 2 ^ (precision f - 1) * (neg.toNat * 2 ^ expWidth f + e) = a.toNat by rw [ha]; ring,
      hfr⟩
  obtain ⟨hneg, hexp⟩ := (Nat.div_mod_unique (Nat.two_pow_pos (expWidth f))).2
    ⟨show e + 2 ^ expWidth f * neg.toNat = a.toNat / 2 ^ (precision f - 1) by rw [hupper]; ring, he⟩
  refine ⟨?_, hexp, hfrac⟩
  rw [BitVec.getLsbD, Nat.testBit_eq_decide_div_mod_eq, bits_eq, Nat.add_sub_cancel, Nat.pow_add,
    ← Nat.div_div_eq_div_mul, hneg]
  cases neg <;> rfl

/-- The pattern made for a number below the normal ones: the exponent field is 0. -/
theorem toNat_patternOf_of_lt {f : Flen} {m : Nat} (h : m < 2 ^ (precision f - 1)) (neg : Bool)
    (k : Int) :
    (patternOf f (.fin neg m k)).toNat =
      (neg.toNat * 2 ^ expWidth f + 0) * 2 ^ (precision f - 1) + m := by
  have hsign : patternNat f (.fin neg m k) =
      (neg.toNat * 2 ^ expWidth f + 0) * 2 ^ (precision f - 1) + m := by
    simp only [patternNat, if_pos h, bits_eq, Nat.add_sub_cancel, Nat.pow_add]
    cases neg <;> simp [Nat.mul_comm]
  have hbits : 2 ^ f.bits ≤ 2 ^ 64 := by cases f <;> decide
  have hlt : patternNat f (.fin neg m k) < 2 ^ f.bits := by
    have hone := Nat.mul_le_mul_right (2 ^ expWidth f * 2 ^ (precision f - 1)) (Bool.toNat_le neg)
    have hw := Nat.mul_le_mul_right (2 ^ (precision f - 1)) (Nat.one_le_two_pow (n := expWidth f))
    rw [hsign, bits_eq, Nat.pow_succ, Nat.pow_add, Nat.add_zero, Nat.mul_assoc,
      Nat.mul_comm (2 ^ (precision f - 1))]
    omega
  rw [patternOf, BitVec.toNat_ofNat, Nat.mod_eq_of_lt hlt, Nat.mod_eq_of_lt (hlt.trans_le hbits),
    hsign]

/-- The pattern of a subnormal number or a zero has it as its value. -/
theorem floatOf_patternOf_of_lt {f : Flen} {m : Nat} (h : m < 2 ^ (precision f - 1)) (neg : Bool) :
    floatOf f (patternOf f (.fin neg m (1 - expBias f - (precision f - 1)))) =
      some (.fin neg m (1 - expBias f - (precision f - 1))) := by
  have hw := two_pow_expWidth f
  have hfields := toNat_patternOf_of_lt h neg (1 - expBias f - (precision f - 1))
  obtain ⟨hsign, hexp, hfrac⟩ := fields_of_toNat hfields (Nat.two_pow_pos _) h
  have htop : 0 ≠ 2 ^ expWidth f - 1 := by omega
  simp only [floatOf, hsign, hexp, hfrac, if_neg htop, if_true]

/-- The value of a pattern by its fields, as `extractLsb'` cuts them out. -/
theorem floatOf_eq_of_extract {f : Flen} {a : Sample} {e fr : Nat}
    (he : e = (a.extractLsb' (precision f - 1) (expWidth f)).toNat)
    (hfr : fr = (a.extractLsb' 0 (precision f - 1)).toNat) :
    floatOf f a =
      if e = 2 ^ expWidth f - 1 then
        if fr = 0 then some (.inf (a.getLsbD (f.bits - 1))) else none
      else some (.fin (a.getLsbD (f.bits - 1)) (if e = 0 then fr else 2 ^ (precision f - 1) + fr)
        ((max e 1 : Nat) - expBias f - (precision f - 1))) := by
  have he' : a.toNat / 2 ^ (precision f - 1) % 2 ^ expWidth f = e := by
    rw [he, BitVec.extractLsb'_toNat, Nat.shiftRight_eq_div_pow]
  have hfr' : a.toNat % 2 ^ (precision f - 1) = fr := by
    rw [hfr, BitVec.extractLsb'_toNat, Nat.shiftRight_zero]
  simp only [floatOf, he', hfr']
  by_cases htop : e = 2 ^ expWidth f - 1
  · simp only [if_pos htop]
  rcases Nat.eq_zero_or_pos e with rfl | hpos
  · simp only [if_neg htop, if_true]
    rfl
  · simp only [if_neg htop, if_neg hpos.ne', Nat.max_eq_left hpos]

/-- Settles O46: normal numbers, then those below them; the fields of each format. -/
theorem patternHasItsValue : Obligations.PatternHasItsValue := by
  refine ⟨fun f neg m k hm hlow hhigh hsub => ?_, fun a e fr he hfr => ?_, fun a e fr he hfr => ?_⟩
  · rcases Nat.lt_or_ge m (2 ^ (precision f - 1)) with hlt | hge
    · rw [hsub hlt]
      exact floatOf_patternOf_of_lt hlt neg
    · exact floatOf_patternOf_of_normal ⟨hge, hm, hlow, hhigh⟩ neg
  · have hk : ((max e 1 : Nat) : Int) - expBias .f32 - (precision .f32 - 1) =
        (max e 1 : Nat) - 150 := by
      simp only [expBias, precision]
      omega
    exact hk ▸ floatOf_eq_of_extract (f := .f32) he hfr
  · have hk : ((max e 1 : Nat) : Int) - expBias .f64 - (precision .f64 - 1) =
        (max e 1 : Nat) - 1075 := by
      simp only [expBias, precision]
      omega
    exact hk ▸ floatOf_eq_of_extract (f := .f64) he hfr

/-! ### What `RoundF` rounds (R178) -/

/-- At a tie `RoundInt` is even. -/
theorem roundInt_even_of_tie {n : Int} {d : Nat} (hd : 0 < d)
    (h : |(roundInt n d : ℚ) - n / d| = 1 / 2) : roundInt n d % 2 = 0 := by
  have hd' : (0 : ℚ) < d := by exact_mod_cast hd
  have hdist : (roundInt n d : ℚ) - n / d = -((n - roundInt n d * d) / d) := by field_simp; ring
  rw [hdist, abs_neg, abs_div, abs_of_pos hd', div_eq_iff hd'.ne'] at h
  have htie : 2 * |(n : ℚ) - roundInt n d * d| = d := by linarith
  exact (roundIntIsNearestTiesToEven n d hd).2 (by exact_mod_cast htie)

/-- The value `x` in units of the last place of exponent `e`. -/
def scaled (f : Flen) (x : ℚ) (e : Int) : ℚ := x * 2 ^ (-lastPlace f e)

theorem scaled_mul (f : Flen) (x : ℚ) (e : Int) : scaled f x e * 2 ^ lastPlace f e = x := by
  rw [scaled, mul_assoc, ← zpow_add₀ two_ne_zero, neg_add_cancel, zpow_zero, mul_one]

/-- How `RoundF` comes to its significand: the exponent `e` is the value's own or the least of
normal numbers, and `r` is the value in units of the last place, to nearest, ties to even. -/
structure RoundsTo (f : Flen) (x : ℚ) (e : Int) (r : Nat) : Prop where
  expLow : 1 - (expBias f : Int) ≤ e
  low : 1 - (expBias f : Int) < e → (2 : ℚ) ^ (precision f - 1) ≤ scaled f x e
  high : scaled f x e < (2 : ℚ) ^ precision f
  near : |(r : ℚ) - scaled f x e| ≤ 1 / 2
  tie : |(r : ℚ) - scaled f x e| = 1 / 2 → r % 2 = 0

/-- What `RoundF` answers for the exponent and significand it comes to: a carry out of the
significand goes into the exponent, and too large an exponent is an infinity. -/
def roundedFloat (f : Flen) (neg : Bool) (e : Int) (r : Nat) : FloatVal :=
  if r = 2 ^ precision f then
    if e + 1 > expBias f then .inf neg else .fin neg (2 ^ (precision f - 1)) (lastPlace f (e + 1))
  else if e > expBias f then .inf neg else .fin neg r (lastPlace f e)

theorem roundFloat_eq_roundedFloat {f : Flen} {num den r : Nat} (hnum : 0 < num) {e : Int}
    (he : max (floorLog2 num den) (1 - expBias f) = e)
    (hr : roundInt (num * 2 ^ (-lastPlace f e).toNat : Nat)
      (den * 2 ^ (lastPlace f e).toNat) = r) (neg : Bool) :
    roundFloat f neg num den = roundedFloat f neg e r := by
  simp only [lastPlace] at hr
  simp only [roundFloat, roundedFloat, if_neg hnum.ne', he, hr, Int.toNat_natCast, lastPlace]
  split_ifs <;> rfl

/-- A value below a power of two, in units of the last place of that exponent. -/
theorem scaled_lt {f : Flen} {x : ℚ} {e : Int} (h : x < 2 ^ (e + 1)) :
    scaled f x e < (2 : ℚ) ^ precision f := by
  calc x * 2 ^ (-lastPlace f e) < 2 ^ (e + 1) * 2 ^ (-lastPlace f e) := by gcongr
    _ = (2 : ℚ) ^ precision f := by
      rw [← zpow_natCast, ← zpow_add₀ two_ne_zero, lastPlace]
      congr 1
      omega

/-- `RoundF` of a positive number rounds it to nearest in units of the last place. -/
theorem exists_roundsTo (f : Flen) {num den : Nat} (hnum : 0 < num) (hden : 0 < den) (neg : Bool) :
    ∃ e r, RoundsTo f (num / den) e r ∧ roundFloat f neg num den = roundedFloat f neg e r := by
  obtain ⟨hxlow, hxhigh⟩ := floorLog2_bounds hnum hden
  generalize he : max (floorLog2 num den) (1 - (expBias f : Int)) = e
  have hscaled : ((num * 2 ^ (-lastPlace f e).toNat : Nat) : ℚ) /
      (den * 2 ^ (lastPlace f e).toNat : Nat) = scaled f (num / den) e := by
    have h := mul_two_pow_div num den (-lastPlace f e)
    rw [neg_neg] at h
    push_cast
    exact h
  have hpos : 0 < den * 2 ^ (lastPlace f e).toNat := by positivity
  have hnear := abs_roundInt_sub_le (num * 2 ^ (-lastPlace f e).toNat : Nat) hpos
  have htie := roundInt_even_of_tie (n := (num * 2 ^ (-lastPlace f e).toNat : Nat)) hpos
  rw [Int.cast_natCast, hscaled] at hnear htie
  have hhigh : scaled f (num / den) e < (2 : ℚ) ^ precision f :=
    scaled_lt (hxhigh.trans_le (zpow_le_zpow_right₀ one_le_two (by omega)))
  have hnonneg : ((0 : Nat) : ℚ) ≤ scaled f (num / den) e := by
    rw [Nat.cast_zero, scaled]
    positivity
  obtain ⟨r, hr, -, -⟩ := nearest_between hnonneg
    (b := 2 ^ precision f) (by exact_mod_cast hhigh) hnear
  rw [hr, Int.cast_natCast] at hnear htie
  refine ⟨e, r, ⟨by omega, fun hlt => ?_, hhigh, hnear, fun h => ?_⟩,
    roundFloat_eq_roundedFloat hnum he hr neg⟩
  · have hfloor : floorLog2 num den = e := by omega
    rw [hfloor] at hxlow hxhigh
    exact (scaled_bounds f hxlow hxhigh).1
  · have := htie h
    omega

/-! ### `RoundF` is to nearest (R178) -/

/-- A distance from the value in units of the last place, and as a number. -/
theorem abs_sub_mul_lastPlace (f : Flen) (x r : ℚ) (e : Int) :
    |x - r * 2 ^ lastPlace f e| = |r - scaled f x e| * 2 ^ lastPlace f e := by
  have hpos : (0 : ℚ) < 2 ^ lastPlace f e := by positivity
  rw [← abs_of_pos hpos, ← abs_mul, abs_of_pos hpos, sub_mul, scaled_mul, abs_sub_comm]

section
variable {f : Flen} {x : ℚ} {e : Int} {r : Nat} (h : RoundsTo f x e r)
include h

theorem RoundsTo.abs_sub_le : 2 * |x - r * 2 ^ lastPlace f e| ≤ 2 ^ lastPlace f e := by
  have hpos : (0 : ℚ) < 2 ^ lastPlace f e := by positivity
  have hle := mul_le_mul_of_nonneg_right h.near hpos.le
  rw [abs_sub_mul_lastPlace]
  linarith

theorem RoundsTo.even_of_tie (htie : 2 * |x - r * 2 ^ lastPlace f e| = 2 ^ lastPlace f e) :
    r % 2 = 0 := by
  have hpos : (0 : ℚ) < 2 ^ lastPlace f e := by positivity
  rw [abs_sub_mul_lastPlace] at htie
  refine h.tie (mul_right_cancel₀ hpos.ne' ?_)
  linarith

/-- The significand has at most `p` digits, or is the carry out of them. -/
theorem RoundsTo.le : r ≤ 2 ^ precision f := by
  obtain ⟨-, hup⟩ := abs_le.1 h.near
  have hlt : (r : ℚ) < ((2 ^ precision f + 1 : Nat) : ℚ) := by
    push_cast
    linarith [h.high]
  exact Nat.lt_succ_iff.1 (by exact_mod_cast hlt)

/-- Above the least exponent the significand is full. -/
theorem RoundsTo.two_pow_le (he : 1 - (expBias f : Int) < e) : 2 ^ (precision f - 1) ≤ r := by
  obtain ⟨hlow, -⟩ := abs_le.1 h.near
  have hlt : ((2 ^ (precision f - 1) : Nat) : ℚ) < ((r + 1 : Nat) : ℚ) := by
    push_cast
    linarith [h.low he]
  exact Nat.lt_succ_iff.1 (by exact_mod_cast hlt)

/-- Above the least exponent the value is at least `2^(p-1)` of its last places. -/
theorem RoundsTo.mul_le (he : 1 - (expBias f : Int) < e) :
    (2 : ℚ) ^ (precision f - 1) * 2 ^ lastPlace f e ≤ x := by
  calc (2 : ℚ) ^ (precision f - 1) * 2 ^ lastPlace f e ≤ scaled f x e * 2 ^ lastPlace f e := by
        gcongr
        exact h.low he
    _ = x := scaled_mul f x e

end

/-- The carried significand is the same number one exponent higher. -/
theorem two_pow_mul_lastPlace_succ (f : Flen) (e : Int) :
    ((2 ^ (precision f - 1) : Nat) : ℚ) * 2 ^ lastPlace f (e + 1) =
      ((2 ^ precision f : Nat) : ℚ) * 2 ^ lastPlace f e := by
  rw [two_pow_precision, lastPlace_add_one, zpow_add_one₀ two_ne_zero]
  push_cast
  ring

/-- What R178 says of a finite result `m * 2^k` for the value `x`. -/
def NearestFinite (f : Flen) (x : ℚ) (m : Nat) (k : Int) : Prop :=
  m < 2 ^ precision f ∧
    1 - (expBias f : Int) - (precision f - 1) ≤ k ∧ k ≤ (expBias f : Int) - (precision f - 1) ∧
    (m < 2 ^ (precision f - 1) → k = 1 - (expBias f : Int) - (precision f - 1)) ∧
    (m = 2 ^ (precision f - 1) → 1 - (expBias f : Int) - (precision f - 1) < k →
      4 * (m * (2 : ℚ) ^ k - x) ≤ (2 : ℚ) ^ k) ∧
    2 * |x - m * (2 : ℚ) ^ k| ≤ (2 : ℚ) ^ k ∧
    (2 * |x - m * (2 : ℚ) ^ k| = (2 : ℚ) ^ k → m % 2 = 0)

section
variable {f : Flen} {x : ℚ} {e : Int}

/-- A significand without a carry. -/
theorem RoundsTo.nearestFinite {r : Nat} (h : RoundsTo f x e r) (hr : r ≠ 2 ^ precision f)
    (he : e ≤ expBias f) : NearestFinite f x r (lastPlace f e) := by
  have hlow := h.expLow
  refine ⟨lt_of_le_of_ne h.le hr, sub_le_sub_right hlow _, sub_le_sub_right he _, fun hsub => ?_,
    fun hm hk => ?_, h.abs_sub_le, h.even_of_tie⟩
  · have hmin : ¬ 1 - (expBias f : Int) < e := fun hlt =>
      Nat.not_lt.2 (h.two_pow_le hlt) hsub
    have hmin' : e = 1 - (expBias f : Int) := by omega
    rw [hmin', lastPlace]
  · have hle := h.mul_le ((sub_lt_sub_iff_right _).1 hk)
    have hpos : (0 : ℚ) < 2 ^ lastPlace f e := by positivity
    rw [hm]
    push_cast
    linarith

/-- A carry out of the significand: the value is within half of the lower last place, a quarter of
the higher one. -/
theorem RoundsTo.nearestFinite_carry (h : RoundsTo f x e (2 ^ precision f))
    (he : e + 1 ≤ expBias f) :
    NearestFinite f x (2 ^ (precision f - 1)) (lastPlace f (e + 1)) := by
  have hlow := h.expLow
  have herr := h.abs_sub_le
  have hunit : (2 : ℚ) ^ lastPlace f (e + 1) = 2 * 2 ^ lastPlace f e := by
    rw [lastPlace_add_one, zpow_add_one₀ two_ne_zero, mul_comm]
  have hpos : (0 : ℚ) < 2 ^ lastPlace f e := by positivity
  rw [← two_pow_mul_lastPlace_succ] at herr
  refine ⟨two_pow_lt f, sub_le_sub_right (by omega) _, sub_le_sub_right he _,
    fun hsub => absurd hsub (lt_irrefl _), fun _ _ => ?_, by linarith, fun htie => ?_⟩
  · obtain ⟨hdown, -⟩ := abs_le.1 (le_div_iff₀' two_pos |>.2 herr)
    linarith
  · linarith

/-- An exponent too large: the value lies at or above half a unit beyond the largest finite
number. -/
theorem RoundsTo.overflow {r : Nat} (h : RoundsTo f x e r)
    (he : e > expBias f ∨ r = 2 ^ precision f ∧ e + 1 > expBias f) :
    ((2 : ℚ) ^ precision f - 1 / 2) * (2 : ℚ) ^ lastPlace f (expBias f) ≤ x := by
  have hhalf : (0 : ℚ) ≤ 2 ^ precision f - 1 / 2 := by
    linarith [one_le_pow₀ (one_le_two (α := ℚ)) (n := precision f)]
  rcases he with he | ⟨rfl, he⟩
  · have hbias : 0 < expBias f := by cases f <;> decide
    have hunit : (2 : ℚ) ^ lastPlace f (expBias f + 1) ≤ 2 ^ lastPlace f e :=
      zpow_le_zpow_right₀ one_le_two (sub_le_sub_right he _)
    have hcarry := two_pow_mul_lastPlace_succ f (expBias f)
    push_cast at hcarry
    have hpos : (0 : ℚ) < 2 ^ lastPlace f (expBias f) := by positivity
    calc ((2 : ℚ) ^ precision f - 1 / 2) * 2 ^ lastPlace f (expBias f)
        ≤ 2 ^ precision f * 2 ^ lastPlace f (expBias f) := by gcongr; linarith
      _ = 2 ^ (precision f - 1) * 2 ^ lastPlace f (expBias f + 1) := hcarry.symm
      _ ≤ 2 ^ (precision f - 1) * 2 ^ lastPlace f e := by gcongr
      _ ≤ x := h.mul_le (by omega)
  · have hunit : (2 : ℚ) ^ lastPlace f (expBias f) ≤ 2 ^ lastPlace f e :=
      zpow_le_zpow_right₀ one_le_two (sub_le_sub_right (by omega) _)
    obtain ⟨-, hup⟩ := abs_le.1 h.near
    push_cast at hup
    calc ((2 : ℚ) ^ precision f - 1 / 2) * 2 ^ lastPlace f (expBias f)
        ≤ (2 ^ precision f - 1 / 2) * 2 ^ lastPlace f e := by gcongr
      _ ≤ scaled f x e * 2 ^ lastPlace f e := by gcongr; linarith
      _ = x := scaled_mul f x e

end

/-- Settles O45: the four ways `RoundF` ends, by carry and by overflow. -/
theorem roundFloatIsNearestTiesToEven : Obligations.RoundFloatIsNearestTiesToEven := by
  refine ⟨fun f neg den _ => ⟨neg, 0, if_pos rfl⟩, fun f neg num den hnum hden => ?_⟩
  obtain ⟨e, r, h, hfloat⟩ := exists_roundsTo f hnum hden neg
  rw [hfloat, roundedFloat]
  by_cases hcarry : r = 2 ^ precision f
  · rw [if_pos hcarry]
    by_cases he : e + 1 > expBias f
    · rw [if_pos he]
      exact ⟨rfl, h.overflow (.inr ⟨hcarry, he⟩)⟩
    · rw [if_neg he]
      subst hcarry
      exact ⟨rfl, h.nearestFinite_carry (not_lt.1 he)⟩
  · rw [if_neg hcarry]
    by_cases he : e > expBias f
    · rw [if_pos he]
      exact ⟨rfl, h.overflow (.inl he)⟩
    · rw [if_neg he]
      exact ⟨rfl, h.nearestFinite hcarry (not_lt.1 he)⟩

end Sys2Proof.Machine
